-- ==== Sys2Proof/Word.lean ====
section
/-! DEFINITION. The word types of the block: bytes, 32-bit words and bit-strings (spec 00_scope.md R7, R10 to R12). -/

namespace Sys2Proof

/-- A byte: a Symbol, a cell of IBUF, OBUF or PBUF, or an immediate (R7 `SYM_W`, R10). -/
abbrev Byte := BitVec 8

/-- A 32-bit word: a command, a register of space 0, a frequency counter or a node weight
(R7 `CMD_W` and `CNT_W`). -/
abbrev Word := BitVec 32

/-- A bit-string, position 0 first (R12). -/
abbrev BitString := List Bool

end Sys2Proof
end

