-- ==== Sys2Proof/Syntax.lean ====
section
/-! DEFINITION. The commands of the block: one constructor for each row of spec/opcode_table.json
(spec 30_encoding.md R83). -/

namespace Sys2Proof

/-- The fifteen commands. Only PUSH has an operand, the byte `imm8` (R82, R84); every other operand is
implicit in the command's rule. -/
inductive Instr where
  /-- 0x00, no effect (48_control.md R221) -/
  | nop
  /-- 0x01, the frequency counter (40_frequency_counter.md R111) -/
  | count
  /-- 0x02, the tree builder (41_tree_builder.md R121) -/
  | build
  /-- 0x03, the code assigner (42_code_assigner.md R136) -/
  | assign
  /-- 0x04, the encode step of the pipeline (47_pipeline.md R201) -/
  | encode
  /-- 0x05, the bit packer (43_bit_packer.md R151) -/
  | pack
  /-- 0x06, the container serializer (45_container_serializer.md R171) -/
  | serialize
  /-- 0x07, the six compress stages as one command (47_pipeline.md R210) -/
  | compress
  /-- 0x08, the container deserializer (46_container_deserializer.md R182) -/
  | parse
  /-- 0x09, the bit unpacker (44_bit_unpacker.md R161) -/
  | unpack
  /-- 0x0A, the decode step of the pipeline (47_pipeline.md R205) -/
  | decode
  /-- 0x0B, the three decompress stages as one command (47_pipeline.md R212) -/
  | decompress
  /-- 0x0C, clear the input (48_control.md R223) -/
  | iclr
  /-- 0x0D, append one byte to the input (48_control.md R222) -/
  | push (imm8 : Byte)
  /-- 0x0F, soft reset (48_control.md R224) -/
  | sreset
  deriving DecidableEq, Repr

end Sys2Proof
end

