-- ==== Sys2Proof/Config.lean ====
section
/-! DEFINITION. The open parameters of the block (spec 00_scope.md R8) and its reference configuration. -/

namespace Sys2Proof

/-- The capacities of R8, which the hardware reports in CSRs 13 to 15. They are 32-bit words, so the
upper bounds `ICAP, OCAP ≤ 2^32 - 1` are the type's. `pcap` is not free and is computed. -/
structure Config where
  /-- capacity of IBUF in bytes -/
  icap : Word
  /-- capacity of OBUF in bytes -/
  ocap : Word
  /-- capacity of BITBUF in bits -/
  bcap : Word
  deriving DecidableEq, Repr

/-- `PCAP = BCAP / 8`, in bytes (R8). -/
def Config.pcap (c : Config) : Nat := c.bcap.toNat / 8

/-- The reference configuration of R8: ICAP = OCAP = 65536, BCAP = 524288.
DESIGN CHOICE (log 1): the spec leaves the capacities open; only `State.reset` uses these values. -/
def Config.reference : Config := { icap := 65536, ocap := 65536, bcap := 524288 }

end Sys2Proof
end

