-- ==== Sys2Proof/WellFormed.lean ====
section
/-! DEFINITION. Well-formed commands, command words and configurations. -/

namespace Sys2Proof

/-- A command as syntax is well formed when its operand is in range. The one operand is `imm8` of PUSH,
whose range 0 to 255 (30_encoding.md R82) is its type's, so no term of `Instr` is ill-formed. -/
def Instr.wellFormed : Instr → Bool
  | .nop | .count | .build | .assign | .encode | .pack | .serialize | .compress => true
  | .parse | .unpack | .decode | .decompress | .iclr | .sreset => true
  | .push imm8 => imm8.toNat ≤ 255

/-- A command word is well formed when its zero field is 0 (30_encoding.md R81, R82) and its opcode byte is
one the map of R83 holds. -/
def wordWellFormed (w : Word) : Bool :=
  let op := (w.extractLsb' 0 8).toNat
  if op = 0x0D then w.extractLsb' 16 16 == 0#16
  else w.extractLsb' 8 24 == 0#24 && (op ≤ 0x0C || op = 0x0F)

/-- The constraints of 00_scope.md R8 that the 32-bit type does not already enforce. -/
def Config.wellFormed (c : Config) : Bool :=
  1 ≤ c.icap.toNat && 1 ≤ c.ocap.toNat && 8 ≤ c.bcap.toNat && c.bcap.toNat % 8 == 0

end Sys2Proof
end

