-- ==== Sys2Proof/Decode.lean ====
section
/-! DEFINITION. The decoder and the encoder of command words (spec 30_encoding.md R80 to R86). -/

namespace Sys2Proof

/-- Why a word is ILLEGAL (R86). -/
inductive DecodeError where
  /-- the opcode byte is 0x0E or 0x10 to 0xFF -/
  | noSuchOpcode
  /-- a bit of the zero field is set: [31:8] in format Z, [31:16] in format B -/
  | zeroField
  deriving DecidableEq, Repr

/-- Bits [7:0], the opcode of both formats (R80). -/
def opcodeField (w : Word) : Byte := w.extractLsb' 0 8

/-- Bits [31:8], which format Z wants 0 (R81). -/
def zeroFieldZ (w : Word) : BitVec 24 := w.extractLsb' 8 24

/-- Bits [31:16], which format B wants 0 (R82). -/
def zeroFieldB (w : Word) : BitVec 16 := w.extractLsb' 16 16

/-- Bits [15:8], the immediate of PUSH, used as it is (R82, R84). -/
def imm8Field (w : Word) : Byte := w.extractLsb' 8 8

/-- The format-Z command of an opcode (R83), if it has one. 0x0D is PUSH, of format B. -/
def opcodeZ (op : Byte) : Option Instr :=
  match op.toNat with
  | 0x00 => some .nop
  | 0x01 => some .count
  | 0x02 => some .build
  | 0x03 => some .assign
  | 0x04 => some .encode
  | 0x05 => some .pack
  | 0x06 => some .serialize
  | 0x07 => some .compress
  | 0x08 => some .parse
  | 0x09 => some .unpack
  | 0x0A => some .decode
  | 0x0B => some .decompress
  | 0x0C => some .iclr
  | 0x0F => some .sreset
  | _ => none

/-- Decode(w) of R85: every word is one command or illegal, by name. -/
def decode (w : Word) : Except DecodeError Instr :=
  if opcodeField w = 0x0D then
    if zeroFieldB w ≠ 0 then .error .zeroField else .ok (.push (imm8Field w))
  else if zeroFieldZ w ≠ 0 then .error .zeroField
  else
    match opcodeZ (opcodeField w) with
    | some i => .ok i
    | none => .error .noSuchOpcode

/-- The opcode byte of a command (R83). -/
def opcodeByte : Instr → Byte
  | .nop => 0x00
  | .count => 0x01
  | .build => 0x02
  | .assign => 0x03
  | .encode => 0x04
  | .pack => 0x05
  | .serialize => 0x06
  | .compress => 0x07
  | .parse => 0x08
  | .unpack => 0x09
  | .decode => 0x0A
  | .decompress => 0x0B
  | .iclr => 0x0C
  | .push _ => 0x0D
  | .sreset => 0x0F

/-- The word of a command: format B for PUSH, format Z for the others (R81, R82). -/
def encode : Instr → Word
  | .push imm8 => 0#16 ++ imm8 ++ (0x0D : Byte)
  | i => 0#24 ++ opcodeByte i

/-- One row of the opcode map of R83: a word `w` is the command exactly when `w &&& mask = pattern`. -/
structure OpcodeRow where
  /-- the row's mnemonic -/
  mnemonic : String
  /-- the column `mask` -/
  mask : Word
  /-- the column `match` -/
  pattern : Word
  deriving DecidableEq, Repr

/-- A row of format Z: every bit is fixed. -/
def rowZ (mnemonic : String) (pattern : Word) : OpcodeRow :=
  { mnemonic := mnemonic, mask := 0xFFFFFFFF, pattern := pattern }

/-- The row of the opcode map a command stands in (R83). -/
def opcodeRow : Instr → OpcodeRow
  | .nop => rowZ "NOP" 0x00000000
  | .count => rowZ "COUNT" 0x00000001
  | .build => rowZ "BUILD" 0x00000002
  | .assign => rowZ "ASSIGN" 0x00000003
  | .encode => rowZ "ENCODE" 0x00000004
  | .pack => rowZ "PACK" 0x00000005
  | .serialize => rowZ "SERIALIZE" 0x00000006
  | .compress => rowZ "COMPRESS" 0x00000007
  | .parse => rowZ "PARSE" 0x00000008
  | .unpack => rowZ "UNPACK" 0x00000009
  | .decode => rowZ "DECODE" 0x0000000A
  | .decompress => rowZ "DECOMPRESS" 0x0000000B
  | .iclr => rowZ "ICLR" 0x0000000C
  | .push _ => { mnemonic := "PUSH", mask := 0xFFFF00FF, pattern := 0x0000000D }
  | .sreset => rowZ "SRESET" 0x0000000F

/-- The instruction the decoder reads from a word given as a number. A command is one 32-bit word (R80), so a
number that needs more bits is no command. -/
def decodeNat (w : Nat) : Option Instr :=
  if w < 2 ^ 32 then
    match decode (BitVec.ofNat 32 w) with
    | .ok i => some i
    | .error _ => none
  else none

/-- The host's numbering of spec/opcode_table.json: the low `nbits` bits of `w`, every bit above them 0. The
block has no byte order for command words: a word arrives whole as `wdata` (R80). -/
def decodeTableWord (nbits w : Nat) : Option Instr := decodeNat (w % 2 ^ nbits)

end Sys2Proof
end

