-- ==== Sys2Proof/Machine/State.lean ====
section
/-! DEFINITION. The state of the block as plain data, the reasons a step can stop, and the reset state
(spec 10_state.md, in the compact form of R21). -/

namespace Sys2Proof.Machine

/-- `STATUS.ERR` (10_state.md R26, 60_exceptions.md R241). Codes 8 to 15 are never produced and have no
constructor (R276; log 13); code 4 is reserved, kept so that a statement can say it is never set. -/
inductive ErrCode where
  /-- 0, no error -/
  | none
  /-- 1, raised by BUILD on an empty Frequency Map -/
  | invalidInput
  /-- 2, raised by ASSIGN on a path of more than 255 bits -/
  | codeTooLong
  /-- 3, raised by PARSE and DECODE -/
  | corruptContainer
  /-- 4, reserved, never set by the block -/
  | io
  /-- 5, a product would not fit its memory -/
  | bufferOverflow
  /-- 6, a unit command in the wrong phase -/
  | badSequence
  /-- 7, an illegal word -/
  | illegalCommand
  deriving DecidableEq, Repr

/-- `STATUS.PHASE` (10_state.md R27): the eleven values of R276. -/
inductive Phase where
  /-- 0 -/
  | load
  /-- 1 -/
  | counted
  /-- 2 -/
  | built
  /-- 3 -/
  | assigned
  /-- 4 -/
  | encoded
  /-- 5 -/
  | packed
  /-- 6 -/
  | serialized
  /-- 8 -/
  | parsed
  /-- 9 -/
  | unpacked
  /-- 10 -/
  | decoded
  /-- 15 -/
  | faulted
  deriving DecidableEq, Repr

/-- A record of the tree arena (10_state.md R31): a leaf holds its symbol, an internal node the indices of
its children, and each its weight. The fields a kind does not have read as 0 (20_memory.md R64). -/
inductive Node where
  | leaf (sym : Byte) (weight : Word)
  | internal (left right : BitVec 9) (weight : Word)
  deriving DecidableEq, Repr

/-- A memory indexed by the 256 symbols, held as (symbol, value) pairs: symbols strictly rising, and no value
equal to the one an unlisted symbol reads as (`SymMap.wf` in Machine/Ops.lean; log 6). -/
abbrev SymMap (α : Type) := List (Byte × α)

/-- One transaction of the host port: the tuple `(write, space, index, wdata)` of 20_memory.md R60. -/
structure Transaction where
  /-- 1 for a write -/
  write : Bool
  /-- the address space -/
  space : BitVec 4
  /-- the element within the space -/
  index : Word
  /-- the data of a write, ignored on a read -/
  wdata : Word
  deriving DecidableEq, Repr

/-- What the outside world can do to the block: one transaction, or the reset signal (20_memory.md R60,
70_reset_and_hazards.md R270). -/
inductive HostInput where
  | transaction (t : Transaction)
  | rst
  deriving DecidableEq, Repr

/-- The state of the block (10_state.md R20, in the compact form of R21: `ILEN`, `NNODES`, `BLEN`, `PLEN` and
`OLEN` are the lengths of the memories they bound, `CLEN[s]` the length and `CBITS[s]` the packing of the
code of s; log 5), the hard-wired capacity registers (log 1), and the host port (logs 2 and 3). -/
structure State where
  /-- ICAP, OCAP, BCAP: hard-wired, written by no step (R24) -/
  cfg : Config
  /-- STATUS.ERR (R26) -/
  err : ErrCode
  /-- STATUS.PHASE (R27) -/
  phase : Phase
  /-- ERRINFO.STAGE (60_exceptions.md R243) -/
  stage : Byte
  /-- ERRINFO.SUB (60_exceptions.md R244) -/
  sub : Byte
  /-- ERRPOS (60_exceptions.md R245) -/
  errpos : Word
  /-- IBUF[0..ILEN) (R29) -/
  ibuf : List Byte
  /-- FREQ (R30); an unlisted symbol reads as 0 -/
  freq : SymMap Word
  /-- NSYM (R24) -/
  nsym : BitVec 9
  /-- NODE[0..NNODES) (R31) -/
  nodes : List Node
  /-- ROOT (R24) -/
  root : BitVec 9
  /-- CLEN and CBITS (R32); an unlisted symbol has no code -/
  code : SymMap BitString
  /-- BITBUF[0..BLEN) (R33) -/
  bits : BitString
  /-- PBUF[0..PLEN) (R34) -/
  pbuf : List Byte
  /-- PAD (R34) -/
  pad : BitVec 3
  /-- OBUF[0..OLEN) (R35) -/
  obuf : List Byte
  /-- the host inputs issued and not yet taken, oldest first (20_memory.md R71; log 2) -/
  port : List HostInput
  /-- the read data of the last transaction, none when it was a write (20_memory.md R60; log 3) -/
  rdata : Option Word
  deriving DecidableEq, Repr

/-- What `raise E(stage, sub, pos)` records (00_scope.md R14, 60_exceptions.md R242). -/
structure ErrorRecord where
  /-- the code, for STATUS.ERR -/
  code : ErrCode
  /-- for ERRINFO.STAGE -/
  stage : Byte
  /-- for ERRINFO.SUB -/
  sub : Byte
  /-- for ERRPOS -/
  pos : Word
  deriving DecidableEq, Repr

/-- The machine's own faults. The spec's errors are NEXT states (Fail(), 60_exceptions.md R246); these three
stand only where a state that no run reaches gives a pseudocode nothing to read (log 8). All are SAFE: the
model stops where the spec gives no effect. -/
inductive Fault where
  /-- raised by BUILD when `NSYM ≠ 0` and every counter is 0: LIVE is empty and has no "one member" for ROOT
  (41_tree_builder.md R123). SAFE. -/
  | emptyLive
  /-- raised by ASSIGN when ROOT or a child link names no record below NNODES, or when links run in a circle
  (10_state.md R31 excludes both). SAFE. -/
  | brokenTree
  /-- raised by UNPACK when `PLEN = 0` and `PAD > 0`, where Unpack "is not defined" (44_bit_unpacker.md R160).
  SAFE. -/
  | undefinedUnpack
  deriving DecidableEq, Repr

/-- Reasons to refuse. -/
inductive Refusal where
  /-- raised by `exec` for a command that has no meaning yet; SAFE. No arm uses it. -/
  | notModelled (mnemonic : String)
  deriving DecidableEq, Repr

/-- The outcome of a command. -/
abbrev Result := Host.Outcome State Fault Refusal

/-- The state after reset under a given configuration (10_state.md R41, 70_reset_and_hazards.md R270, R272). -/
def State.resetWith (c : Config) : State :=
  { cfg := c, err := .none, phase := .load, stage := 0, sub := 0, errpos := 0,
    ibuf := [], freq := [], nsym := 0, nodes := [], root := 0, code := [],
    bits := [], pbuf := [], pad := 0, obuf := [], port := [], rdata := none }

/-- The state after reset. Every value is the spec's but the capacities, which R8 leaves open: the reference
configuration (DESIGN CHOICE, log 1). -/
def State.reset : State := State.resetWith Config.reference

end Sys2Proof.Machine
end

