-- ==== Sys2Proof/Machine/Flags.lean ====
section
/-! DEFINITION. The status register and the error-record registers: the numbers of ERR and PHASE and the words the
host reads (spec 10_state.md R24, R26, R27, 60_exceptions.md R241 to R245). -/

namespace Sys2Proof.Machine

/-- The number of an error code (60_exceptions.md R241). -/
def ErrCode.toBits : ErrCode → BitVec 4
  | .none => 0
  | .invalidInput => 1
  | .codeTooLong => 2
  | .corruptContainer => 3
  | .io => 4
  | .bufferOverflow => 5
  | .badSequence => 6
  | .illegalCommand => 7

/-- The number of a phase (10_state.md R27). -/
def Phase.toBits : Phase → BitVec 4
  | .load => 0
  | .counted => 1
  | .built => 2
  | .assigned => 3
  | .encoded => 4
  | .packed => 5
  | .serialized => 6
  | .parsed => 8
  | .unpacked => 9
  | .decoded => 10
  | .faulted => 15

/-- `STATUS`: ERR in [3:0], PHASE in [7:4], the rest 0 (10_state.md R24). -/
def statusWord (s : State) : Word := 0#24 ++ s.phase.toBits ++ s.err.toBits

/-- `ERRINFO`: STAGE in [7:0], SUB in [15:8], the rest 0 (10_state.md R24). -/
def errinfoWord (s : State) : Word := 0#16 ++ s.sub ++ s.stage

/-- A block is faulted when `STATUS.ERR ≠ 0` (60_exceptions.md R248). -/
def isFaulted (s : State) : Bool := s.err ≠ .none

end Sys2Proof.Machine
end

