-- ==== Sys2Proof/Machine/Operands.lean ====
section
/-! DEFINITION. The operand forms of the commands: bits in bytes, little-endian integers, the alphabet, and the
symbol-indexed memories (spec 00_scope.md R10 to R13, 20_memory.md R65, R66, 10_state.md R30, R32). -/

namespace Sys2Proof.Machine

/-- `ceil(a/8)`, which is `(a + 7) div 8` (00_scope.md R10). -/
def ceil8 (a : Nat) : Nat := (a + 7) / 8

/-- `bit(b, m)`: the bit at position m, 0 beyond the end (20_memory.md R66). -/
def bitAt (b : BitString) (m : Nat) : Bool := b[m]?.getD false

/-- `PackByte(b, j)`: bits 8j to 8j + 7 of b, most significant first (20_memory.md R66). -/
def packByte (b : BitString) (j : Nat) : Byte :=
  BitVec.ofNat 8 (((List.range 8).map fun k => (bitAt b (8 * j + k)).toNat * 2 ^ (7 - k)).sum)

/-- The first `ceil(|b|/8)` packed bytes of b. -/
def packBytes (b : BitString) : List Byte := (List.range (ceil8 b.length)).map (packByte b)

/-- `UnpackBit(B, k) = (B[k div 8] >> (7 - (k mod 8))) & 1` (20_memory.md R66). -/
def unpackBit (bytes : List Byte) (k : Nat) : Bool :=
  (bytes[k / 8]?.getD 0).getLsbD (7 - k % 8)

/-- `CodeOf(p, L)` of 46_container_deserializer.md R186, given the code bytes that start at offset p: the
first L bits, whatever follows them. -/
def codeOf (bytes : List Byte) (len : Nat) : BitString := (List.range len).map (unpackBit bytes)

/-- `MemRead(M, i, n)` over the n bytes read: little-endian, unsigned (00_scope.md R13, 20_memory.md R65). -/
def memRead : List Byte → Nat
  | [] => 0
  | b :: bs => b.toNat + 256 * memRead bs

/-- The bytes `MemWrite(M, i, n, v)` writes: the n low-order bytes of v, least significant first
(00_scope.md R13, 20_memory.md R65). -/
def memWrite : Nat → Nat → List Byte
  | 0, _ => []
  | n + 1, v => BitVec.ofNat 8 v :: memWrite n (v / 256)

/-- The Symbols 0 to 255 in ascending order. -/
def symbols : List Byte := (List.range 256).map (BitVec.ofNat 8)

/-- The value a symbol-indexed memory holds at s; `d` is what an unlisted symbol reads as. -/
def SymMap.get {α : Type} (d : α) : SymMap α → Byte → α
  | [], _ => d
  | (t, a) :: m, s => if t = s then a else SymMap.get d m s

/-- The memory with the value at s replaced, in canonical form when `m` is: writing `d` takes the entry away. -/
def SymMap.set {α : Type} [DecidableEq α] (d : α) : SymMap α → Byte → α → SymMap α
  | [], s, a => if a = d then [] else [(s, a)]
  | (t, b) :: m, s, a =>
    if t = s then (if a = d then m else (s, a) :: m)
    else if s.toNat < t.toNat then (if a = d then (t, b) :: m else (s, a) :: (t, b) :: m)
    else (t, b) :: SymMap.set d m s a

/-- The canonical form: symbols strictly rising, and no value equal to what an unlisted symbol reads as. -/
def SymMap.wf {α : Type} [DecidableEq α] (d : α) : SymMap α → Bool
  | [] => true
  | [(_, a)] => a ≠ d
  | (s, a) :: (t, b) :: m => a ≠ d && s.toNat < t.toNat && SymMap.wf d ((t, b) :: m)

/-- `FREQ[s]` (10_state.md R30). -/
def freqAt (freq : SymMap Word) (s : Byte) : Word := SymMap.get 0 freq s

/-- `code(s)`, the empty bit-string when s has no code (10_state.md R32). -/
def codeAt (code : SymMap BitString) (s : Byte) : BitString := SymMap.get [] code s

/-- `CLEN[s]` as a number (10_state.md R32). -/
def clenAt (code : SymMap BitString) (s : Byte) : Nat := (codeAt code s).length

/-- `SetCode(s, c)` of 42_code_assigner.md R136: `CLEN[s]` and the packed `CBITS[s]` are the two views of the
one code stored. -/
def setCode (code : SymMap BitString) (s : Byte) (c : BitString) : SymMap BitString :=
  SymMap.set [] code s c

/-- `isPrefix(a, b) or isPrefix(b, a)` (00_scope.md R12): the test of 46_container_deserializer.md R189. -/
def comparable (c d : BitString) : Bool := c.isPrefixOf d || d.isPrefixOf c

/-- `Lookup(c)` of 10_state.md R36: the symbol whose code is c, or none. By the table invariant there is at
most one such symbol (log 9). -/
def lookup (code : SymMap BitString) (c : BitString) : Option Byte :=
  (code.find? fun e => e.2 == c).map (·.1)

end Sys2Proof.Machine
end

