-- ==== Sys2Proof/Machine/Ops.lean ====
section
/-! DEFINITION. The shared operations: clearing the products, taking an error (Fail()) and leaving the faulted state
(SRESET), the checks every command begins with, and the host's gated reads. -/

namespace Sys2Proof.Machine

/-- The canonical form of the symbol-indexed memories (log 6). The other memories are lists of exactly their
valid elements and have one form only (log 5). -/
def Memory.wf (s : State) : Bool := SymMap.wf 0 s.freq && SymMap.wf [] s.code

/-- `ClearProducts()` (10_state.md R40). IBUF, ERR, ERRINFO, ERRPOS and PHASE keep their values. -/
def clearProducts (s : State) : State :=
  { s with freq := [], code := [], nsym := 0, nodes := [], root := 0,
           bits := [], pbuf := [], pad := 0, obuf := [] }

/-- `Fail(code, stage, sub, pos)`, the block's exception entry (60_exceptions.md R246): the products are
cleared, the error is recorded, PHASE becomes 15; IBUF and ILEN stay; control goes nowhere. -/
def fail (e : ErrorRecord) (s : State) : State :=
  { clearProducts s with err := e.code, stage := e.stage, sub := e.sub, errpos := e.pos, phase := .faulted }

/-- `raise E(stage, sub, pos)` (00_scope.md R14): the command ends in Fail(), a next state. -/
def raise (e : ErrorRecord) (s : State) : Result := .next (fail e s)

/-- SRESET's effect, the block's only way out of the faulted state but reset (48_control.md R224,
60_exceptions.md R252). -/
def softReset (s : State) : State :=
  { clearProducts s with ibuf := [], err := .none, stage := 0, sub := 0, errpos := 0, phase := .load }

/-- The reset signal (70_reset_and_hazards.md R270): the reset state under the block's own capacities. What
the host has still to issue is the host's and stays in `port` (log 10). -/
def hardReset (s : State) : State := { State.resetWith s.cfg with port := s.port }

/-- Every command but SRESET is ignored while faulted (60_exceptions.md R248). -/
def unlessFaulted (s : State) (command : Result) : Result :=
  if s.err = .none then command else .next s

/-- `BadSequence(opcode, PHASE, 0)` (00_scope.md R14, 60_exceptions.md R244). -/
def badSequence (opcode : Byte) (found : Phase) : ErrorRecord :=
  { code := .badSequence, stage := opcode, sub := found.toBits.setWidth 8, pos := 0 }

/-- `require PHASE = p` (00_scope.md R14). -/
def requirePhase (opcode : Byte) (p : Phase) (s : State) (command : Result) : Result :=
  if s.phase = p then command else raise (badSequence opcode s.phase) s

/-- `BufferOverflow(stage, 0, 0)` (60_exceptions.md R241). -/
def bufferOverflow (stage : Byte) : ErrorRecord :=
  { code := .bufferOverflow, stage := stage, sub := 0, pos := 0 }

/-- `CorruptContainer(stage, sub, pos)` (60_exceptions.md R244, R245). -/
def corruptContainer (stage sub : Byte) (pos : Nat) : ErrorRecord :=
  { code := .corruptContainer, stage := stage, sub := sub, pos := BitVec.ofNat 32 pos }

/-- One stage of a composite and then the rest: "if ERR ≠ 0: stop" (47_pipeline.md R210, R212). -/
def thenStage (r : Result) (rest : State → Result) : Result :=
  match r with
  | .next s => if s.err = .none then rest s else .next s
  | .fault f => .fault f
  | .refused r => .refused r

/-- The element of a list, or 0 beyond its end: a gated read (20_memory.md R63). -/
def gated {α : Type} (l : List α) (index : Word) (view : α → Word) : Word :=
  match l[index.toNat]? with
  | some a => view a
  | none => 0

/-- `NODEW[i]` (20_memory.md R64). -/
def nodeWeight : Node → Word
  | .leaf _ w => w
  | .internal _ _ w => w

/-- `NODEL[i]`: left [8:0], right [17:9], sym [25:18], [30:26] = 0, leaf [31] (20_memory.md R64). -/
def nodeLink : Node → Word
  | .leaf sym _ => 1#1 ++ 0#5 ++ sym ++ 0#9 ++ 0#9
  | .internal left right _ => 0#1 ++ 0#5 ++ 0#8 ++ right ++ left

/-- A length register as the host reads it. -/
def lengthWord (n : Nat) : Word := BitVec.ofNat 32 n

/-- The register file of space 0 (10_state.md R24); indices above 15 read 0. -/
def readCsr (s : State) (index : Word) : Word :=
  match index.toNat with
  | 0 => 0x48464301
  | 1 => 0
  | 2 => statusWord s
  | 3 => errinfoWord s
  | 4 => s.errpos
  | 5 => lengthWord s.ibuf.length
  | 6 => s.nsym.setWidth 32
  | 7 => lengthWord s.nodes.length
  | 8 => s.root.setWidth 32
  | 9 => lengthWord s.bits.length
  | 10 => lengthWord s.pbuf.length
  | 11 => s.pad.setWidth 32
  | 12 => lengthWord s.obuf.length
  | 13 => s.cfg.icap
  | 14 => s.cfg.ocap
  | 15 => s.cfg.bcap
  | _ => 0

/-- `CBITS[index]`, index = 32·s + j, gated by `ceil(CLEN[s]/8)` (20_memory.md R61, R63). -/
def readCbits (s : State) (index : Word) : Word :=
  let c := codeAt s.code (BitVec.ofNat 8 (index.toNat / 32))
  if index.toNat ≤ 8191 ∧ index.toNat % 32 < ceil8 c.length then
    (packByte c (index.toNat % 32)).setWidth 32
  else 0

/-- A host read: the element, zero-extended, when its index is inside the valid length of its memory, and 0
otherwise (20_memory.md R61, R63). -/
def hostRead (s : State) (space : BitVec 4) (index : Word) : Word :=
  match space.toNat with
  | 0 => readCsr s index
  | 1 => gated s.ibuf index (·.setWidth 32)
  | 2 => gated s.obuf index (·.setWidth 32)
  | 3 => if index.toNat ≤ 255 then freqAt s.freq (BitVec.ofNat 8 index.toNat) else 0
  | 4 => gated s.nodes index nodeWeight
  | 5 => gated s.nodes index nodeLink
  | 6 => if index.toNat ≤ 255 then (BitVec.ofNat 8 (clenAt s.code (BitVec.ofNat 8 index.toNat))).setWidth 32 else 0
  | 7 => readCbits s index
  | 8 => gated s.bits index fun b => (BitVec.ofBool b).setWidth 32
  | 9 => gated s.pbuf index (·.setWidth 32)
  | _ => 0

end Sys2Proof.Machine
end

