-- ==== Sys2Proof/Machine/Control.lean ====
section
/-! DEFINITION. The sequencer's control commands: NOP, PUSH, ICLR, SRESET (spec 48_control.md). -/

namespace Sys2Proof.Machine

/-- NOP (48_control.md R221): nothing changes, faulted or not. -/
def execNop (s : State) : Result := unlessFaulted s (.next s)

/-- PUSH imm8 (R222): the capacity check comes before any write. -/
def execPush (imm8 : Byte) (s : State) : Result :=
  unlessFaulted s <|
    if s.ibuf.length = s.cfg.icap.toNat then raise (bufferOverflow 0x0D) s
    else .next { clearProducts s with ibuf := s.ibuf ++ [imm8], phase := .load }

/-- ICLR (R223). -/
def execIclr (s : State) : Result :=
  unlessFaulted s (.next { clearProducts s with ibuf := [], phase := .load })

/-- SRESET (R224): the only command heard while faulted. -/
def execSreset (s : State) : Result := .next (softReset s)

end Sys2Proof.Machine
end

