-- ==== Sys2Proof/Machine/Assigner.lean ====
section
/-! DEFINITION. The code assigner unit: ASSIGN (spec 42_code_assigner.md). -/

namespace Sys2Proof.Machine

/-- How a traversal can end early. -/
inductive Stop where
  /-- `raise`, the spec's error -/
  | error (e : ErrorRecord)
  /-- the model's own fault -/
  | fault (f : Fault)
  deriving DecidableEq, Repr

/-- `CodeTooLong(0x03, 0, 0)` (42_code_assigner.md R140). -/
def codeTooLongError : ErrorRecord := { code := .codeTooLong, stage := 0x03, sub := 0, pos := 0 }

/-- `Visit(i, path)` (R137), pre-order, left before right, adding each leaf's path to the table. A path meets each
record at most once, so `fuel = NNODES` is enough on every tree. -/
def visit (nodes : List Node) : Nat → Nat → BitString → SymMap BitString → Except Stop (SymMap BitString)
  | 0, _, _, _ => .error (.fault .brokenTree)
  | fuel + 1, i, path, code =>
    match nodes[i]? with
    | none => .error (.fault .brokenTree)
    | some (.leaf sym _) =>
      if path.length > 255 then .error (.error codeTooLongError) else .ok (setCode code sym path)
    | some (.internal left right _) =>
      match visit nodes fuel left.toNat (path ++ [false]) code with
      | .ok code' => visit nodes fuel right.toNat (path ++ [true]) code'
      | .error e => .error e

/-- The table ASSIGN makes: the lone symbol gets the code "0" (R138), otherwise the traversal from ROOT. -/
def assignCodes (nodes : List Node) (root : Nat) (code : SymMap BitString) : Except Stop (SymMap BitString) :=
  match nodes[root]? with
  | some (.leaf sym _) => .ok (setCode code sym [false])
  | _ => visit nodes nodes.length root [] code

/-- ASSIGN (R136): BadSequence, then CodeTooLong. -/
def execAssign (s : State) : Result :=
  unlessFaulted s <| requirePhase 0x03 .built s <|
    match assignCodes s.nodes s.root.toNat s.code with
    | .ok code => .next { s with code := code, phase := .assigned }
    | .error (.error e) => raise e s
    | .error (.fault f) => .fault f

end Sys2Proof.Machine
end

