-- ==== Sys2Proof/Machine/Builder.lean ====
section
/-! DEFINITION. The tree builder unit: BUILD (spec 41_tree_builder.md). -/

namespace Sys2Proof.Machine

/-- A member of LIVE: the pair `(NODE[i].weight, i)` by which ExtractMin compares (41_tree_builder.md R123). It
is working state of the one command, not architectural (10_state.md R37; log 12). -/
structure Key where
  weight : Word
  index : Nat
  deriving DecidableEq, Repr

/-- Pairs compared first by weight, unsigned, then, for equal weights, by index (R123, R125, R127). -/
def Key.before (a b : Key) : Bool :=
  a.weight.toNat < b.weight.toNat || (a.weight.toNat == b.weight.toNat && a.index < b.index)

/-- The smaller of two keys. -/
def Key.least (a b : Key) : Key := if b.before a then b else a

/-- `ExtractMin(LIVE)`: the member whose pair is smallest, and LIVE without it (R123). -/
def extractMin : List Key → Option (Key × List Key)
  | [] => none
  | k :: ks =>
    let m := ks.foldl Key.least k
    some (m, (k :: ks).erase m)

/-- The leaves, in ascending symbol order (R123). -/
def leafNodes (freq : SymMap Word) : List Node :=
  (symbols.filter fun s => freqAt freq s ≠ 0).map fun s => .leaf s (freqAt freq s)

/-- LIVE at the start: every node, under its index (R123). -/
def initialLive (nodes : List Node) : List Key :=
  nodes.zipIdx.map fun e => { weight := nodeWeight e.1, index := e.2 }

/-- `while |LIVE| > 1`: extract twice, merge, insert (R123). Each pass takes two members and adds one, so `fuel`
passes are enough when `fuel` is the size of LIVE at the start (R124 (a)). The first extracted is the
left child (R125). -/
def mergeLoop : Nat → List Node → List Key → List Node × List Key
  | 0, nodes, live => (nodes, live)
  | fuel + 1, nodes, live =>
    match extractMin live with
    | none => (nodes, live)
    | some (a, rest) =>
      match extractMin rest with
      | none => (nodes, live)
      | some (b, rest') =>
        let weight := a.weight + b.weight
        let node := Node.internal (BitVec.ofNat 9 a.index) (BitVec.ofNat 9 b.index) weight
        mergeLoop fuel (nodes ++ [node]) (rest' ++ [{ weight := weight, index := nodes.length }])

/-- The whole algorithm of R123: the arena and the root, or nothing when no counter is set. -/
def buildTree (freq : SymMap Word) : Option (List Node × Nat) :=
  let leaves := leafNodes freq
  match mergeLoop leaves.length leaves (initialLive leaves) with
  | (nodes, [r]) => some (nodes, r.index)
  | _ => none

/-- `InvalidInput(0x02, 0, 0)` (R122). -/
def emptyMapError : ErrorRecord := { code := .invalidInput, stage := 0x02, sub := 0, pos := 0 }

/-- BUILD (R121): BadSequence, then InvalidInput, then the algorithm. -/
def execBuild (s : State) : Result :=
  unlessFaulted s <| requirePhase 0x02 .counted s <|
    if s.nsym = 0 then raise emptyMapError s
    else
      match buildTree s.freq with
      | some (nodes, root) => .next { s with nodes := nodes, root := BitVec.ofNat 9 root, phase := .built }
      | none => .fault .emptyLive

end Sys2Proof.Machine
end

