-- ==== Sys2Proof/Machine/Counter.lean ====
section
/-! DEFINITION. The frequency counter unit: COUNT (spec 40_frequency_counter.md). -/

namespace Sys2Proof.Machine

/-- `FREQ[s] <- FREQ[s] + 1` (40_frequency_counter.md R111). A counter is 32 bits; the sum wraps only beyond
2^32 - 1 input bytes, which no ICAP allows (R112; log 7). -/
def bumpCount (freq : SymMap Word) (s : Byte) : SymMap Word := SymMap.set 0 freq s (freqAt freq s + 1)

/-- `Freq(S)`, counted in one pass over the input (R110, R111). -/
def countBytes (bytes : List Byte) : SymMap Word := bytes.foldl bumpCount []

/-- The number of s in 0 .. 255 with `FREQ[s] ≠ 0` (R111). -/
def distinctCount (freq : SymMap Word) : Nat := symbols.countP fun s => freqAt freq s ≠ 0

/-- COUNT (R111): accepted in every phase, never fails. -/
def execCount (s : State) : Result :=
  unlessFaulted s <|
    let freq := countBytes s.ibuf
    .next { clearProducts s with freq := freq, nsym := BitVec.ofNat 9 (distinctCount freq), phase := .counted }

end Sys2Proof.Machine
end

