-- ==== Sys2Proof/Machine/Deserializer.lean ====
section
/-! DEFINITION. The container deserializer unit: PARSE (spec 46_container_deserializer.md). -/

namespace Sys2Proof.Machine

/-- What a container parses to. -/
structure Parsed where
  count : Nat
  code : SymMap BitString
  pad : BitVec 3
  payload : List Byte
  deriving DecidableEq, Repr

/-- The sub-causes of CorruptContainer that PARSE raises (60_exceptions.md R244). -/
def parseError (sub : Byte) (pos : Nat) : ErrorRecord := corruptContainer 0x08 sub pos

/-- The checks behind the last entry: `rest` is `IBUF[p..ILEN)` (46_container_deserializer.md R190 to R192). -/
def parseTail (pcap count p : Nat) (code : SymMap BitString) (rest : List Byte) : Except ErrorRecord Parsed :=
  match rest with
  | [] => .error (parseError 8 p)
  | pad :: payload =>
    if pad.toNat > 7 then .error (parseError 9 p)
    else if payload.length = 0 then .error (parseError 10 (p + 1))
    else if payload.length > pcap then .error (bufferOverflow 0x08)
    else .ok { count := count, code := code, pad := pad.setWidth 3, payload := payload }

/-- An earlier code that is a prefix of c, or of which c is a prefix, equality included (R189). -/
def conflicts (code : SymMap BitString) (c : BitString) : Bool := code.any fun e => comparable e.2 c

/-- `repeat n times`: the entries, with p the offset reached, `rest` what `IBUF[p..ILEN)` holds and `code` the
table filled so far (R187 to R189, R192). -/
def parseEntries (pcap count : Nat) : Nat → Nat → SymMap BitString → List Byte → Except ErrorRecord Parsed
  | 0, p, code, rest => parseTail pcap count p code rest
  | n + 1, p, code, rest =>
    match rest with
    | s :: len :: rest' =>
      if len = 0 then .error (parseError 4 p)
      else if rest'.length < ceil8 len.toNat then .error (parseError 5 p)
      else
        let c := codeOf rest' len.toNat
        if clenAt code s ≠ 0 then .error (parseError 6 p)
        else if conflicts code c then .error (parseError 7 p)
        else
          parseEntries pcap count n (p + 2 + ceil8 len.toNat) (setCode code s c)
            (rest'.drop (ceil8 len.toNat))
    | _ => .error (parseError 3 p)

/-- PARSE's reading of a byte sequence, whole (R192). -/
def parseContainer (pcap : Nat) (bytes : List Byte) : Except ErrorRecord Parsed :=
  if bytes.length < 4 then .error (parseError 1 0)
  else
    let count := memRead (bytes.take 4)
    if count = 0 ∨ count > 256 then .error (parseError 2 0)
    else parseEntries pcap count count 4 [] (bytes.drop 4)

/-- PARSE (R182): accepted in every phase; clears every product first. -/
def execParse (s : State) : Result :=
  unlessFaulted s <|
    match parseContainer s.cfg.pcap s.ibuf with
    | .ok r =>
      .next { clearProducts s with nsym := BitVec.ofNat 9 r.count, code := r.code, pad := r.pad,
                                   pbuf := r.payload, phase := .parsed }
    | .error e => raise e s

end Sys2Proof.Machine
end

