-- ==== Sys2Proof/Machine/Packer.lean ====
section
/-! DEFINITION. The bit packer unit: PACK (spec 43_bit_packer.md). -/

namespace Sys2Proof.Machine

/-- `pad = (8 - (n mod 8)) mod 8` (43_bit_packer.md R150). -/
def padCount (n : Nat) : BitVec 3 := BitVec.ofNat 3 ((8 - n % 8) % 8)

/-- `Pack(b) = (bytes, pad)` (R150). -/
def packBits (b : BitString) : List Byte × BitVec 3 := (packBytes b, padCount b.length)

/-- PACK (R151): BadSequence only. -/
def execPack (s : State) : Result :=
  unlessFaulted s <| requirePhase 0x05 .encoded s <|
    .next { s with pbuf := (packBits s.bits).1, pad := (packBits s.bits).2, phase := .packed }

end Sys2Proof.Machine
end

