-- ==== Sys2Proof/Machine/Serializer.lean ====
section
/-! DEFINITION. The container serializer unit: SERIALIZE (spec 45_container_serializer.md, layout 30_encoding.md
R90 to R97). -/

namespace Sys2Proof.Machine

/-- One table entry: symbol, code bit-length, packed code zero-padded (30_encoding.md R92, R93). -/
def entryBytes (s : Byte) (c : BitString) : List Byte := s :: BitVec.ofNat 8 c.length :: packBytes c

/-- The symbols that have a code, in ascending order (45_container_serializer.md R172). -/
def codedSymbols (code : SymMap BitString) : List Byte := symbols.filter fun s => clenAt code s ≠ 0

/-- The size computed before any byte is written, a natural number (R172, R173). -/
def containerSize (code : SymMap BitString) (plen : Nat) : Nat :=
  4 + ((codedSymbols code).map fun s => 2 + ceil8 (clenAt code s)).sum + 1 + plen

/-- The bytes of the container: count, entries in ascending symbol order, padding count, payload (R172). -/
def containerBytes (nsym : Nat) (code : SymMap BitString) (pad : BitVec 3) (payload : List Byte) : List Byte :=
  memWrite 4 nsym ++ (codedSymbols code).flatMap (fun s => entryBytes s (codeAt code s)) ++
    [pad.setWidth 8] ++ payload

/-- SERIALIZE (R171): BadSequence, then BufferOverflow. -/
def execSerialize (s : State) : Result :=
  unlessFaulted s <| requirePhase 0x06 .packed s <|
    if containerSize s.code s.pbuf.length > s.cfg.ocap.toNat then raise (bufferOverflow 0x06) s
    else .next { s with obuf := containerBytes s.nsym.toNat s.code s.pad s.pbuf, phase := .serialized }

end Sys2Proof.Machine
end

