-- ==== Sys2Proof/Machine/Unpacker.lean ====
section
/-! DEFINITION. The bit unpacker unit: UNPACK (spec 44_bit_unpacker.md). -/

namespace Sys2Proof.Machine

/-- `Unpack(B, p)`: the first `8·|B| - p` bits, each byte most significant bit first (44_bit_unpacker.md R160). -/
def unpackBits (bytes : List Byte) (pad : BitVec 3) : BitString :=
  (List.range (8 * bytes.length - pad.toNat)).map (unpackBit bytes)

/-- UNPACK (R161): BadSequence only. The padding bits are trimmed, not checked (R162). Unpack "is not defined for
m = 0 with p > 0" (R160), which PHASE 8 excludes (R161): the model stops there (log 8). -/
def execUnpack (s : State) : Result :=
  unlessFaulted s <| requirePhase 0x09 .parsed s <|
    if s.pad.toNat ≤ 8 * s.pbuf.length then
      .next { s with bits := unpackBits s.pbuf s.pad, phase := .unpacked }
    else .fault .undefinedUnpack

end Sys2Proof.Machine
end

