-- ==== Sys2Proof/Machine/Pipeline.lean ====
section
/-! DEFINITION. The pipeline: ENCODE, DECODE, COMPRESS and DECOMPRESS (spec 47_pipeline.md). -/

namespace Sys2Proof.Machine

/-- The Encoded Bitstream: the concatenation of each input symbol's code, in input order (47_pipeline.md
R201, R202). -/
def encodeBytes (code : SymMap BitString) (bytes : List Byte) : BitString := bytes.flatMap (codeAt code)

/-- `total`, the sum of the code lengths, a natural number (R201). -/
def encodedLength (code : SymMap BitString) (bytes : List Byte) : Nat := (bytes.map (clenAt code)).sum

/-- ENCODE (R201): BadSequence, then BufferOverflow. -/
def execEncode (s : State) : Result :=
  unlessFaulted s <| requirePhase 0x04 .assigned s <|
    if encodedLength s.code s.ibuf > s.cfg.bcap.toNat then raise (bufferOverflow 0x04) s
    else .next { s with bits := encodeBytes s.code s.ibuf, phase := .encoded }

/-- The scan of DECODE (R205): `k` is the index of the next bit, `out` what is emitted so far, `cand` the
candidate and `start` where it began. -/
def decodeScan (ocap : Nat) (code : SymMap BitString) :
    BitString → Nat → List Byte → BitString → Nat → Except ErrorRecord (List Byte)
  | [], _, out, cand, start =>
    if cand.length ≠ 0 then .error (corruptContainer 0x0A 11 start) else .ok out
  | b :: bs, k, out, cand, start =>
    let start' := if cand.length = 0 then k else start
    match lookup code (cand ++ [b]) with
    | some s =>
      if out.length = ocap then .error (bufferOverflow 0x0A)
      else decodeScan ocap code bs (k + 1) (out ++ [s]) [] start'
    | none => decodeScan ocap code bs (k + 1) out (cand ++ [b]) start'

/-- DECODE (R205): BadSequence, then BufferOverflow met in the scan or LEFTOVER_BITS at its end (R208). -/
def execDecode (s : State) : Result :=
  unlessFaulted s <| requirePhase 0x0A .unpacked s <|
    match decodeScan s.cfg.ocap.toNat s.code s.bits 0 [] [] 0 with
    | .ok out => .next { s with obuf := out, phase := .decoded }
    | .error e => raise e s

/-- COMPRESS (R210): the six stages in order, stopping at the first error. A faulted block ignores COUNT and stops
there (60_exceptions.md R248). -/
def execCompress (s : State) : Result :=
  thenStage (execCount s) fun s₁ =>
  thenStage (execBuild s₁) fun s₂ =>
  thenStage (execAssign s₂) fun s₃ =>
  thenStage (execEncode s₃) fun s₄ =>
  thenStage (execPack s₄) fun s₅ =>
  execSerialize s₅

/-- DECOMPRESS (R212): the three stages in order, stopping at the first error. -/
def execDecompress (s : State) : Result :=
  thenStage (execParse s) fun s₁ =>
  thenStage (execUnpack s₁) fun s₂ =>
  execDecode s₂

end Sys2Proof.Machine
end

