-- ==== Sys2Proof/Machine/Port.lean ====
section
/-! DEFINITION. The host port: what each host input does (spec 20_memory.md R60 to R63, 48_control.md R220,
70_reset_and_hazards.md R270). -/

namespace Sys2Proof.Machine

/-- `IllegalCommand(w[7:0], 0, w)` (30_encoding.md R86, 60_exceptions.md R241). -/
def illegalCommand (w : Word) : ErrorRecord :=
  { code := .illegalCommand, stage := opcodeField w, sub := 0, pos := w }

/-- `WriteCMD(w)` (48_control.md R220): faulted first, then legality, then the command. -/
def writeCmd (w : Word) (s : State) : Result :=
  if s.err ≠ .none then
    if w = 0x0000000F then exec .sreset s else .next s
  else
    match decode w with
    | .error _ => raise (illegalCommand w) s
    | .ok i => exec i s

/-- A host write: only space 0 index 1 has an effect (20_memory.md R62). -/
def hostWrite (space : BitVec 4) (index wdata : Word) (s : State) : Result :=
  if space = 0 ∧ index = 1 then writeCmd wdata s else .next s

/-- One transaction, atomic (20_memory.md R60). A read changes nothing but the data it returns (R63); `rdata` is
meaningless on a write and the model holds none (log 3). -/
def transact (t : Transaction) (s : State) : Result :=
  if t.write then hostWrite t.space t.index t.wdata { s with rdata := none }
  else .next { s with rdata := some (hostRead s t.space t.index) }

/-- One host input. -/
def takeInput (i : HostInput) (s : State) : Result :=
  match i with
  | .transaction t => transact t s
  | .rst => .next (hardReset s)

/-- One step of the block: it takes the oldest host input, and waits when there is none (00_scope.md R16,
70_reset_and_hazards.md R270; log 2). -/
def portStep (s : State) : Result :=
  match s.port with
  | [] => .next s
  | i :: rest => takeInput i { s with port := rest }

/-- The host's write of a command word (20_memory.md R62). -/
def cmdWrite (w : Word) : HostInput :=
  .transaction { write := true, space := 0, index := 1, wdata := w }

/-- The host issues a command word so that the next step takes it (log 4). -/
def issueWord (w : Word) (s : State) : State := { s with port := cmdWrite w :: s.port }

end Sys2Proof.Machine
end

