-- ==== Sys2Proof/Machine/Step.lean ====
section
/-! DEFINITION. One step of the machine, and how a command word comes to be the next one it runs (log 4). -/

namespace Sys2Proof.Machine

/-- One step: the oldest pending host input (00_scope.md R16). -/
def step (s : State) : Host.Outcome State Fault Refusal := portStep s

/-- The state with the command word `w` (its low `nbits` bits, the rest 0) as the next host input. -/
def State.withFetchWord (s : State) (nbits w : Nat) : State := issueWord (BitVec.ofNat 32 (w % 2 ^ nbits)) s

end Sys2Proof.Machine
end

