-- ==== Sys2Proof/Safety.lean ====
section
/-! DEFINITION. What the spec promises of a state, in the words its rules use: prefix-free tables, trees built by the
greedy merge, the record of an error, and the invariants of 70_reset_and_hazards.md R277. -/

namespace Sys2Proof.Machine

/-- The bits of a symbol sequence: the concatenation of the codes, in order (47_pipeline.md R202). -/
def codesOf (code : SymMap BitString) (out : List Byte) : BitString := (out.map (codeAt code)).flatten

/-- No code is a prefix of another symbol's code (10_state.md R32; a code is a non-empty bit-string). -/
def PrefixFree (code : SymMap BitString) : Prop :=
  ∀ s t, s ≠ t → codeAt code s ≠ [] → codeAt code t ≠ [] → ¬ codeAt code s <+: codeAt code t

/-- The Code Table invariant of 10_state.md R32 for a table of n codes, in canonical form. -/
structure TableOk (code : SymMap BitString) (n : Nat) : Prop where
  canonical : SymMap.wf [] code = true
  size : (symbols.countP fun s => codeAt code s ≠ []) = n
  lengths : ∀ s, (codeAt code s).length ≤ 255
  prefixFree : PrefixFree code

/-- Node i of the arena has j as its parent (10_state.md R31). -/
def IsChild (nodes : List Node) (j i : Nat) : Prop :=
  ∃ left right weight, nodes[j]? = some (.internal left right weight) ∧ (left.toNat = i ∨ right.toNat = i)

/-- The weight of a record below NNODES, 0 beyond. -/
def weightAt (nodes : List Node) (i : Nat) : Word := (nodes[i]?.map nodeWeight).getD 0

/-- Pairs (weight, index) in the order of ExtractMin (41_tree_builder.md R123). -/
def Earlier (nodes : List Node) (i j : Nat) : Prop :=
  (weightAt nodes i).toNat < (weightAt nodes j).toNat ∨ (weightAt nodes i = weightAt nodes j ∧ i < j)

/-- LIVE when node k is made: the nodes made before it that no node made before it has as a child
(41_tree_builder.md R123). -/
def IsLive (nodes : List Node) (k i : Nat) : Prop := i < k ∧ ∀ j, j < k → ¬ IsChild nodes j i

/-- Node k is the merge R123 makes at its turn: the first minimum of LIVE is its left child, the second its right
child, and its weight is their sum. -/
def IsGreedyMerge (nodes : List Node) (k : Nat) : Prop :=
  ∃ left right weight, nodes[k]? = some (.internal left right weight) ∧
    IsLive nodes k left.toNat ∧ IsLive nodes k right.toNat ∧ Earlier nodes left.toNat right.toNat ∧
    (∀ i, IsLive nodes k i → i ≠ left.toNat → Earlier nodes left.toNat i) ∧
    (∀ i, IsLive nodes k i → i ≠ left.toNat → i ≠ right.toNat → Earlier nodes right.toNat i) ∧
    weight = weightAt nodes left.toNat + weightAt nodes right.toNat

/-- The leaves a Frequency Map asks for: one for each symbol whose counter is not 0, ascending, with that counter
as weight (41_tree_builder.md R123, R124 (b)). -/
def expectedLeaves (freq : SymMap Word) : List Node :=
  (symbols.filter fun s => freqAt freq s ≠ 0).map fun s => .leaf s (freqAt freq s)

/-- What 41_tree_builder.md R123 and R124 (a) to (e) say of a tree built from a Frequency Map of n symbols. -/
structure TreeOk (freq : SymMap Word) (n : Nat) (nodes : List Node) (root : Nat) : Prop where
  positive : 1 ≤ n
  leaves : nodes.take n = expectedLeaves freq
  size : nodes.length = 2 * n - 1
  rootLast : root = nodes.length - 1
  merges : ∀ k, n ≤ k → k < nodes.length → IsGreedyMerge nodes k
  oneParent : ∀ i, i < nodes.length → i ≠ root → ∃! j, IsChild nodes j i

/-- The index a path from node i leads to, false to the left and true to the right (42_code_assigner.md R135, R137). -/
def walk (nodes : List Node) : Nat → BitString → Option Nat
  | i, [] => some i
  | i, b :: path =>
    match nodes[i]? with
    | some (.internal left right _) => walk nodes (if b then right.toNat else left.toNat) path
    | _ => none

/-- A path from node i leads to a leaf of symbol s. -/
def LeadsTo (nodes : List Node) (i : Nat) (path : BitString) (s : Byte) : Prop :=
  ∃ j weight, walk nodes i path = some j ∧ nodes[j]? = some (.leaf s weight)

/-- c is the code R137 and R138 give to s: its root-to-leaf path, or "0" when the root is its leaf. -/
def IsTreeCode (nodes : List Node) (root : Nat) (s : Byte) (c : BitString) : Prop :=
  (LeadsTo nodes root [] s ∧ c = [false]) ∨ (c ≠ [] ∧ LeadsTo nodes root c s)

/-- One entry of a container as bytes lie in it: symbol, length, and the bytes of the packed code, whose unused low
bits are whatever they are (30_encoding.md R92, 46_container_deserializer.md R186). -/
structure RawEntry where
  sym : Byte
  len : Byte
  bytes : List Byte
  deriving DecidableEq, Repr

/-- The code an entry carries: the first `len` bits of its code bytes (R186). -/
def RawEntry.code (e : RawEntry) : BitString := codeOf e.bytes e.len.toNat

/-- The entry's bytes, in order (R92). -/
def RawEntry.layout (e : RawEntry) : List Byte := e.sym :: e.len :: e.bytes

/-- The entries of a table PARSE can use, in any order: lengths 1 to 255 with all their code bytes, symbols
distinct, codes prefix-free (R185, R187 to R189). -/
def EntriesOk (entries : List RawEntry) : Prop :=
  (∀ e ∈ entries, e.len ≠ 0 ∧ e.bytes.length = ceil8 e.len.toNat) ∧
  entries.Pairwise fun e f => e.sym ≠ f.sym ∧ ¬ e.code <+: f.code ∧ ¬ f.code <+: e.code

/-- The bytes of a container with these entries, padding count and payload (30_encoding.md R90). -/
def rawContainer (count : Nat) (entries : List RawEntry) (rest : List Byte) : List Byte :=
  memWrite 4 count ++ entries.flatMap RawEntry.layout ++ rest

/-- The code the entries give to a symbol, the empty bit-string when none names it. -/
def entryCode (entries : List RawEntry) (s : Byte) : BitString :=
  ((entries.find? fun e => e.sym == s).map RawEntry.code).getD []

/-- The rows of 60_exceptions.md R241 with R243 to R245: which records an error leaves. -/
def IsErrorRecord (s : State) : Prop :=
  (s.err = .invalidInput ∧ s.stage = 0x02 ∧ s.sub = 0 ∧ s.errpos = 0) ∨
  (s.err = .codeTooLong ∧ s.stage = 0x03 ∧ s.sub = 0 ∧ s.errpos = 0) ∨
  (s.err = .corruptContainer ∧ s.stage = 0x08 ∧ 1 ≤ s.sub.toNat ∧ s.sub.toNat ≤ 10 ∧
    (s.sub.toNat ≤ 2 → s.errpos = 0)) ∨
  (s.err = .corruptContainer ∧ s.stage = 0x0A ∧ s.sub = 11) ∨
  (s.err = .bufferOverflow ∧ s.stage ∈ [0x0D, 0x04, 0x06, 0x08, 0x0A] ∧ s.sub = 0 ∧ s.errpos = 0) ∨
  (s.err = .badSequence ∧ s.stage ∈ [0x02, 0x03, 0x04, 0x05, 0x06, 0x09, 0x0A] ∧ s.sub.toNat ≤ 10 ∧ s.errpos = 0) ∨
  (s.err = .illegalCommand ∧ s.stage = s.errpos.setWidth 8 ∧ s.sub = 0)

/-- The PHASE a command needs (30_encoding.md R83, column "needs PHASE"); none when any phase but 15 will do. -/
def neededPhase : Instr → Option Phase
  | .build => some .counted
  | .assign => some .built
  | .encode => some .assigned
  | .pack => some .encoded
  | .serialize => some .packed
  | .unpack => some .parsed
  | .decode => some .unpacked
  | .nop | .count | .compress | .parse | .decompress | .iclr | .push _ | .sreset => none

/-- The PHASE a command leaves when it succeeds (30_encoding.md R83, column "leaves PHASE"). -/
def leftPhase (i : Instr) (found : Phase) : Phase :=
  match i with
  | .nop => found
  | .count => .counted
  | .build => .built
  | .assign => .assigned
  | .encode => .encoded
  | .pack => .packed
  | .serialize | .compress => .serialized
  | .parse => .parsed
  | .unpack => .unpacked
  | .decode | .decompress => .decoded
  | .iclr | .push _ | .sreset => .load

/-- The commands that may fail by a check of their own, "F" in the table of 70_reset_and_hazards.md R276. -/
def mayFail : Instr → Bool
  | .build | .assign | .encode | .serialize | .compress | .parse | .decode | .decompress | .push _ => true
  | .nop | .count | .pack | .unpack | .iclr | .sreset => false

/-- Every symbol of the sequence has a code. -/
def Coded (code : SymMap BitString) (out : List Byte) : Prop := ∀ b ∈ out, codeAt code b ≠ []

/-- The block's own state is the same in both: they differ at most in the model's host-port fields (logs 2, 3). -/
def SameBlock (s t : State) : Prop := t = { s with port := t.port, rdata := t.rdata }

/-- The words that are none of the fifteen commands, as 30_encoding.md R86 lists them. -/
def IsIllegalWord (w : Word) : Prop :=
  w.toNat % 256 = 0x0E ∨ 0x10 ≤ w.toNat % 256 ∨ (w.toNat % 256 ≠ 0x0D ∧ w.toNat / 256 ≠ 0) ∨
    (w.toNat % 256 = 0x0D ∧ w.toNat / 65536 ≠ 0)

/-- The offset in a container of the entry that follows these entries (46_container_deserializer.md R192). -/
def entriesEnd (entries : List RawEntry) : Nat := 4 + (entries.map fun e => 2 + ceil8 e.len.toNat).sum

/-- The offset in SERIALIZE's container of the entry that follows those of these symbols (R194's `e_i`). -/
def codesEnd (code : SymMap BitString) (syms : List Byte) : Nat :=
  4 + (syms.map fun b => 2 + ceil8 (clenAt code b)).sum

/-- The script `LOAD bytes`: ICLR, then PUSH of each byte (30_encoding.md R88). -/
def loadScript (bytes : List Byte) : List HostInput :=
  cmdWrite 0x0C :: bytes.map fun b => cmdWrite (encode (.push b))

/-- Every product register is 0 and all FREQ and CLEN are 0. -/
def ProductsCleared (s : State) : Prop :=
  (∀ b, freqAt s.freq b = 0) ∧ (∀ b, codeAt s.code b = []) ∧ s.nsym = 0 ∧ s.nodes = [] ∧ s.root = 0 ∧
    s.bits = [] ∧ s.pbuf = [] ∧ s.pad = 0 ∧ s.obuf = []

/-- The invariants of 70_reset_and_hazards.md R277, clause by clause, with the configuration constraints of
00_scope.md R8 and the canonical form of the symbol-indexed memories (log 6). -/
structure Inv (s : State) : Prop where
  config : s.cfg.wellFormed = true
  canonical : Memory.wf s = true
  /-- (a) -/
  faulted : s.phase = .faulted ↔ s.err ≠ .none
  /-- (b) -/
  noRecord : s.err = .none → s.stage = 0 ∧ s.sub = 0 ∧ s.errpos = 0
  /-- (c) -/
  capacities : s.ibuf.length ≤ s.cfg.icap.toNat ∧ s.obuf.length ≤ s.cfg.ocap.toNat ∧
    s.bits.length ≤ s.cfg.bcap.toNat ∧ s.pbuf.length ≤ s.cfg.pcap ∧ s.nsym.toNat ≤ 256 ∧ s.nodes.length ≤ 511
  /-- (d) -/
  cleared : s.phase ∈ [.load, .faulted] → ProductsCleared s
  /-- (e) -/
  counts : s.phase ∈ [.counted, .built, .assigned, .encoded, .packed, .serialized] →
    (∀ b, (freqAt s.freq b).toNat = s.ibuf.count b) ∧ s.nsym.toNat = symbols.countP fun b => freqAt s.freq b ≠ 0
  /-- (f) -/
  tree : s.phase ∈ [.built, .assigned, .encoded, .packed, .serialized] →
    TreeOk s.freq s.nsym.toNat s.nodes s.root.toNat ∧
      (weightAt s.nodes s.root.toNat).toNat = s.ibuf.length
  /-- (g) -/
  table : s.phase ∈ [.assigned, .encoded, .packed, .serialized, .parsed, .unpacked, .decoded] →
    TableOk s.code s.nsym.toNat
  /-- ASSIGN's table is total over the symbols counted (42_code_assigner.md R139 (a)) -/
  tableTotal : s.phase ∈ [.assigned, .encoded, .packed, .serialized] →
    ∀ b, codeAt s.code b ≠ [] ↔ freqAt s.freq b ≠ 0
  /-- (h) -/
  encoded : s.phase ∈ [.encoded, .packed, .serialized] → s.bits = codesOf s.code s.ibuf ∧ 1 ≤ s.bits.length
  /-- (i) -/
  packed : s.phase ∈ [.packed, .serialized] → (s.pbuf, s.pad) = packBits s.bits
  /-- (j) -/
  serialized : s.phase = .serialized → s.obuf = containerBytes s.nsym.toNat s.code s.pad s.pbuf
  /-- (k) -/
  parsed : s.phase ∈ [.parsed, .unpacked, .decoded] →
    (∀ b, freqAt s.freq b = 0) ∧ s.nodes = [] ∧ s.root = 0 ∧ 1 ≤ s.pbuf.length ∧
      parseContainer s.cfg.pcap s.ibuf =
        .ok { count := s.nsym.toNat, code := s.code, pad := s.pad, payload := s.pbuf }
  /-- (l) -/
  unpacked : s.phase ∈ [.unpacked, .decoded] → s.bits = unpackBits s.pbuf s.pad ∧
    s.bits.length = 8 * s.pbuf.length - s.pad.toNat ∧ 1 ≤ s.bits.length
  /-- (m) -/
  decoded : s.phase = .decoded →
    1 ≤ s.obuf.length ∧ s.obuf.length ≤ s.bits.length ∧ codesOf s.code s.obuf = s.bits
  /-- (n) -/
  notYet : (s.phase ∈ [.counted, .built, .assigned, .encoded, .packed, .parsed, .unpacked] → s.obuf = []) ∧
    (s.phase ∈ [.counted, .built, .assigned, .parsed] → s.bits = []) ∧
    (s.phase ∈ [.counted, .built, .assigned, .encoded] → s.pbuf = [] ∧ s.pad = 0) ∧
    (s.phase = .counted → s.nodes = [] ∧ s.root = 0) ∧
    (s.phase ∈ [.counted, .built] → ∀ b, codeAt s.code b = [])

end Sys2Proof.Machine
end

