-- ==== Sys2Proof/Certificates/Slice0/Obligations.lean ====
section
/-! DEFINITION. The statements for the provers. A right-hand side of the form `next` of an updated record is at once the
result, the completion and the frame of a command: every field that is not named keeps its value, and with it every
register and every element of every memory. -/

open Sys2Proof Sys2Proof.Machine

/-! Words -/

/-- Fifteen words written out from the encodings of 30_encoding.md R81, R82, R83 decode to their commands. -/
def Obligations.WrittenOutWordsDecode : Prop :=
  decode 0x00000000 = .ok .nop ∧ decode 0x00000001 = .ok .count ∧ decode 0x00000002 = .ok .build ∧
  decode 0x00000003 = .ok .assign ∧ decode 0x00000004 = .ok .encode ∧ decode 0x00000005 = .ok .pack ∧
  decode 0x00000006 = .ok .serialize ∧ decode 0x00000007 = .ok .compress ∧ decode 0x00000008 = .ok .parse ∧
  decode 0x00000009 = .ok .unpack ∧ decode 0x0000000A = .ok .decode ∧ decode 0x0000000B = .ok .decompress ∧
  decode 0x0000000C = .ok .iclr ∧ decode 0x0000610D = .ok (.push 0x61) ∧ decode 0x0000000F = .ok .sreset

/-- Decoding and encoding are inverse: each command has one word and each legal word one command. -/
def Obligations.DecodeAndEncodeAgree : Prop :=
  ∀ (w : Word) (i : Instr), decode w = .ok i ↔ encode i = w

/-- The listing of 30_encoding.md R85 on the word as a number: opcode `w mod 256`, `w[31:8] = w div 256`,
`w[31:16] = w div 65536`; total. -/
def Obligations.DecodeFollowsItsListing : Prop :=
  ∀ w : Word,
    (w.toNat % 256 = 0x0D → w.toNat / 65536 ≠ 0 → ∃ e, decode w = .error e) ∧
    (w.toNat % 256 = 0x0D → w.toNat / 65536 = 0 → decode w = .ok (.push (BitVec.ofNat 8 (w.toNat / 256)))) ∧
    (w.toNat % 256 ≠ 0x0D → w.toNat / 256 ≠ 0 → ∃ e, decode w = .error e) ∧
    (w.toNat / 256 = 0 →
      ∀ row ∈ [(0x00, Instr.nop), (0x01, .count), (0x02, .build), (0x03, .assign), (0x04, .encode), (0x05, .pack),
          (0x06, .serialize), (0x07, .compress), (0x08, .parse), (0x09, .unpack), (0x0A, .decode),
          (0x0B, .decompress), (0x0C, .iclr), (0x0F, .sreset)],
        w.toNat % 256 = row.1 → decode w = .ok row.2) ∧
    (w.toNat / 256 = 0 → w.toNat % 256 = 0x0E ∨ 0x10 ≤ w.toNat % 256 → ∃ e, decode w = .error e)

/-! The host port -/

/-- When the oldest host input writes a word to CMD that decodes to a command, the step is that command's meaning on
the rest of the input; `rdata` is none after a write (logs 2, 3). -/
def Obligations.StepRunsTheDecodedCommand : Prop :=
  ∀ (s : State) (w : Word) (i : Instr) (rest : List HostInput), s.port = cmdWrite w :: rest → decode w = .ok i →
    step s = exec i { s with port := rest, rdata := none }

/-- A step takes exactly the oldest host input; with none the block waits, unchanged (logs 2, 10). No step writes the
capacities. -/
def Obligations.StepTakesTheOldestInput : Prop :=
  (∀ s : State, s.port = [] → step s = .next s) ∧
  (∀ (s : State) (t : Transaction) (rest : List HostInput), s.port = .transaction t :: rest →
    step s = transact t { s with port := rest }) ∧
  (∀ (s : State) (rest : List HostInput), s.port = .rst :: rest →
    step s = .next { State.resetWith s.cfg with port := rest }) ∧
  (∀ s t : State, step s = .next t → t.port = s.port.tail ∧ t.cfg = s.cfg)

/-- 20_memory.md R62: a write to space 0 index 1 executes its data as a command; every other write changes nothing. -/
def Obligations.OnlyCmdWritesHaveAnEffect : Prop :=
  ∀ (s : State) (space : BitVec 4) (index wdata : Word),
    (¬ (space = 0 ∧ index = 1) →
      ∃ t, transact { write := true, space := space, index := index, wdata := wdata } s = .next t ∧ SameBlock s t) ∧
    (space = 0 → index = 1 → ∀ i, decode wdata = .ok i →
      ∃ r, transact { write := true, space := space, index := index, wdata := wdata } s =
        exec i { s with rdata := r })

/-- 20_memory.md R63 with the registers of 10_state.md R24: what a read of each space answers, and that it changes
nothing but the answer. -/
def Obligations.HostReadsAreGated : Prop :=
  ∀ (s : State) (space : BitVec 4) (index wdata : Word), ∃ v : Word,
    transact { write := false, space := space, index := index, wdata := wdata } s = .next { s with rdata := some v } ∧
    (space = 0 → v = ([0x48464301#32, 0, BitVec.ofNat 32 (16 * s.phase.toBits.toNat + s.err.toBits.toNat),
        BitVec.ofNat 32 (256 * s.sub.toNat + s.stage.toNat), s.errpos, BitVec.ofNat 32 s.ibuf.length,
        s.nsym.setWidth 32, BitVec.ofNat 32 s.nodes.length, s.root.setWidth 32, BitVec.ofNat 32 s.bits.length,
        BitVec.ofNat 32 s.pbuf.length, s.pad.setWidth 32, BitVec.ofNat 32 s.obuf.length,
        s.cfg.icap, s.cfg.ocap, s.cfg.bcap][index.toNat]?).getD 0) ∧
    (space = 1 → v = (s.ibuf[index.toNat]?.map fun b => b.setWidth 32).getD 0) ∧
    (space = 2 → v = (s.obuf[index.toNat]?.map fun b => b.setWidth 32).getD 0) ∧
    (space = 3 → v = if index.toNat ≤ 255 then freqAt s.freq (index.setWidth 8) else 0) ∧
    (space = 4 → v = (s.nodes[index.toNat]?.map nodeWeight).getD 0) ∧
    (space = 5 → v = (s.nodes[index.toNat]?.map nodeLink).getD 0) ∧
    (space = 6 → v = if index.toNat ≤ 255 then (BitVec.ofNat 8 (clenAt s.code (index.setWidth 8))).setWidth 32 else 0) ∧
    (space = 7 → v =
      if index.toNat ≤ 8191 ∧ index.toNat % 32 < ceil8 (clenAt s.code (BitVec.ofNat 8 (index.toNat / 32))) then
        (packByte (codeAt s.code (BitVec.ofNat 8 (index.toNat / 32))) (index.toNat % 32)).setWidth 32 else 0) ∧
    (space = 8 → v = if s.bits[index.toNat]? = some true then 1 else 0) ∧
    (space = 9 → v = (s.pbuf[index.toNat]?.map fun b => b.setWidth 32).getD 0) ∧
    (10 ≤ space.toNat → v = 0)

/-- 20_memory.md R64: the two words of a tree node, and its two examples. -/
def Obligations.NodeWordsLayout : Prop :=
  (∀ (sym : Byte) (w : Word), nodeWeight (.leaf sym w) = w ∧
    (nodeLink (.leaf sym w)).toNat = 2 ^ 31 + sym.toNat * 2 ^ 18) ∧
  (∀ (left right : BitVec 9) (w : Word), nodeWeight (.internal left right w) = w ∧
    (nodeLink (.internal left right w)).toNat = left.toNat + right.toNat * 2 ^ 9) ∧
  nodeLink (.leaf 0x61 3) = 0x81840000 ∧ nodeLink (.internal 2 1 3) = 0x00000202

/-- 10_state.md R41: what the host reads after the reset signal and after SRESET, in every space and at every index. -/
def Obligations.ResetStateReads : Prop :=
  ∀ s t : State, exec .sreset s = .next t ∨ takeInput .rst s = .next t →
    (List.range 16).map (fun n => hostRead t 0 (BitVec.ofNat 32 n)) =
      [0x48464301, 0, 0, 0, 0, 0, 0, 0, 0, 0, 0, 0, 0, s.cfg.icap, s.cfg.ocap, s.cfg.bcap] ∧
    (∀ b, freqAt t.freq b = 0 ∧ clenAt t.code b = 0) ∧
    ∀ (space : BitVec 4) (index : Word), space ≠ 0 → hostRead t space index = 0

/-- 10_state.md R40: what ClearProducts() zeroes and what it does not touch. -/
def Obligations.ClearProductsZeroesTheProducts : Prop :=
  ∀ s : State, (∀ b, freqAt (clearProducts s).freq b = 0 ∧ clenAt (clearProducts s).code b = 0) ∧
    (clearProducts s).nsym = 0 ∧ (clearProducts s).nodes.length = 0 ∧ (clearProducts s).root = 0 ∧
    (clearProducts s).bits.length = 0 ∧ (clearProducts s).pbuf.length = 0 ∧ (clearProducts s).pad = 0 ∧
    (clearProducts s).obuf.length = 0 ∧
    (clearProducts s).ibuf = s.ibuf ∧ (clearProducts s).err = s.err ∧
    errinfoWord (clearProducts s) = errinfoWord s ∧ (clearProducts s).errpos = s.errpos ∧
    (clearProducts s).phase = s.phase

/-! Errors -/

/-- 30_encoding.md R86: exactly the listed words decode to no command; writing one records IllegalCommand, or is
ignored while the block is faulted. -/
def Obligations.IllegalWordsRaiseIllegalCommand : Prop :=
  (∀ w : Word, IsIllegalWord w ↔ ∃ e, decode w = .error e) ∧
  ∀ (s : State) (w : Word), IsIllegalWord w →
    ∃ t, transact { write := true, space := 0, index := 1, wdata := w } s = .next t ∧
      (s.err = .none → SameBlock (fail ⟨.illegalCommand, w.setWidth 8, 0, w⟩ s) t) ∧
      (s.err ≠ .none → SameBlock s t)

/-- 60_exceptions.md R246: what Fail() writes and keeps; and errors are precise: a command that ends in an error has no
effect other than Fail(). -/
def Obligations.ErrorsArePrecise : Prop :=
  (∀ (e : ErrorRecord) (s : State), (fail e s).err = e.code ∧
    (errinfoWord (fail e s)).toNat = 256 * e.sub.toNat + e.stage.toNat ∧ (fail e s).errpos = e.pos ∧
    (fail e s).phase = .faulted ∧ ProductsCleared (fail e s) ∧ (fail e s).ibuf = s.ibuf ∧ (fail e s).cfg = s.cfg) ∧
  ∀ (i : Instr) (s t : State), s.err = .none → exec i s = .next t → t.err ≠ .none → ∃ e, t = fail e s

/-- 60_exceptions.md R247: after any error every product reads as zero: the product registers NSYM, NNODES, ROOT, BLEN,
PLEN, PAD and OLEN (space 0, indices 6 to 12) and every element of spaces 2 to 15. -/
def Obligations.FailedCommandShowsNoProduct : Prop :=
  (∀ (i : Instr) (s t : State), s.err = .none → exec i s = .next t → t.err ≠ .none →
    (∀ index : Word, 6 ≤ index.toNat → index.toNat ≤ 12 → hostRead t 0 index = 0) ∧
    ∀ (space : BitVec 4) (index : Word), 2 ≤ space.toNat → hostRead t space index = 0) ∧
  ∀ (w : Word) (s t : State), s.err = .none → IsIllegalWord w →
    transact { write := true, space := 0, index := 1, wdata := w } s = .next t →
    (∀ index : Word, 6 ≤ index.toNat → index.toNat ≤ 12 → hostRead t 0 index = 0) ∧
    ∀ (space : BitVec 4) (index : Word), 2 ≤ space.toNat → hostRead t space index = 0

/-- 60_exceptions.md R248: a faulted block ignores every word but 0x0000000F; reads answer as ever: STATUS and the error
registers, ILEN and IBUF, and zero for every product register and every element of the other spaces; only SRESET and the
reset signal end the faulted state. The premises of the read clause are R277 (a) and (d). -/
def Obligations.FaultedBlockHearsOnlySreset : Prop :=
  (∀ (s : State) (w : Word), s.err ≠ .none → w ≠ 0x0000000F →
    ∃ t, transact { write := true, space := 0, index := 1, wdata := w } s = .next t ∧ SameBlock s t) ∧
  (∀ (s : State) (i : Instr), s.err ≠ .none → i ≠ .sreset → exec i s = .next s) ∧
  (∀ (s : State) (space : BitVec 4) (index wdata : Word), s.err ≠ .none → s.phase = .faulted →
    ProductsCleared s → ∃ v, transact { write := false, space := space, index := index, wdata := wdata } s =
        .next { s with rdata := some v } ∧
      (space = 0 → index = 2 → v = BitVec.ofNat 32 (0xF0 + s.err.toBits.toNat)) ∧
      (space = 0 → index = 3 → v = errinfoWord s) ∧ (space = 0 → index = 4 → v = s.errpos) ∧
      (space = 0 → index = 5 → v = BitVec.ofNat 32 s.ibuf.length) ∧
      (space = 0 → 6 ≤ index.toNat → index.toNat ≤ 12 → v = 0) ∧
      (space = 1 → v = (s.ibuf[index.toNat]?.map fun b => b.setWidth 32).getD 0) ∧ (2 ≤ space.toNat → v = 0)) ∧
  ∀ (s t : State) (input : HostInput), s.err ≠ .none → takeInput input s = .next t → t.err = .none →
    input = .rst ∨ input = cmdWrite 0x0000000F

/-- A unit command outside the PHASE it needs raises BadSequence with its opcode as STAGE and the PHASE found as SUB
(00_scope.md R14, 60_exceptions.md R241, R244); no other command raises it. -/
def Obligations.WrongPhaseRaisesBadSequence : Prop :=
  (∀ (i : Instr) (p : Phase) (s : State), neededPhase i = some p → s.err = .none → s.phase ≠ p →
    exec i s = .next (fail ⟨.badSequence, opcodeByte i, s.phase.toBits.setWidth 8, 0⟩ s)) ∧
  ∀ (i : Instr) (s t : State), s.err = .none → exec i s = .next t → t.err = .badSequence →
    ∃ p, neededPhase i = some p ∧ s.phase ≠ p

/-- 60_exceptions.md R241: the records a step can leave on a block that had no error. -/
def Obligations.ErrorRecordsFollowTheTable : Prop :=
  ∀ s t : State, s.err = .none → s.phase ≠ .faulted → step s = .next t → t.err ≠ .none → IsErrorRecord t

/-- 42_code_assigner.md R141: no step from a state that meets the invariants raises CodeTooLong. -/
def Obligations.CodeTooLongIsNeverRaised : Prop :=
  ∀ s t : State, Inv s → step s = .next t → s.err ≠ .codeTooLong → t.err ≠ .codeTooLong

/-! The control commands -/

/-- 48_control.md R221. -/
def Obligations.NopChangesNothing : Prop := encode .nop = 0x00000000 ∧ ∀ s : State, exec .nop s = .next s

/-- 48_control.md R222. -/
def Obligations.PushAppendsOrOverflows : Prop :=
  ∀ (b : Byte) (s : State), encode (.push b) = (b.setWidth 32 <<< 8) ||| 0x0D ∧
    (s.err = .none → s.ibuf.length = s.cfg.icap.toNat →
      exec (.push b) s = .next (fail ⟨.bufferOverflow, 0x0D, 0, 0⟩ s)) ∧
    (s.err = .none → s.ibuf.length ≠ s.cfg.icap.toNat →
      exec (.push b) s = .next { clearProducts s with ibuf := s.ibuf ++ [b], phase := .load })

/-- 48_control.md R223; where ERR is 0 the error record is 0 (70_reset_and_hazards.md R277 (b)), and the block's state
is then the reset state. -/
def Obligations.IclrEmptiesTheInput : Prop :=
  encode .iclr = 0x0000000C ∧
  ∀ s : State, s.err = .none →
    exec .iclr s = .next { clearProducts s with ibuf := [], phase := .load } ∧
    (s.stage = 0 → s.sub = 0 → s.errpos = 0 → ∃ t, exec .iclr s = .next t ∧ SameBlock (State.resetWith s.cfg) t)

/-- 48_control.md R224: SRESET, accepted in every state. -/
def Obligations.SresetLeavesTheResetState : Prop :=
  encode .sreset = 0x0000000F ∧
  ∀ s : State,
    exec .sreset s = .next { clearProducts s with ibuf := [], err := .none, stage := 0, sub := 0, errpos := 0,
                                                  phase := .load } ∧
    ∃ t, exec .sreset s = .next t ∧ SameBlock (State.resetWith s.cfg) t

/-! The compress direction -/

/-- 40_frequency_counter.md R111, for an input inside the capacity (R277 (c)). -/
def Obligations.CountCountsEverySymbol : Prop :=
  encode .count = 0x00000001 ∧
  ∀ s : State, s.err = .none → s.ibuf.length ≤ s.cfg.icap.toNat →
    ∃ freq nsym, exec .count s = .next { clearProducts s with freq := freq, nsym := nsym, phase := .counted } ∧
      (∀ b, (freqAt freq b).toNat = s.ibuf.count b) ∧
      nsym.toNat = (symbols.countP fun b => s.ibuf.count b ≠ 0) ∧
      (symbols.map fun b => (freqAt freq b).toNat).sum = s.ibuf.length ∧
      nsym.toNat ≤ min s.ibuf.length 256 ∧ (nsym = 0 ↔ s.ibuf.length = 0)

/-- 41_tree_builder.md R122: BUILD on an empty map; NSYM is 0 exactly when every counter is 0, exactly when ILEN was 0
at COUNT. -/
def Obligations.BuildRejectsTheEmptyMap : Prop :=
  (∀ s : State, s.err = .none → s.phase = .counted → s.nsym = 0 →
    exec .build s = .next (fail ⟨.invalidInput, 0x02, 0, 0⟩ s)) ∧
  ∀ s t : State, s.err = .none → s.ibuf.length ≤ s.cfg.icap.toNat → exec .count s = .next t →
    (t.nsym = 0 ↔ ∀ b, freqAt t.freq b = 0) ∧ (t.nsym = 0 ↔ s.ibuf.length = 0)

/-- 41_tree_builder.md R121, R123, R124 (a) to (e), R127: BUILD makes the tree of the greedy merge; weights are sums
without wrapping; children stand before their parent. -/
def Obligations.BuildMakesTheGreedyTree : Prop :=
  ∀ s : State, Inv s → s.phase = .counted → s.nsym ≠ 0 →
    ∃ nodes root, exec .build s = .next { s with nodes := nodes, root := root, phase := .built } ∧
      TreeOk s.freq s.nsym.toNat nodes root.toNat ∧ nodes.length = 2 * s.nsym.toNat - 1 ∧
      (weightAt nodes root.toNat).toNat = s.ibuf.length ∧
      ∀ (k : Nat) (left right : BitVec 9) (w : Word), nodes[k]? = some (.internal left right w) → left.toNat < k ∧ right.toNat < k ∧
        w.toNat = (weightAt nodes left.toNat).toNat + (weightAt nodes right.toNat).toNat

/-- 41_tree_builder.md R125: the Frequency Map determines the tree, node by node: whatever arena and root are the greedy
merge of the counters, BUILD answers exactly those. -/
def Obligations.GreedyTreeIsUnique : Prop :=
  ∀ s : State, Inv s → s.phase = .counted → s.nsym ≠ 0 →
    ∀ (nodes : List Node) (root : Nat), TreeOk s.freq s.nsym.toNat nodes root →
      ∃ r : BitVec 9, r.toNat = root ∧
        exec .build s = .next { s with nodes := nodes, root := r, phase := .built }

/-- 42_code_assigner.md R136, R137, R139 (a) to (c): ASSIGN gives each counted symbol the path to its leaf, and no other
symbol a code; the table is prefix-free. -/
def Obligations.AssignGivesEachLeafItsPath : Prop :=
  ∀ s : State, Inv s → s.phase = .built →
    ∃ code, exec .assign s = .next { s with code := code, phase := .assigned } ∧
      TableOk code s.nsym.toNat ∧
      (∀ b c, (codeAt code b = c ∧ c ≠ []) ↔ IsTreeCode s.nodes s.root.toNat b c) ∧
      ∀ b, codeAt code b ≠ [] ↔ freqAt s.freq b ≠ 0

/-- 42_code_assigner.md R138: a root that is a leaf gives its symbol the code "0". -/
def Obligations.LoneLeafGetsCodeZero : Prop :=
  ∀ (s : State) (b : Byte) (w : Word), s.err = .none → s.phase = .built → SymMap.wf [] s.code = true →
    s.nodes[s.root.toNat]? = some (.leaf b w) →
    ∃ code, exec .assign s = .next { s with code := code, phase := .assigned } ∧
      codeAt code b = [false] ∧ clenAt code b = 1 ∧ packByte (codeAt code b) 0 = 0x00 ∧
      ∀ a, a ≠ b → codeAt code a = codeAt s.code a

/-- 47_pipeline.md R201. -/
def Obligations.EncodeConcatenatesTheCodes : Prop :=
  encode .encode = 0x00000004 ∧
  ∀ s : State, s.err = .none →
    (s.phase ≠ .assigned → exec .encode s = .next (fail ⟨.badSequence, 0x04, s.phase.toBits.setWidth 8, 0⟩ s)) ∧
    (s.phase = .assigned → s.cfg.bcap.toNat < (s.ibuf.map (clenAt s.code)).sum →
      exec .encode s = .next (fail ⟨.bufferOverflow, 0x04, 0, 0⟩ s)) ∧
    (s.phase = .assigned → (s.ibuf.map (clenAt s.code)).sum ≤ s.cfg.bcap.toNat →
      ∃ bits, exec .encode s = .next { s with bits := bits, phase := .encoded } ∧
        bits = codesOf s.code s.ibuf ∧ bits.length = (s.ibuf.map (clenAt s.code)).sum)

/-- 47_pipeline.md R202: after ENCODE, BITBUF is the concatenation of the codes, BLEN the weighted sum, and every symbol
of IBUF has a code. -/
def Obligations.EncodedLengthIsTheWeightedSum : Prop :=
  (∀ s t : State, Inv s → s.phase = .assigned → exec .encode s = .next t → t.err = .none →
    t.bits = codesOf s.code s.ibuf ∧
    t.bits.length = (symbols.map fun b => (freqAt s.freq b).toNat * clenAt s.code b).sum) ∧
  ∀ s : State, Inv s → s.phase = .assigned → ∀ b ∈ s.ibuf, 1 ≤ clenAt s.code b

/-- 43_bit_packer.md R151 with the function of R150: the bytes, bit by bit, and the padding count. -/
def Obligations.PackPacksMsbFirst : Prop :=
  encode .pack = 0x00000005 ∧
  ∀ s : State, s.err = .none →
    (s.phase ≠ .encoded → exec .pack s = .next (fail ⟨.badSequence, 0x05, s.phase.toBits.setWidth 8, 0⟩ s)) ∧
    (s.phase = .encoded → ∃ pbuf pad, exec .pack s = .next { s with pbuf := pbuf, pad := pad, phase := .packed } ∧
      pbuf.length = (s.bits.length + 7) / 8 ∧ pad.toNat = (8 - s.bits.length % 8) % 8 ∧
      8 * pbuf.length = s.bits.length + pad.toNat ∧
      ∀ j k byte, pbuf[j]? = some byte → k < 8 → byte.getLsbD (7 - k) = s.bits[8 * j + k]?.getD false)

/-- 45_container_serializer.md R171, R172, R173. -/
def Obligations.SerializeWritesTheContainer : Prop :=
  encode .serialize = 0x00000006 ∧
  ∀ s : State, s.err = .none →
    (s.phase ≠ .packed → exec .serialize s = .next (fail ⟨.badSequence, 0x06, s.phase.toBits.setWidth 8, 0⟩ s)) ∧
    (s.phase = .packed → s.cfg.ocap.toNat < codesEnd s.code (codedSymbols s.code) + 1 + s.pbuf.length →
      exec .serialize s = .next (fail ⟨.bufferOverflow, 0x06, 0, 0⟩ s)) ∧
    (s.phase = .packed → codesEnd s.code (codedSymbols s.code) + 1 + s.pbuf.length ≤ s.cfg.ocap.toNat →
      ∃ obuf, exec .serialize s = .next { s with obuf := obuf, phase := .serialized } ∧
        obuf.length = codesEnd s.code (codedSymbols s.code) + 1 + s.pbuf.length ∧
        obuf = [BitVec.ofNat 8 s.nsym.toNat, BitVec.ofNat 8 (s.nsym.toNat / 256), 0, 0] ++
          ((symbols.filter fun b => clenAt s.code b ≠ 0).flatMap fun b =>
            [b, BitVec.ofNat 8 (clenAt s.code b)] ++
              (List.range (ceil8 (clenAt s.code b))).map (packByte (codeAt s.code b))) ++
          [s.pad.setWidth 8] ++ s.pbuf)

/-- 45_container_serializer.md R174: the container in OBUF meets every constraint of the format. -/
def Obligations.SerializedContainersAreValid : Prop :=
  ∀ s : State, Inv s → s.phase = .serialized →
    ∃ entries, s.obuf = rawContainer entries.length entries (s.pad.setWidth 8 :: s.pbuf) ∧
      entries.length = s.nsym.toNat ∧ 1 ≤ entries.length ∧ entries.length ≤ 256 ∧ EntriesOk entries ∧
      (entries.Pairwise fun e f => e.sym.toNat < f.sym.toNat) ∧ (∀ e ∈ entries, e.bytes = packBytes e.code) ∧
      1 ≤ s.pbuf.length ∧
      ∀ k, 8 * s.pbuf.length - s.pad.toNat ≤ k → k < 8 * s.pbuf.length → unpackBit s.pbuf k = false

/-! The decompress direction -/

/-- 46_container_deserializer.md R182, R185, R186, R192, R195: PARSE reads every valid container: entries in any order,
any padding bits, any prefix-free table. -/
def Obligations.ParseReadsEveryValidContainer : Prop :=
  ∀ (s : State) (entries : List RawEntry) (pad : Byte) (payload : List Byte), s.err = .none →
    EntriesOk entries → 1 ≤ entries.length → entries.length ≤ 256 → pad.toNat ≤ 7 → payload ≠ [] →
    payload.length ≤ s.cfg.pcap → s.ibuf = rawContainer entries.length entries (pad :: payload) →
    ∃ code nsym pad', exec .parse s = .next { clearProducts s with
        nsym := nsym, code := code, pad := pad', pbuf := payload, phase := .parsed } ∧
      nsym.toNat = entries.length ∧ pad'.toNat = pad.toNat ∧ TableOk code entries.length ∧
      ∀ b, codeAt code b = entryCode entries b

/-- 46_container_deserializer.md R192: PARSE reads nothing else. -/
def Obligations.ParseReadsOnlyValidContainers : Prop :=
  ∀ s t : State, s.err = .none → exec .parse s = .next t → t.err = .none →
    ∃ (entries : List RawEntry) (pad : Byte) (payload : List Byte), EntriesOk entries ∧
      1 ≤ entries.length ∧ entries.length ≤ 256 ∧ pad.toNat ≤ 7 ∧ payload ≠ [] ∧ payload.length ≤ s.cfg.pcap ∧
      s.ibuf = rawContainer entries.length entries (pad :: payload)

/-- 46_container_deserializer.md R183 and R184: SUB 1 and SUB 2. -/
def Obligations.ParseRejectsBadCounts : Prop :=
  (∀ s : State, s.err = .none → s.ibuf.length < 4 →
    exec .parse s = .next (fail ⟨.corruptContainer, 0x08, 1, 0⟩ s)) ∧
  ∀ (s : State) (b0 b1 b2 b3 : Byte) (rest : List Byte), s.err = .none → s.ibuf = b0 :: b1 :: b2 :: b3 :: rest →
    (b0.toNat + 256 * b1.toNat + 65536 * b2.toNat + 16777216 * b3.toNat = 0 ∨
      256 < b0.toNat + 256 * b1.toNat + 65536 * b2.toNat + 16777216 * b3.toNat) →
    exec .parse s = .next (fail ⟨.corruptContainer, 0x08, 2, 0⟩ s)

/-- 46_container_deserializer.md R187: SUB 3, 4 and 5, after any number of good entries. -/
def Obligations.ParseRejectsMalformedEntries : Prop :=
  ∀ (s : State) (count : Nat) (entries : List RawEntry) (rest : List Byte), s.err = .none → EntriesOk entries →
    entries.length < count → count ≤ 256 → s.ibuf = rawContainer count entries rest →
    (rest.length < 2 →
      exec .parse s = .next (fail ⟨.corruptContainer, 0x08, 3, BitVec.ofNat 32 (entriesEnd entries)⟩ s)) ∧
    (∀ b more, rest = b :: 0 :: more →
      exec .parse s = .next (fail ⟨.corruptContainer, 0x08, 4, BitVec.ofNat 32 (entriesEnd entries)⟩ s)) ∧
    (∀ b len more, rest = b :: len :: more → len ≠ 0 → more.length < ceil8 len.toNat →
      exec .parse s = .next (fail ⟨.corruptContainer, 0x08, 5, BitVec.ofNat 32 (entriesEnd entries)⟩ s))

/-- 46_container_deserializer.md R188 and R189: SUB 6 for a symbol met before, else SUB 7 for a code that equals, begins
or is begun by an earlier one. -/
def Obligations.ParseRejectsClashingEntries : Prop :=
  ∀ (s : State) (count : Nat) (entries : List RawEntry) (e : RawEntry) (rest : List Byte), s.err = .none →
    EntriesOk entries → entries.length < count → count ≤ 256 → e.len ≠ 0 → e.bytes.length = ceil8 e.len.toNat →
    s.ibuf = rawContainer count (entries ++ [e]) rest →
    ((∃ f ∈ entries, f.sym = e.sym) →
      exec .parse s = .next (fail ⟨.corruptContainer, 0x08, 6, BitVec.ofNat 32 (entriesEnd entries)⟩ s)) ∧
    ((∀ f ∈ entries, f.sym ≠ e.sym) → (∃ f ∈ entries, f.code <+: e.code ∨ e.code <+: f.code) →
      exec .parse s = .next (fail ⟨.corruptContainer, 0x08, 7, BitVec.ofNat 32 (entriesEnd entries)⟩ s))

/-- 46_container_deserializer.md R190: SUB 8, 9 and 10; and the overflow of R191. -/
def Obligations.ParseRejectsBadTails : Prop :=
  ∀ (s : State) (entries : List RawEntry) (rest : List Byte), s.err = .none → EntriesOk entries →
    1 ≤ entries.length → entries.length ≤ 256 → s.ibuf = rawContainer entries.length entries rest →
    (rest = [] →
      exec .parse s = .next (fail ⟨.corruptContainer, 0x08, 8, BitVec.ofNat 32 (entriesEnd entries)⟩ s)) ∧
    (∀ pad payload, rest = pad :: payload → 7 < pad.toNat →
      exec .parse s = .next (fail ⟨.corruptContainer, 0x08, 9, BitVec.ofNat 32 (entriesEnd entries)⟩ s)) ∧
    (∀ pad, rest = [pad] → pad.toNat ≤ 7 →
      exec .parse s = .next (fail ⟨.corruptContainer, 0x08, 10, BitVec.ofNat 32 (entriesEnd entries + 1)⟩ s)) ∧
    (∀ pad payload, rest = pad :: payload → pad.toNat ≤ 7 → s.cfg.pcap < payload.length →
      exec .parse s = .next (fail ⟨.bufferOverflow, 0x08, 0, 0⟩ s))

/-- The bound that does keep PARSE from overflowing: ICAP ≤ PCAP + 8 (46_container_deserializer.md R191 prints
PCAP + 9, which fails: `Obligations.ParseOverflowBoundAsPrinted`). -/
def Obligations.ParseOverflowNeedsCapacityGap : Prop :=
  ∀ s t : State, s.err = .none → s.ibuf.length ≤ s.cfg.icap.toNat → s.cfg.icap.toNat ≤ s.cfg.pcap + 8 →
    exec .parse s = .next t → t.err ≠ .bufferOverflow

/-- 46_container_deserializer.md R191 as it is printed, "With ICAP ≤ PCAP + 9 it cannot happen". Expected to FAIL: a
one-entry container may carry PCAP + 1 payload bytes in PCAP + 9 bytes. -/
def Obligations.ParseOverflowBoundAsPrinted : Prop :=
  ∀ s t : State, Inv s → s.cfg.icap.toNat ≤ s.cfg.pcap + 9 → s.err = .none →
    exec .parse s = .next t → t.err ≠ .bufferOverflow

/-- 44_bit_unpacker.md R161 with the function of R160. -/
def Obligations.UnpackExpandsAndTrims : Prop :=
  encode .unpack = 0x00000009 ∧
  ∀ s : State, s.err = .none →
    (s.phase ≠ .parsed → exec .unpack s = .next (fail ⟨.badSequence, 0x09, s.phase.toBits.setWidth 8, 0⟩ s)) ∧
    (s.phase = .parsed → 1 ≤ s.pbuf.length →
      ∃ bits, exec .unpack s = .next { s with bits := bits, phase := .unpacked } ∧
        bits.length = 8 * s.pbuf.length - s.pad.toNat ∧ 1 ≤ bits.length ∧
        ∀ k byte, k < bits.length → s.pbuf[k / 8]? = some byte → bits[k]? = some (byte.getLsbD (7 - k % 8)))

/-- 44_bit_unpacker.md R164: Unpack undoes Pack, and Pack undoes Unpack up to padding bits. -/
def Obligations.UnpackUndoesPack : Prop :=
  (∀ b : BitString, unpackBits (packBits b).1 (packBits b).2 = b) ∧
  ∀ (bytes : List Byte) (p : BitVec 3), p.toNat ≤ 8 * bytes.length →
    (packBits (unpackBits bytes p)).2 = p ∧ (packBits (unpackBits bytes p)).1.length = bytes.length ∧
    ∀ k, unpackBit (packBits (unpackBits bytes p)).1 k =
      if k < 8 * bytes.length - p.toNat then unpackBit bytes k else false

/-- 46_container_deserializer.md R193: on the same hardware, PARSE of a container that SERIALIZE made gives back the
table, the padding count and the payload. -/
def Obligations.ParseUndoesSerialize : Prop :=
  ∀ s t u : State, Inv s → s.phase = .packed → exec .serialize s = .next t → t.err = .none →
    u.err = .none → u.cfg = s.cfg → u.ibuf = t.obuf →
    exec .parse u = .next { clearProducts u with nsym := s.nsym, code := s.code, pad := s.pad, pbuf := s.pbuf,
                                                 phase := .parsed }

/-- 46_container_deserializer.md R194: what PARSE answers on each truncation of a container that SERIALIZE made, cut
anywhere up to its first payload byte, and that a longer cut is accepted. -/
def Obligations.TruncatedContainersAreCorrupt : Prop :=
  ∀ (s u : State) (k : Nat), Inv s → s.phase = .serialized → u.err = .none → u.cfg = s.cfg →
    u.ibuf = s.obuf.take k →
    (k ≤ 3 → exec .parse u = .next (fail ⟨.corruptContainer, 0x08, 1, 0⟩ u)) ∧
    (∀ before b after, codedSymbols s.code = before ++ b :: after →
      (codesEnd s.code before ≤ k → k ≤ codesEnd s.code before + 1 →
        exec .parse u =
          .next (fail ⟨.corruptContainer, 0x08, 3, BitVec.ofNat 32 (codesEnd s.code before)⟩ u)) ∧
      (codesEnd s.code before + 2 ≤ k → k < codesEnd s.code before + 2 + ceil8 (clenAt s.code b) →
        exec .parse u =
          .next (fail ⟨.corruptContainer, 0x08, 5, BitVec.ofNat 32 (codesEnd s.code before)⟩ u))) ∧
    (k + 1 = s.obuf.length - s.pbuf.length →
      exec .parse u = .next (fail ⟨.corruptContainer, 0x08, 8, BitVec.ofNat 32 k⟩ u)) ∧
    (k = s.obuf.length - s.pbuf.length →
      exec .parse u = .next (fail ⟨.corruptContainer, 0x08, 10, BitVec.ofNat 32 k⟩ u)) ∧
    (s.obuf.length - s.pbuf.length < k → ∃ t, exec .parse u = .next t ∧ t.err = .none)

/-- 47_pipeline.md R205, R206: DECODE of the codes of a sequence gives the sequence. -/
def Obligations.DecodeScansTheCodes : Prop :=
  ∀ (s : State) (n : Nat) (out : List Byte), s.err = .none → s.phase = .unpacked → TableOk s.code n →
    Coded s.code out → s.bits = codesOf s.code out → out.length ≤ s.cfg.ocap.toNat →
    exec .decode s = .next { s with obuf := out, phase := .decoded }

/-- 47_pipeline.md R208, and that no bit-string escapes the three cases: whole codes, whole codes and then bits of which
no prefix is a code, more symbols than OBUF holds. -/
def Obligations.DecodeReportsLeftoversAndOverflow : Prop :=
  (∀ (s : State) (n : Nat) (out : List Byte) (left : BitString), s.err = .none → s.phase = .unpacked →
    TableOk s.code n → Coded s.code out → s.bits = codesOf s.code out ++ left → left ≠ [] →
    (∀ b, codeAt s.code b ≠ [] → ¬ codeAt s.code b <+: left) → out.length ≤ s.cfg.ocap.toNat →
    exec .decode s =
      .next (fail ⟨.corruptContainer, 0x0A, 11, BitVec.ofNat 32 (codesOf s.code out).length⟩ s)) ∧
  (∀ (s : State) (n : Nat) (out : List Byte) (more : BitString), s.err = .none → s.phase = .unpacked →
    TableOk s.code n → Coded s.code out → s.bits = codesOf s.code out ++ more → s.cfg.ocap.toNat < out.length →
    exec .decode s = .next (fail ⟨.bufferOverflow, 0x0A, 0, 0⟩ s)) ∧
  ∀ (code : SymMap BitString) (n : Nat) (bits : BitString), TableOk code n →
    ∃ out left, Coded code out ∧ bits = codesOf code out ++ left ∧
      ∀ b, codeAt code b ≠ [] → ¬ codeAt code b <+: left

/-! The composites -/

/-- 47_pipeline.md R210, R212: a composite leaves in every register and memory what its stages leave when the host
issues them one by one, whether they succeed or fail. -/
def Obligations.CompositesRunTheirStages : Prop :=
  ∀ (s : State) (rest : List HostInput), s.err = .none →
    step { s with port := cmdWrite 0x07 :: rest } =
      core.run 6 ({ s with
        port := [0x01, 0x02, 0x03, 0x04, 0x05, 0x06].map cmdWrite ++ rest } : State) ∧
    step { s with port := cmdWrite 0x0B :: rest } =
      core.run 3 ({ s with port := [0x08, 0x09, 0x0A].map cmdWrite ++ rest } : State)

/-- 47_pipeline.md R211. -/
def Obligations.CompressOfNothingIsInvalid : Prop :=
  ∀ s : State, s.err = .none → s.ibuf.length = 0 →
    ∃ t, exec .compress s = .next t ∧ t = fail ⟨.invalidInput, 0x02, 0, 0⟩ s ∧
      statusWord t = 0x000000F1 ∧ errinfoWord t = 0x00000002 ∧ t.errpos = 0 ∧ t.obuf.length = 0

/-- 47_pipeline.md R210: COMPRESS of a non-empty input: the counts, their greedy tree, its codes, the bits, their
packing and the container, or the overflow of ENCODE or SERIALIZE. -/
def Obligations.CompressMakesTheContainer : Prop :=
  ∀ s : State, s.err = .none → s.ibuf ≠ [] → s.ibuf.length ≤ s.cfg.icap.toNat →
    ∃ freq nsym nodes root code, (∀ b, (freqAt freq b).toNat = s.ibuf.count b) ∧
      TreeOk freq nsym.toNat nodes root.toNat ∧ TableOk code nsym.toNat ∧
      (∀ b c, (codeAt code b = c ∧ c ≠ []) ↔ IsTreeCode nodes root.toNat b c) ∧
      (s.cfg.bcap.toNat < (codesOf code s.ibuf).length →
        exec .compress s = .next (fail ⟨.bufferOverflow, 0x04, 0, 0⟩ s)) ∧
      ((codesOf code s.ibuf).length ≤ s.cfg.bcap.toNat →
        s.cfg.ocap.toNat < containerSize code (packBytes (codesOf code s.ibuf)).length →
        exec .compress s = .next (fail ⟨.bufferOverflow, 0x06, 0, 0⟩ s)) ∧
      ((codesOf code s.ibuf).length ≤ s.cfg.bcap.toNat →
        containerSize code (packBytes (codesOf code s.ibuf)).length ≤ s.cfg.ocap.toNat →
        exec .compress s = .next { s with
          freq := freq, nsym := nsym, nodes := nodes, root := root, code := code, bits := codesOf code s.ibuf,
          pbuf := packBytes (codesOf code s.ibuf), pad := padCount (codesOf code s.ibuf).length,
          obuf := containerBytes nsym.toNat code (padCount (codesOf code s.ibuf).length)
            (packBytes (codesOf code s.ibuf)),
          phase := .serialized })

/-- An input small beside the capacities compresses: COMPRESS completes with its container (47_pipeline.md R210). -/
def Obligations.CompressCompletes : Prop :=
  ∀ s : State, s.err = .none → s.ibuf ≠ [] → s.ibuf.length ≤ s.cfg.icap.toNat →
    255 * s.ibuf.length ≤ s.cfg.bcap.toNat → 8709 + 32 * s.ibuf.length ≤ s.cfg.ocap.toNat →
    ∃ t, exec .compress s = .next t ∧ t.err = .none ∧ t.phase = .serialized ∧
      (∀ b, (freqAt t.freq b).toNat = s.ibuf.count b) ∧ TableOk t.code t.nsym.toNat ∧
      t.bits = codesOf t.code s.ibuf ∧ (t.pbuf, t.pad) = packBits t.bits ∧
      t.obuf = containerBytes t.nsym.toNat t.code t.pad t.pbuf ∧
      t.ibuf = s.ibuf ∧ t.cfg = s.cfg ∧ t.port = s.port ∧ t.rdata = s.rdata

/-- 47_pipeline.md R212, R216: DECOMPRESS of any valid container whose payload is the codes of a sequence gives the
sequence, whoever made the container. -/
def Obligations.DecompressReadsEveryValidContainer : Prop :=
  ∀ (s : State) (entries : List RawEntry) (pad : Byte) (payload out : List Byte), s.err = .none →
    EntriesOk entries → 1 ≤ entries.length → entries.length ≤ 256 → pad.toNat ≤ 7 → payload ≠ [] →
    payload.length ≤ s.cfg.pcap → s.ibuf = rawContainer entries.length entries (pad :: payload) →
    (∀ b ∈ out, entryCode entries b ≠ []) →
    unpackBits payload (pad.setWidth 3) = (out.map (entryCode entries)).flatten →
    out.length ≤ s.cfg.ocap.toNat →
    ∃ code nsym, exec .decompress s = .next { clearProducts s with
        nsym := nsym, code := code, pad := pad.setWidth 3, pbuf := payload,
        bits := unpackBits payload (pad.setWidth 3), obuf := out, phase := .decoded } ∧
      nsym.toNat = entries.length ∧ ∀ b, codeAt code b = entryCode entries b

/-- 47_pipeline.md R214, the round trip, in the host's own script: LOAD, COMPRESS, LOAD of the container, DECOMPRESS. -/
def Obligations.RoundTrip : Prop :=
  ∀ (s : State) (input : List Byte), s.err = .none → s.cfg.wellFormed = true → 1 ≤ input.length →
    input.length ≤ s.cfg.icap.toNat →
    ∃ t : State, core.run (input.length + 2) ({ s with port := loadScript input ++ [cmdWrite 0x07] } : State) =
        .next t ∧
      (t.err ≠ .bufferOverflow → t.err = .none ∧
        (t.obuf.length ≤ s.cfg.icap.toNat →
          ∃ v : State, core.run (t.obuf.length + 2)
              ({ t with port := loadScript t.obuf ++ [cmdWrite 0x0B] } : State) = .next v ∧
            (v.err ≠ .bufferOverflow →
              v.err = .none ∧ v.obuf.length = input.length ∧ v.obuf = input) ∧
            (input.length ≤ s.cfg.ocap.toNat → v.err = .none)))

/-! Rules of the whole machine -/

/-- 70_reset_and_hazards.md R276: the phase machine, for every command and word in every row. -/
def Obligations.PhaseMachine : Prop :=
  (∀ (i : Instr) (s t : State), s.err = .none → exec i s = .next t →
    (∀ p, neededPhase i = some p → s.phase ≠ p → t.err = .badSequence ∧ t.phase = .faulted) ∧
    ((∀ p, neededPhase i = some p → s.phase = p) →
      (t.err = .none ∧ t.phase = leftPhase i s.phase) ∨
      (mayFail i = true ∧ t.err ≠ .none ∧ t.err ≠ .badSequence ∧ t.phase = .faulted))) ∧
  (∀ (w : Word) (s t : State), s.err = .none → IsIllegalWord w →
    transact { write := true, space := 0, index := 1, wdata := w } s = .next t → t.phase = .faulted) ∧
  (∀ (i : Instr) (s t : State), s.err ≠ .none → exec i s = .next t →
    (i = .sreset → t.phase = .load) ∧ (i ≠ .sreset → t = s)) ∧
  ∀ (w : Word) (s t : State), s.err ≠ .none → IsIllegalWord w →
    transact { write := true, space := 0, index := 1, wdata := w } s = .next t → SameBlock s t

/-- 10_state.md R25: who writes what, for every command, success and failure alike. Only SRESET clears the error record, and
a record there is stays. A product a command does not write keeps its value or is cleared. -/
def Obligations.WhoWritesWhat : Prop :=
  ∀ (i : Instr) (s t : State), exec i s = .next t →
    t.cfg = s.cfg ∧ t.port = s.port ∧ t.rdata = s.rdata ∧
    (t.ibuf ≠ s.ibuf → (∃ b, i = .push b) ∨ i = .iclr ∨ i = .sreset) ∧
    (i ≠ .sreset → t.err = .none ∨ s.err ≠ .none →
      t.err = s.err ∧ t.stage = s.stage ∧ t.sub = s.sub ∧ t.errpos = s.errpos) ∧
    (t.freq ≠ s.freq → t.freq = [] ∨ i = .count ∨ i = .compress) ∧
    (t.nsym ≠ s.nsym → t.nsym = 0 ∨ i ∈ [.count, .parse, .compress, .decompress]) ∧
    (t.nodes ≠ s.nodes ∨ t.root ≠ s.root → (t.nodes = [] ∧ t.root = 0) ∨ i = .build ∨ i = .compress) ∧
    (t.code ≠ s.code → t.code = [] ∨ i ∈ [.assign, .parse, .compress, .decompress]) ∧
    (t.bits ≠ s.bits → t.bits = [] ∨ i ∈ [.encode, .unpack, .compress, .decompress]) ∧
    (t.pbuf ≠ s.pbuf ∨ t.pad ≠ s.pad →
      (t.pbuf = [] ∧ t.pad = 0) ∨ i ∈ [.pack, .parse, .compress, .decompress]) ∧
    (t.obuf ≠ s.obuf → t.obuf = [] ∨ i ∈ [.serialize, .decode, .compress, .decompress]) ∧
    (t.phase ≠ s.phase → i ≠ .nop)

/-- 20_memory.md R68: which commands, written twice, leave what one writing leaves, and what the others do the second
time. -/
def Obligations.RepeatedCommands : Prop :=
  (∀ (i : Instr) (s t : State), i ∈ [.count, .parse, .compress, .decompress, .iclr, .sreset, .nop] →
    exec i s = .next t → exec i t = .next t) ∧
  (∀ (i : Instr) (p : Phase) (s t : State), neededPhase i = some p → exec i s = .next t →
    (t.err = .none → ∃ u, exec i t = .next u ∧ u.err = .badSequence) ∧
    (t.err ≠ .none → exec i t = .next t)) ∧
  ∀ (b : Byte) (s : State), s.err = .none → s.ibuf.length + 2 ≤ s.cfg.icap.toNat →
    ∃ t u, exec (.push b) s = .next t ∧ exec (.push b) t = .next u ∧ u.ibuf = s.ibuf ++ [b, b]

/-- 47_pipeline.md R216: the container depends on the input alone, not on the block's state or capacities. -/
def Obligations.CompressIsDeterministic : Prop :=
  ∀ s t u v : State, s.err = .none → u.err = .none → s.ibuf = u.ibuf →
    exec .compress s = .next t → exec .compress u = .next v → t.err = .none → v.err = .none → t.obuf = v.obuf

/-- 60_exceptions.md R249: every command and every step from a state that meets the invariants ends in a next state.
The model's own three faults (log 8, the model's choice) stand in states that no run reaches. -/
def Obligations.StopsOnlyOutsideTheInvariants : Prop :=
  (∀ s : State, Inv s → ∃ t, step s = .next t) ∧
  (∀ (i : Instr) (s : State), Inv s → ∃ t, exec i s = .next t) ∧
  (∀ s : State, s.err = .none → s.phase = .counted → s.nsym ≠ 0 → (∀ b, freqAt s.freq b = 0) →
    exec .build s = .fault .emptyLive) ∧
  (∀ s : State, s.err = .none → s.phase = .built → s.nodes[s.root.toNat]? = none →
    exec .assign s = .fault .brokenTree) ∧
  ∀ s : State, s.err = .none → s.phase = .parsed → s.pbuf = [] → s.pad ≠ 0 →
    exec .unpack s = .fault .undefinedUnpack

/-- The invariants hold in the reset state of every admissible configuration (70_reset_and_hazards.md R277). -/
def Obligations.InvariantsHoldAtReset : Prop :=
  Inv State.reset ∧ ∀ c : Config, c.wellFormed = true → Inv (State.resetWith c)

/-- 70_reset_and_hazards.md R277: every step keeps the invariants, from every state that meets them. -/
def Obligations.InvariantsKeptByEveryStep : Prop := ∀ s t : State, Inv s → step s = .next t → Inv t

/-- Every step keeps the canonical form of the symbol-indexed memories (log 6), from every state that has it. -/
def Obligations.MemoryStaysCanonical : Prop :=
  ∀ s t : State, Memory.wf s = true → step s = .next t → Memory.wf t = true
end

