-- ==== Sys2Proof/Laws/SymMap.lean ====
section
/-! SUPPORT. The symbol-indexed memories: read after write, a write elsewhere, and the canonical form. -/

namespace Sys2Proof.Machine

variable {α : Type} {d : α}

@[simp] theorem SymMap.get_nil (s : Byte) : SymMap.get d [] s = d := rfl

theorem SymMap.get_cons (t s : Byte) (a : α) (m : SymMap α) :
    SymMap.get d ((t, a) :: m) s = if t = s then a else SymMap.get d m s := rfl

/-- A symbol below every listed one reads as the default. -/
theorem SymMap.get_of_lt {m : SymMap α} {s : Byte} (h : ∀ e ∈ m, s.toNat < e.1.toNat) :
    SymMap.get d m s = d := by
  induction m with
  | nil => rfl
  | cons e m ih =>
    obtain ⟨t, a⟩ := e
    have ht : t ≠ s := by
      have hlt : s.toNat < t.toNat := h (t, a) (by simp)
      rintro rfl
      omega
    rw [SymMap.get_cons, if_neg ht]
    exact ih fun e he => h e (by simp [he])

/-- What a map reads, when it is not the default, is an entry. -/
theorem SymMap.mem_of_get {m : SymMap α} {s : Byte} (h : SymMap.get d m s ≠ d) :
    (s, SymMap.get d m s) ∈ m := by
  induction m with
  | nil => simp at h
  | cons e m ih =>
    obtain ⟨t, b⟩ := e
    rw [SymMap.get_cons] at *
    split at h
    · rename_i hts; subst hts; simp
    · rename_i hts
      rw [if_neg hts]
      exact List.mem_cons_of_mem _ (ih h)

variable [DecidableEq α]

/-- The canonical form as two conditions: strictly rising symbols and no default value. -/
theorem SymMap.wf_iff {m : SymMap α} :
    SymMap.wf d m = true ↔ (m.Pairwise fun e f => e.1.toNat < f.1.toNat) ∧ ∀ e ∈ m, e.2 ≠ d := by
  induction m with
  | nil => simp [SymMap.wf]
  | cons e m ih =>
    obtain ⟨s, a⟩ := e
    cases m with
    | nil => simp [SymMap.wf]
    | cons f m =>
      obtain ⟨t, b⟩ := f
      simp only [SymMap.wf, Bool.and_eq_true, decide_eq_true_eq, ih]
      rw [List.pairwise_cons (a := (s, a))]
      constructor
      · rintro ⟨⟨ha, hst⟩, hp, hd⟩
        refine ⟨⟨?_, hp⟩, ?_⟩
        · intro g hg
          rcases List.mem_cons.1 hg with rfl | hg
          · exact hst
          · exact lt_trans hst ((List.pairwise_cons.1 hp).1 g hg)
        · intro g hg
          rcases List.mem_cons.1 hg with rfl | hg
          · exact ha
          · exact hd g hg
      · rintro ⟨⟨h1, hp⟩, hd⟩
        exact ⟨⟨hd (s, a) (by simp), h1 (t, b) (by simp)⟩, hp, fun g hg => hd g (by simp [hg])⟩

theorem SymMap.wf_tail {e : Byte × α} {m : SymMap α} (h : SymMap.wf d (e :: m) = true) :
    SymMap.wf d m = true := by
  rw [SymMap.wf_iff] at *
  exact ⟨(List.pairwise_cons.1 h.1).2, fun g hg => h.2 g (by simp [hg])⟩

/-- An entry of a canonical map is what the map reads at its symbol. -/
theorem SymMap.get_of_mem {m : SymMap α} (h : SymMap.wf d m = true) {s : Byte} {a : α} (hm : (s, a) ∈ m) :
    SymMap.get d m s = a := by
  induction m with
  | nil => simp at hm
  | cons e m ih =>
    obtain ⟨t, b⟩ := e
    rw [SymMap.get_cons]
    rcases List.mem_cons.1 hm with he | hm'
    · cases he; simp
    · have hp := List.pairwise_cons.1 (SymMap.wf_iff.1 h).1
      have : t ≠ s := by
        rintro rfl
        exact absurd (hp.1 _ hm') (lt_irrefl _)
      rw [if_neg this]
      exact ih (SymMap.wf_tail h) hm'

/-- Read after write at the same symbol. -/
theorem SymMap.get_set_same {m : SymMap α} (h : SymMap.wf d m = true) (s : Byte) (a : α) :
    SymMap.get d (SymMap.set d m s a) s = a := by
  induction m with
  | nil =>
    rw [SymMap.set]
    split
    · rename_i ha; simp [ha]
    · simp [SymMap.get_cons]
  | cons e m ih =>
    obtain ⟨t, b⟩ := e
    have hp := List.pairwise_cons.1 (SymMap.wf_iff.1 h).1
    rw [SymMap.set]
    by_cases hts : t = s
    · subst hts
      rw [if_pos rfl]
      by_cases ha : a = d
      · rw [if_pos ha, ha]
        exact SymMap.get_of_lt hp.1
      · rw [if_neg ha, SymMap.get_cons, if_pos rfl]
    · rw [if_neg hts]
      by_cases hlt : s.toNat < t.toNat
      · rw [if_pos hlt]
        by_cases ha : a = d
        · rw [if_pos ha, ha]
          apply SymMap.get_of_lt
          intro g hg
          rcases List.mem_cons.1 hg with rfl | hg
          · exact hlt
          · exact lt_trans hlt (hp.1 g hg)
        · rw [if_neg ha, SymMap.get_cons, if_pos rfl]
      · rw [if_neg hlt, SymMap.get_cons, if_neg hts]
        exact ih (SymMap.wf_tail h)

/-- A write leaves every other symbol alone. -/
theorem SymMap.get_set_other {m : SymMap α} {s t : Byte} (hst : s ≠ t) (a : α) :
    SymMap.get d (SymMap.set d m s a) t = SymMap.get d m t := by
  induction m with
  | nil =>
    rw [SymMap.set]
    split
    · rfl
    · rw [SymMap.get_cons, if_neg hst]
  | cons e m ih =>
    obtain ⟨u, b⟩ := e
    rw [SymMap.set]
    by_cases hus : u = s
    · subst hus
      rw [if_pos rfl]
      split <;> simp [SymMap.get_cons, hst]
    · rw [if_neg hus]
      by_cases hlt : s.toNat < u.toNat
      · rw [if_pos hlt]
        split <;> simp [SymMap.get_cons, hst]
      · rw [if_neg hlt, SymMap.get_cons, SymMap.get_cons, ih]

theorem SymMap.get_set {m : SymMap α} (h : SymMap.wf d m = true) (s t : Byte) (a : α) :
    SymMap.get d (SymMap.set d m s a) t = if s = t then a else SymMap.get d m t := by
  by_cases hst : s = t
  · subst hst; rw [if_pos rfl, SymMap.get_set_same h]
  · rw [if_neg hst, SymMap.get_set_other hst]

/-- Every entry of the written map is the new one or an old one. -/
theorem SymMap.mem_set {m : SymMap α} {s : Byte} {a : α} {e : Byte × α} (he : e ∈ SymMap.set d m s a) :
    (e = (s, a) ∧ a ≠ d) ∨ e ∈ m := by
  induction m with
  | nil =>
    rw [SymMap.set] at he
    split at he
    · simp at he
    · rename_i ha; left; exact ⟨by simpa using he, ha⟩
  | cons f m ih =>
    obtain ⟨t, b⟩ := f
    rw [SymMap.set] at he
    by_cases hts : t = s
    · rw [if_pos hts] at he
      split at he
      · right; exact List.mem_cons_of_mem _ he
      · rename_i ha
        rcases List.mem_cons.1 he with rfl | he
        · left; exact ⟨rfl, ha⟩
        · right; exact List.mem_cons_of_mem _ he
    · rw [if_neg hts] at he
      by_cases hlt : s.toNat < t.toNat
      · rw [if_pos hlt] at he
        split at he
        · right; exact he
        · rename_i ha
          rcases List.mem_cons.1 he with rfl | he
          · left; exact ⟨rfl, ha⟩
          · right; exact he
      · rw [if_neg hlt] at he
        rcases List.mem_cons.1 he with rfl | he
        · right; simp
        · rcases ih he with h | h
          · left; exact h
          · right; exact List.mem_cons_of_mem _ h

/-- A write keeps the canonical form. -/
theorem SymMap.set_wf {m : SymMap α} (h : SymMap.wf d m = true) (s : Byte) (a : α) :
    SymMap.wf d (SymMap.set d m s a) = true := by
  induction m with
  | nil =>
    rw [SymMap.set]
    split
    · rfl
    · rename_i ha; simpa [SymMap.wf] using ha
  | cons e m ih =>
    obtain ⟨t, b⟩ := e
    have hw := SymMap.wf_iff.1 h
    have hp := List.pairwise_cons.1 hw.1
    rw [SymMap.set]
    by_cases hts : t = s
    · subst hts
      rw [if_pos rfl]
      split
      · exact SymMap.wf_tail h
      · rename_i ha
        rw [SymMap.wf_iff]
        refine ⟨List.pairwise_cons.2 ⟨hp.1, hp.2⟩, ?_⟩
        intro g hg
        rcases List.mem_cons.1 hg with rfl | hg
        · exact ha
        · exact hw.2 g (by simp [hg])
    · rw [if_neg hts]
      by_cases hlt : s.toNat < t.toNat
      · rw [if_pos hlt]
        split
        · exact h
        · rename_i ha
          rw [SymMap.wf_iff]
          refine ⟨List.pairwise_cons.2 ⟨?_, hw.1⟩, ?_⟩
          · intro g hg
            rcases List.mem_cons.1 hg with rfl | hg
            · exact hlt
            · exact lt_trans hlt (hp.1 g hg)
          · intro g hg
            rcases List.mem_cons.1 hg with rfl | hg
            · exact ha
            · exact hw.2 g hg
      · rw [if_neg hlt]
        have ih' := SymMap.wf_iff.1 (ih (SymMap.wf_tail h))
        rw [SymMap.wf_iff]
        refine ⟨List.pairwise_cons.2 ⟨?_, ih'.1⟩, ?_⟩
        · intro g hg
          rcases SymMap.mem_set hg with ⟨rfl, -⟩ | hg
          · have : t.toNat ≠ s.toNat := fun hh => hts (BitVec.eq_of_toNat_eq hh)
            show t.toNat < s.toNat
            omega
          · exact hp.1 g hg
        · intro g hg
          rcases List.mem_cons.1 hg with rfl | hg
          · exact hw.2 _ (by simp)
          · exact ih'.2 g hg

/-- Equal memories are equal data: canonical maps that read the same everywhere are the same list. -/
theorem SymMap.ext_of_get {m n : SymMap α} (hm : SymMap.wf d m = true) (hn : SymMap.wf d n = true)
    (h : ∀ s, SymMap.get d m s = SymMap.get d n s) : m = n := by
  induction m generalizing n with
  | nil =>
    cases n with
    | nil => rfl
    | cons e n =>
      have := h e.1
      rw [SymMap.get_of_mem hn (s := e.1) (a := e.2) (by simp)] at this
      exact absurd this.symm ((SymMap.wf_iff.1 hn).2 e (by simp))
  | cons e m ih =>
    cases n with
    | nil =>
      have := h e.1
      rw [SymMap.get_of_mem hm (s := e.1) (a := e.2) (by simp)] at this
      exact absurd this ((SymMap.wf_iff.1 hm).2 e (by simp))
    | cons f n =>
      obtain ⟨s, a⟩ := e
      obtain ⟨t, b⟩ := f
      have hpm := List.pairwise_cons.1 (SymMap.wf_iff.1 hm).1
      have hpn := List.pairwise_cons.1 (SymMap.wf_iff.1 hn).1
      have ha : a ≠ d := (SymMap.wf_iff.1 hm).2 (s, a) (by simp)
      have hb : b ≠ d := (SymMap.wf_iff.1 hn).2 (t, b) (by simp)
      have hst : s = t := by
        apply BitVec.eq_of_toNat_eq
        rcases lt_trichotomy s.toNat t.toNat with hlt | heq | hlt
        · have h1 := h s
          rw [SymMap.get_cons, if_pos rfl, SymMap.get_of_lt] at h1
          · exact absurd h1 ha
          · intro g hg
            rcases List.mem_cons.1 hg with rfl | hg
            · exact hlt
            · exact lt_trans hlt (hpn.1 g hg)
        · exact heq
        · have h1 := h t
          rw [SymMap.get_cons (t := t), if_pos rfl, SymMap.get_of_lt] at h1
          · exact absurd h1.symm hb
          · intro g hg
            rcases List.mem_cons.1 hg with rfl | hg
            · exact hlt
            · exact lt_trans hlt (hpm.1 g hg)
      subst hst
      have hab : a = b := by
        have h1 := h s
        simpa [SymMap.get_cons] using h1
      subst hab
      congr 1
      apply ih (SymMap.wf_tail hm) (SymMap.wf_tail hn)
      intro u
      have h1 := h u
      rw [SymMap.get_cons, SymMap.get_cons] at h1
      by_cases hu : s = u
      · subst hu
        rw [SymMap.get_of_lt hpm.1, SymMap.get_of_lt hpn.1]
      · simpa [hu] using h1

/-- A lookup answers a symbol whose code is the one looked up. -/
theorem codeAt_of_lookup {code : SymMap BitString} (h : SymMap.wf [] code = true) {c : BitString} {s : Byte}
    (hl : lookup code c = some s) : codeAt code s = c ∧ c ≠ [] := by
  simp only [lookup, Option.map_eq_some_iff] at hl
  obtain ⟨⟨t, e⟩, hf, rfl⟩ := hl
  have hm := List.mem_of_find?_eq_some hf
  have hc := List.find?_some hf
  simp only [beq_iff_eq] at hc
  subst hc
  exact ⟨SymMap.get_of_mem h hm, (SymMap.wf_iff.1 h).2 _ hm⟩

/-- A code that some symbol has is found. -/
theorem lookup_isSome {code : SymMap BitString} {s : Byte} (hs : codeAt code s ≠ []) :
    ∃ t, lookup code (codeAt code s) = some t := by
  have hm : (s, codeAt code s) ∈ code := SymMap.mem_of_get (d := []) hs
  simp only [lookup]
  cases hf : code.find? (fun e => e.2 == codeAt code s) with
  | some e => exact ⟨e.1, rfl⟩
  | none =>
    rw [List.find?_eq_none] at hf
    exact absurd (by simp) (hf _ hm)

/-- Nothing is found when no symbol has the code. -/
theorem lookup_none {code : SymMap BitString} (h : SymMap.wf [] code = true) {c : BitString}
    (hc : ∀ s, codeAt code s = c → c = []) : lookup code c = none := by
  cases hl : lookup code c with
  | none => rfl
  | some s =>
    have := codeAt_of_lookup h hl
    exact absurd (hc s this.1) this.2

theorem codeAt_setCode {code : SymMap BitString} (h : SymMap.wf [] code = true) (s t : Byte) (c : BitString) :
    codeAt (setCode code s c) t = if s = t then c else codeAt code t := SymMap.get_set h s t c

theorem setCode_wf {code : SymMap BitString} (h : SymMap.wf [] code = true) (s : Byte) (c : BitString) :
    SymMap.wf [] (setCode code s c) = true := SymMap.set_wf h s c

@[simp] theorem codeAt_nil (s : Byte) : codeAt [] s = [] := rfl

@[simp] theorem freqAt_nil (s : Byte) : freqAt [] s = 0 := rfl

end Sys2Proof.Machine
end

