-- ==== Sys2Proof/Laws/Operands.lean ====
section
/-! SUPPORT. The operand forms: the alphabet, bits in bytes, packing and unpacking, little-endian integers. -/

namespace Sys2Proof.Machine

/-! The alphabet -/

theorem symbols_getElem? (i : Nat) : symbols[i]? = if i < 256 then some (BitVec.ofNat 8 i) else none := by
  simp only [symbols, List.getElem?_map]
  split <;> simp_all

@[simp] theorem symbols_length : symbols.length = 256 := by simp [symbols]

@[simp] theorem mem_symbols (s : Byte) : s ∈ symbols := by
  simp only [symbols, List.mem_map, List.mem_range]
  exact ⟨s.toNat, s.isLt, by simp⟩

/-- The alphabet is listed in ascending order. -/
theorem symbols_pairwise : symbols.Pairwise fun s t => s.toNat < t.toNat := by
  rw [symbols, List.pairwise_map]
  refine List.Pairwise.imp_of_mem ?_ List.pairwise_lt_range
  intro a b ha hb hab
  rw [List.mem_range] at ha hb
  simp only [BitVec.toNat_ofNat]
  omega

theorem symbols_nodup : symbols.Nodup := by
  refine symbols_pairwise.imp ?_
  rintro a b h rfl
  omega

/-! `ceil(a/8)` -/

theorem ceil8_le (a : Nat) : a ≤ 8 * ceil8 a := by unfold ceil8; omega

theorem ceil8_lt (a : Nat) : 8 * ceil8 a < a + 8 := by unfold ceil8; omega

/-! Bits in bytes -/

/-- Bit `7 - k` of byte j is the bit at position 8j + k (20_memory.md R66). -/
theorem packByte_bit (b : BitString) (j k : Nat) (hk : k < 8) :
    (packByte b j).getLsbD (7 - k) = bitAt b (8 * j + k) := by
  have key : ∀ (b0 b1 b2 b3 b4 b5 b6 b7 : Bool) (k : Fin 8),
      (BitVec.ofNat 8 ([b0.toNat * 2 ^ 7, b1.toNat * 2 ^ 6, b2.toNat * 2 ^ 5, b3.toNat * 2 ^ 4,
        b4.toNat * 2 ^ 3, b5.toNat * 2 ^ 2, b6.toNat * 2 ^ 1, b7.toNat * 2 ^ 0].sum)).getLsbD (7 - k.val) =
        [b0, b1, b2, b3, b4, b5, b6, b7].getD k.val false := by decide +kernel
  have := key (bitAt b (8 * j + 0)) (bitAt b (8 * j + 1)) (bitAt b (8 * j + 2)) (bitAt b (8 * j + 3))
    (bitAt b (8 * j + 4)) (bitAt b (8 * j + 5)) (bitAt b (8 * j + 6)) (bitAt b (8 * j + 7)) ⟨k, hk⟩
  have hr : List.range 8 = [0, 1, 2, 3, 4, 5, 6, 7] := by decide
  rw [packByte, hr]
  simp only [List.map_cons, List.map_nil]
  rw [this]
  interval_cases k <;> rfl

@[simp] theorem packBytes_length (b : BitString) : (packBytes b).length = ceil8 b.length := by simp [packBytes]

theorem packBytes_getElem? (b : BitString) (j : Nat) :
    (packBytes b)[j]? = if j < ceil8 b.length then some (packByte b j) else none := by
  simp only [packBytes, List.getElem?_map]
  split <;> simp_all

/-- Every bit of the packed bytes is the bit-string's bit, 0 in the padding. -/
theorem unpackBit_packBytes_append (b : BitString) (rest : List Byte) (m : Nat) (hm : m < 8 * ceil8 b.length) :
    unpackBit (packBytes b ++ rest) m = bitAt b m := by
  have hj : m / 8 < ceil8 b.length := by omega
  rw [unpackBit, List.getElem?_append_left (by simpa using hj), packBytes_getElem?, if_pos hj, Option.getD_some,
    packByte_bit _ _ _ (Nat.mod_lt _ (by omega))]
  congr 1
  omega

theorem unpackBit_packBytes (b : BitString) (m : Nat) (hm : m < 8 * ceil8 b.length) :
    unpackBit (packBytes b) m = bitAt b m := by
  simpa using unpackBit_packBytes_append b [] m hm

theorem map_bitAt_range (b : BitString) : (List.range b.length).map (bitAt b) = b := by
  apply List.ext_getElem?
  intro i
  by_cases h : i < b.length
  · simp [h, bitAt]
  · simp [h]

@[simp] theorem codeOf_length (bytes : List Byte) (n : Nat) : (codeOf bytes n).length = n := by simp [codeOf]

/-- The code read back from its packed bytes, whatever follows them (46_container_deserializer.md R186). -/
theorem codeOf_packBytes (c : BitString) (rest : List Byte) : codeOf (packBytes c ++ rest) c.length = c := by
  conv_rhs => rw [← map_bitAt_range c]
  apply List.map_congr_left
  intro m hm
  rw [List.mem_range] at hm
  exact unpackBit_packBytes_append _ _ _ (lt_of_lt_of_le hm (ceil8_le _))

/-- Only the code bytes of an entry matter to its code. -/
theorem codeOf_append (bytes rest : List Byte) (n : Nat) (h : bytes.length = ceil8 n) :
    codeOf (bytes ++ rest) n = codeOf bytes n := by
  apply List.map_congr_left
  intro m hm
  rw [List.mem_range] at hm
  have := ceil8_le n
  rw [unpackBit, unpackBit, List.getElem?_append_left (by omega)]

/-! Pack and Unpack -/

theorem padCount_toNat (n : Nat) : (padCount n).toNat = (8 - n % 8) % 8 := by
  rw [padCount, BitVec.toNat_ofNat]
  omega

/-- `|bytes| = (n + pad)/8` (43_bit_packer.md R150). -/
theorem eight_mul_ceil8 (n : Nat) : 8 * ceil8 n - (padCount n).toNat = n := by
  rw [padCount_toNat, ceil8]
  omega

@[simp] theorem unpackBits_length (bytes : List Byte) (p : BitVec 3) :
    (unpackBits bytes p).length = 8 * bytes.length - p.toNat := by simp [unpackBits]

/-- Pack then Unpack with the same padding count is the identity (44_bit_unpacker.md R164). -/
theorem unpackBits_packBytes (b : BitString) : unpackBits (packBytes b) (padCount b.length) = b := by
  conv_rhs => rw [← map_bitAt_range b]
  rw [unpackBits, packBytes_length, eight_mul_ceil8]
  apply List.map_congr_left
  intro m hm
  rw [List.mem_range] at hm
  exact unpackBit_packBytes _ _ (lt_of_lt_of_le hm (ceil8_le _))

theorem unpackBits_getElem? (bytes : List Byte) (p : BitVec 3) (k : Nat) :
    (unpackBits bytes p)[k]? = if k < 8 * bytes.length - p.toNat then some (unpackBit bytes k) else none := by
  simp only [unpackBits, List.getElem?_map]
  split <;> simp_all

/-! Little-endian integers -/

@[simp] theorem memWrite_length (n v : Nat) : (memWrite n v).length = n := by
  induction n generalizing v with
  | zero => rfl
  | succ n ih => simp [memWrite, ih]

theorem memRead_memWrite (n v : Nat) : memRead (memWrite n v) = v % 256 ^ n := by
  induction n generalizing v with
  | zero => simp [memWrite, memRead, Nat.mod_one]
  | succ n ih =>
    rw [memWrite, memRead, ih, BitVec.toNat_ofNat, pow_succ (256 : Nat), Nat.mul_comm (256 ^ n), Nat.mod_mul]

theorem memWrite_memRead (l : List Byte) : memWrite l.length (memRead l) = l := by
  induction l with
  | nil => rfl
  | cons b l ih =>
    have hb := b.isLt
    rw [List.length_cons, memRead, memWrite]
    congr 1
    · apply BitVec.eq_of_toNat_eq
      simp only [BitVec.toNat_ofNat]
      omega
    · rw [show (b.toNat + 256 * memRead l) / 256 = memRead l by omega, ih]

theorem memRead_lt (l : List Byte) : memRead l < 256 ^ l.length := by
  induction l with
  | nil => simp [memRead]
  | cons b l ih =>
    have hb := b.isLt
    rw [memRead, List.length_cons, pow_succ]
    omega

end Sys2Proof.Machine
end

