-- ==== Sys2Proof/Laws/Counter.lean ====
section
/-! SUPPORT. The frequency counter: what the counters hold after one pass. -/

namespace Sys2Proof.Machine

theorem bumpCount_wf {freq : SymMap Word} (h : SymMap.wf 0 freq = true) (s : Byte) :
    SymMap.wf 0 (bumpCount freq s) = true := SymMap.set_wf h _ _

theorem freqAt_bumpCount {freq : SymMap Word} (h : SymMap.wf 0 freq = true) (s t : Byte) :
    freqAt (bumpCount freq s) t = if s = t then freqAt freq s + 1 else freqAt freq t :=
  SymMap.get_set h s t _

theorem foldl_bumpCount (bytes : List Byte) {freq : SymMap Word} (h : SymMap.wf 0 freq = true) :
    SymMap.wf 0 (bytes.foldl bumpCount freq) = true ∧
      ∀ b, freqAt (bytes.foldl bumpCount freq) b = freqAt freq b + BitVec.ofNat 32 (bytes.count b) := by
  induction bytes generalizing freq with
  | nil => exact ⟨h, fun b => by simp⟩
  | cons s bytes ih =>
    obtain ⟨hw, hf⟩ := ih (bumpCount_wf h s)
    refine ⟨hw, fun b => ?_⟩
    rw [List.foldl_cons, hf, freqAt_bumpCount h, List.count_cons]
    by_cases hsb : s = b
    · subst hsb
      simp only [if_pos, BEq.rfl]
      apply BitVec.eq_of_toNat_eq
      simp
      omega
    · simp [hsb]

theorem countBytes_wf (bytes : List Byte) : SymMap.wf 0 (countBytes bytes) = true :=
  (foldl_bumpCount bytes (freq := []) rfl).1

/-- `FREQ = Freq(IBUF[0..ILEN))` (40_frequency_counter.md R111). -/
theorem freqAt_countBytes (bytes : List Byte) (b : Byte) :
    freqAt (countBytes bytes) b = BitVec.ofNat 32 (bytes.count b) := by
  have := (foldl_bumpCount bytes (freq := []) rfl).2 b
  simpa [countBytes] using this

/-- No counter wraps while the input has at most 2^32 - 1 bytes (R112). -/
theorem freqAt_countBytes_toNat {bytes : List Byte} (h : bytes.length < 2 ^ 32) (b : Byte) :
    (freqAt (countBytes bytes) b).toNat = bytes.count b := by
  rw [freqAt_countBytes, BitVec.toNat_ofNat]
  exact Nat.mod_eq_of_lt (lt_of_le_of_lt List.count_le_length h)

theorem distinctCount_le (freq : SymMap Word) : distinctCount freq ≤ 256 := by
  have := List.countP_le_length (p := fun s => decide (freqAt freq s ≠ 0)) (l := symbols)
  simpa [distinctCount] using this

/-- The symbols partition any byte sequence. -/
theorem sum_count_symbols (bytes : List Byte) : (symbols.map fun b => bytes.count b).sum = bytes.length := by
  induction bytes with
  | nil =>
    rw [List.length_nil]
    apply List.sum_eq_zero
    intro x hx
    rw [List.mem_map] at hx
    obtain ⟨b, -, rfl⟩ := hx
    exact List.count_nil
  | cons s bytes ih =>
    have h1 : (symbols.map fun b => (s :: bytes).count b) =
        symbols.map fun b => bytes.count b + if s = b then 1 else 0 := by
      apply List.map_congr_left
      intro b _
      rw [List.count_cons]
      by_cases h : s = b <;> simp [h]
    have h2 : (symbols.map fun b => if s = b then 1 else 0).sum = symbols.count s := by
      have : ∀ l : List Byte, (l.map fun b => if s = b then 1 else 0).sum = l.count s := by
        intro l
        induction l with
        | nil => rfl
        | cons b l ihl =>
          rw [List.map_cons, List.sum_cons, ihl, List.count_cons]
          by_cases h : s = b
          · subst h; simp; omega
          · have : ¬ b = s := fun hh => h hh.symm
            simp [h, this]
      exact this symbols
    rw [h1, List.sum_map_add, ih, h2, List.count_eq_one_of_mem symbols_nodup (mem_symbols s), List.length_cons]

end Sys2Proof.Machine
end

