-- ==== Sys2Proof/Laws/Builder.lean ====
section
/-! SUPPORT. The tree builder: what ExtractMin takes, and what every pass of the merge loop keeps. -/

namespace Sys2Proof.Machine

/-! ExtractMin -/

theorem Key.before_iff (a b : Key) :
    a.before b = true ↔ a.weight.toNat < b.weight.toNat ∨ (a.weight.toNat = b.weight.toNat ∧ a.index < b.index) := by
  simp [Key.before]

theorem Key.before_trans {a b c : Key} (h1 : a.before b = true) (h2 : b.before c = true) : a.before c = true := by
  rw [Key.before_iff] at *
  omega

theorem Key.not_before_self (a : Key) : a.before a = false := by
  rw [← Bool.not_eq_true, Key.before_iff]
  omega

theorem foldl_least_spec (ks : List Key) (k : Key) :
    ks.foldl Key.least k ∈ k :: ks ∧ ∀ x ∈ k :: ks, x.before (ks.foldl Key.least k) = false := by
  induction ks generalizing k with
  | nil => simp [Key.not_before_self]
  | cons y ks ih =>
    obtain ⟨hm, hl⟩ := ih (k.least y)
    rw [List.foldl_cons]
    have hor : (y.before k = true ∧ k.least y = y) ∨ (y.before k = false ∧ k.least y = k) := by
      unfold Key.least
      cases y.before k <;> simp
    have hboth : ∀ z, (z = k ∨ z = y) → z.before (ks.foldl Key.least (k.least y)) = false := by
      intro z hz
      have h0 := hl (k.least y) (by simp)
      generalize ks.foldl Key.least (k.least y) = m at h0 ⊢
      rw [← Bool.not_eq_true] at h0 ⊢
      intro hzb
      apply h0
      rcases hor with ⟨hyk, he⟩ | ⟨hyk, he⟩
      · rw [he]
        rcases hz with rfl | rfl
        · exact Key.before_trans hyk hzb
        · exact hzb
      · rw [he]
        rcases hz with rfl | rfl
        · exact hzb
        · rw [← Bool.not_eq_true] at hyk
          rw [Key.before_iff] at *
          omega
    constructor
    · rcases List.mem_cons.1 hm with h | h
      · rw [h]; rcases hor with ⟨-, h⟩ | ⟨-, h⟩ <;> simp [h]
      · simp [h]
    · intro x hx
      rcases List.mem_cons.1 hx with rfl | hx
      · exact hboth _ (.inl rfl)
      · rcases List.mem_cons.1 hx with rfl | hx
        · exact hboth _ (.inr rfl)
        · exact hl x (by simp [hx])

/-- What ExtractMin answers: a member before which no member stands, and LIVE without it. -/
theorem extractMin_spec {live rest : List Key} {m : Key} (h : extractMin live = some (m, rest)) :
    m ∈ live ∧ rest = live.erase m ∧ ∀ x ∈ live, x.before m = false := by
  cases live with
  | nil => simp [extractMin] at h
  | cons k ks =>
    simp only [extractMin, Option.some.injEq, Prod.mk.injEq] at h
    obtain ⟨rfl, rfl⟩ := h
    obtain ⟨h1, h2⟩ := foldl_least_spec ks k
    exact ⟨h1, rfl, h2⟩

theorem extractMin_eq_none {live : List Key} : extractMin live = none ↔ live = [] := by
  cases live <;> simp [extractMin]

/-! One node added to the arena -/

theorem weightAt_append {nodes : List Node} {i : Nat} (x : Node) (h : i < nodes.length) :
    weightAt (nodes ++ [x]) i = weightAt nodes i := by
  rw [weightAt, weightAt, List.getElem?_append_left h]

theorem weightAt_append_self (nodes : List Node) (x : Node) :
    weightAt (nodes ++ [x]) nodes.length = nodeWeight x := by
  simp [weightAt]

theorem isChild_append_of_lt {nodes : List Node} {j i : Nat} (x : Node) (h : j < nodes.length) :
    IsChild (nodes ++ [x]) j i ↔ IsChild nodes j i := by
  simp only [IsChild, List.getElem?_append_left h]

theorem IsChild.lt {nodes : List Node} {j i : Nat} (h : IsChild nodes j i) : j < nodes.length := by
  obtain ⟨l, r, w, hj, -⟩ := h
  by_contra hlt
  rw [List.getElem?_eq_none (by omega)] at hj
  cases hj

theorem isLive_append {nodes : List Node} {k i : Nat} (x : Node) (h : k ≤ nodes.length) :
    IsLive (nodes ++ [x]) k i ↔ IsLive nodes k i := by
  simp only [IsLive]
  constructor
  · rintro ⟨h1, h2⟩
    exact ⟨h1, fun j hj hc => h2 j hj ((isChild_append_of_lt x (by omega)).2 hc)⟩
  · rintro ⟨h1, h2⟩
    exact ⟨h1, fun j hj hc => h2 j hj ((isChild_append_of_lt x (by omega)).1 hc)⟩

theorem earlier_append {nodes : List Node} {i j : Nat} (x : Node) (hi : i < nodes.length) (hj : j < nodes.length) :
    Earlier (nodes ++ [x]) i j ↔ Earlier nodes i j := by
  simp only [Earlier, weightAt_append x hi, weightAt_append x hj]

/-- A merge already made stays a greedy merge. -/
theorem isGreedyMerge_append {nodes : List Node} {k : Nat} (x : Node) (hk : k < nodes.length)
    (h : IsGreedyMerge nodes k) : IsGreedyMerge (nodes ++ [x]) k := by
  obtain ⟨l, r, w, hn, hl, hr, he, hmin, hmin2, hw⟩ := h
  have hll := hl.1
  have hrl := hr.1
  refine ⟨l, r, w, by rw [List.getElem?_append_left hk]; exact hn,
    (isLive_append x hk.le).2 hl, (isLive_append x hk.le).2 hr,
    (earlier_append x (by omega) (by omega)).2 he, ?_, ?_, ?_⟩
  · intro i hi hne
    have hi' := (isLive_append x hk.le).1 hi
    exact (earlier_append x (by omega) (by have := hi'.1; omega)).2 (hmin i hi' hne)
  · intro i hi hne hne2
    have hi' := (isLive_append x hk.le).1 hi
    exact (earlier_append x (by omega) (by have := hi'.1; omega)).2 (hmin2 i hi' hne hne2)
  · rw [weightAt_append x (by omega), weightAt_append x (by omega)]; exact hw

/-! The merge loop -/

/-- What holds between two passes of the loop over an arena that began with n leaves. -/
structure MergeInv (leaves : List Node) (nodes : List Node) (live : List Key) : Prop where
  bound : leaves.length ≤ 256
  allLeaves : ∀ n ∈ leaves, ∀ l r w, n ≠ .internal l r w
  size : nodes.length + live.length = 2 * leaves.length
  leavesFirst : nodes.take leaves.length = leaves
  enough : leaves.length ≤ nodes.length
  nonempty : live ≠ []
  nodup : (live.map Key.index).Nodup
  keys : ∀ k ∈ live, k.index < nodes.length ∧ k.weight = weightAt nodes k.index
  liveIff : ∀ i, i ∈ live.map Key.index ↔ IsLive nodes nodes.length i
  merges : ∀ k, leaves.length ≤ k → k < nodes.length → IsGreedyMerge nodes k
  oneParent : ∀ i, i < nodes.length → i ∉ live.map Key.index → ∃! j, IsChild nodes j i
  total : (live.map Key.weight).sum = (leaves.map nodeWeight).sum

theorem MergeInv.step {leaves nodes : List Node} {live rest rest' : List Key} {a b : Key}
    (h : MergeInv leaves nodes live) (ha : extractMin live = some (a, rest))
    (hb : extractMin rest = some (b, rest')) :
    MergeInv leaves (nodes ++ [.internal (BitVec.ofNat 9 a.index) (BitVec.ofNat 9 b.index) (a.weight + b.weight)])
      (rest' ++ [{ weight := a.weight + b.weight, index := nodes.length }]) := by
  obtain ⟨ham, hrest, hamin⟩ := extractMin_spec ha
  obtain ⟨hbm, hrest', hbmin⟩ := extractMin_spec hb
  set N := nodes.length with hN
  have hlive : live.Nodup := h.nodup.of_map
  have hmemrest : ∀ x, x ∈ rest ↔ x ≠ a ∧ x ∈ live := by
    intro x; rw [hrest]; exact hlive.mem_erase_iff
  have hrestnd : rest.Nodup := by rw [hrest]; exact hlive.erase _
  have hmemrest' : ∀ x, x ∈ rest' ↔ x ≠ b ∧ x ∈ rest := by
    intro x; rw [hrest']; exact hrestnd.mem_erase_iff
  have hrest'nd : rest'.Nodup := by rw [hrest']; exact hrestnd.erase _
  have hbl : b ∈ live := ((hmemrest b).1 hbm).2
  have hba : b ≠ a := ((hmemrest b).1 hbm).1
  have hinj : ∀ x ∈ live, ∀ y ∈ live, x.index = y.index → x = y :=
    fun x hx y hy hxy => List.inj_on_of_nodup_map h.nodup hx hy hxy
  have hlen1 : rest.length = live.length - 1 := by rw [hrest, List.length_erase_of_mem ham]
  have hlen2 : rest'.length = rest.length - 1 := by rw [hrest', List.length_erase_of_mem hbm]
  have hpos1 : 0 < live.length := List.length_pos_of_mem ham
  have hpos2 : 0 < rest.length := List.length_pos_of_mem hbm
  have hsz := h.size
  have hbd := h.bound
  have hNb : N < 512 := by omega
  have haN := (h.keys a ham).1
  have hbN := (h.keys b hbl).1
  have haw := (h.keys a ham).2
  have hbw := (h.keys b hbl).2
  have hta : (BitVec.ofNat 9 a.index).toNat = a.index := by
    rw [BitVec.toNat_ofNat]; exact Nat.mod_eq_of_lt (by omega)
  have htb : (BitVec.ofNat 9 b.index).toNat = b.index := by
    rw [BitVec.toNat_ofNat]; exact Nat.mod_eq_of_lt (by omega)
  set x := Node.internal (BitVec.ofNat 9 a.index) (BitVec.ofNat 9 b.index) (a.weight + b.weight) with hx
  have habne : a.index ≠ b.index := fun hh => hba (hinj b hbl a ham hh.symm)
  have hchild : ∀ j i, IsChild (nodes ++ [x]) j i ↔
      IsChild nodes j i ∨ (j = N ∧ (i = a.index ∨ i = b.index)) := by
    intro j i
    rcases lt_trichotomy j N with hj | hj | hj
    · rw [isChild_append_of_lt x hj]
      exact ⟨.inl, fun hh => hh.elim id fun hh => by omega⟩
    · subst hj
      constructor
      · rintro ⟨l, r, w, hn, hc⟩
        rw [List.getElem?_append_right (by omega)] at hn
        simp only [hN, Nat.sub_self, List.getElem?_cons_zero, Option.some.injEq, hx, Node.internal.injEq] at hn
        obtain ⟨rfl, rfl, -⟩ := hn
        rw [hta, htb] at hc
        exact .inr ⟨rfl, hc.imp Eq.symm Eq.symm⟩
      · rintro (hh | ⟨-, hh⟩)
        · exact absurd hh.lt (by omega)
        · refine ⟨BitVec.ofNat 9 a.index, BitVec.ofNat 9 b.index, a.weight + b.weight, ?_, ?_⟩
          · rw [List.getElem?_append_right (by omega)]
            simp only [hN, Nat.sub_self, List.getElem?_cons_zero]
            rfl
          · rw [hta, htb]; exact hh.imp Eq.symm Eq.symm
    · constructor
      · intro hh
        have := hh.lt
        simp at this
        omega
      · rintro (hh | hh)
        · exact absurd hh.lt (by omega)
        · omega
  have hidx : ∀ i, i ∈ (rest' ++ [({ weight := a.weight + b.weight, index := N } : Key)]).map Key.index ↔
      (i ∈ live.map Key.index ∧ i ≠ a.index ∧ i ≠ b.index) ∨ i = N := by
    intro i
    simp only [List.map_append, List.map_cons, List.map_nil, List.mem_append, List.mem_singleton, List.mem_map]
    constructor
    · rintro (⟨k, hk, rfl⟩ | rfl)
      · obtain ⟨hkb, hkr⟩ := (hmemrest' k).1 hk
        obtain ⟨hka, hkl⟩ := (hmemrest k).1 hkr
        exact .inl ⟨⟨k, hkl, rfl⟩, fun hh => hka (hinj k hkl a ham hh), fun hh => hkb (hinj k hkl b hbl hh)⟩
      · exact .inr rfl
    · rintro (⟨⟨k, hkl, rfl⟩, hka, hkb⟩ | rfl)
      · refine .inl ⟨k, (hmemrest' k).2 ⟨?_, (hmemrest k).2 ⟨?_, hkl⟩⟩, rfl⟩
        · rintro rfl; exact hkb rfl
        · rintro rfl; exact hka rfl
      · exact .inr rfl
  have hliveN : ∀ k ∈ live, IsLive nodes N k.index := fun k hk => (h.liveIff _).1 (List.mem_map_of_mem hk)
  have hbefore : ∀ k ∈ live, k ≠ a → Earlier nodes a.index k.index := by
    intro k hk hka
    have h1 := hamin k hk
    rw [← Bool.not_eq_true, Key.before_iff] at h1
    have hne : k.index ≠ a.index := fun hh => hka (hinj k hk a ham hh)
    have hkw := (h.keys k hk).2
    unfold Earlier
    rw [← haw, ← hkw]
    by_cases hlt : a.weight.toNat < k.weight.toNat
    · exact .inl hlt
    · refine .inr ⟨BitVec.eq_of_toNat_eq ?_, ?_⟩ <;> omega
  have hbefore2 : ∀ k ∈ live, k ≠ a → k ≠ b → Earlier nodes b.index k.index := by
    intro k hk hka hkb
    have h1 := hbmin k ((hmemrest k).2 ⟨hka, hk⟩)
    rw [← Bool.not_eq_true, Key.before_iff] at h1
    have hne : k.index ≠ b.index := fun hh => hkb (hinj k hk b hbl hh)
    have hkw := (h.keys k hk).2
    unfold Earlier
    rw [← hbw, ← hkw]
    by_cases hlt : b.weight.toNat < k.weight.toNat
    · exact .inl hlt
    · refine .inr ⟨BitVec.eq_of_toNat_eq ?_, ?_⟩ <;> omega
  refine ⟨hbd, h.allLeaves, ?_, ?_, ?_, by simp, ?_, ?_, ?_, ?_, ?_, ?_⟩
  · simp only [List.length_append, List.length_singleton]; omega
  · rw [List.take_append_of_le_length h.enough]; exact h.leavesFirst
  · rw [List.length_append]; exact le_trans h.enough (by omega)
  · rw [List.map_append, List.nodup_append]
    refine ⟨?_, by simp, ?_⟩
    · rw [List.nodup_map_iff_inj_on hrest'nd]
      intro u hu v hv huv
      exact hinj u ((hmemrest u).1 ((hmemrest' u).1 hu).2).2 v ((hmemrest v).1 ((hmemrest' v).1 hv).2).2 huv
    · intro i hi j hj
      simp only [List.map_cons, List.map_nil, List.mem_singleton] at hj
      subst hj
      rw [List.mem_map] at hi
      obtain ⟨k, hk, rfl⟩ := hi
      have := (h.keys k ((hmemrest k).1 ((hmemrest' k).1 hk).2).2).1
      show k.index ≠ N
      omega
  · intro k hk
    rcases List.mem_append.1 hk with hk | hk
    · have hkl := ((hmemrest k).1 ((hmemrest' k).1 hk).2).2
      obtain ⟨h1, h2⟩ := h.keys k hkl
      refine ⟨by rw [List.length_append]; omega, ?_⟩
      rw [weightAt_append x h1]; exact h2
    · rw [List.mem_singleton] at hk
      subst hk
      refine ⟨by simp [hN], ?_⟩
      rw [hN, weightAt_append_self]
      rfl
  · intro i
    rw [hidx, List.length_append, List.length_singleton]
    constructor
    · rintro (⟨hil, hia, hib⟩ | rfl)
      · obtain ⟨h1, h2⟩ := (h.liveIff i).1 hil
        refine ⟨by omega, fun j hj hc => ?_⟩
        rcases (hchild j i).1 hc with hc | ⟨-, hc⟩
        · exact h2 j hc.lt hc
        · exact hc.elim hia hib
      · refine ⟨by omega, fun j hj hc => ?_⟩
        rcases (hchild j N).1 hc with hc | ⟨-, hc⟩
        · have hjl := hc.lt
          obtain ⟨l, r, w, hn, hor⟩ := hc
          have hle : leaves.length ≤ j := by
            by_contra hlt
            have h3 : nodes[j]? = leaves[j]? := by
              rw [← h.leavesFirst, List.getElem?_take, if_pos (by omega)]
            rw [h3] at hn
            exact h.allLeaves _ (List.mem_of_getElem? hn) l r w rfl
          obtain ⟨l', r', w', hn', hl, hr, -⟩ := h.merges j hle hjl
          rw [hn] at hn'
          cases hn'
          have := hl.1
          have := hr.1
          omega
        · omega
    · rintro ⟨hiN, hno⟩
      by_cases hiN' : i = N
      · exact .inr hiN'
      · refine .inl ⟨(h.liveIff i).2 ⟨by omega, fun j hj hc => hno j (by omega) ((hchild j i).2 (.inl hc))⟩, ?_, ?_⟩
        · rintro rfl
          exact hno N (by omega) ((hchild N _).2 (.inr ⟨rfl, .inl rfl⟩))
        · rintro rfl
          exact hno N (by omega) ((hchild N _).2 (.inr ⟨rfl, .inr rfl⟩))
  · intro k hk hkN
    rw [List.length_append, List.length_singleton] at hkN
    rcases lt_or_eq_of_le (Nat.lt_succ_iff.1 hkN) with hk' | hk'
    · exact isGreedyMerge_append x hk' (h.merges k hk hk')
    · refine ⟨BitVec.ofNat 9 a.index, BitVec.ofNat 9 b.index, a.weight + b.weight, ?_, ?_, ?_, ?_, ?_, ?_, ?_⟩
      · rw [hk', List.getElem?_append_right (by omega)]
        simp [hx]
      · rw [hta, hk', isLive_append x (by omega)]; exact hliveN a ham
      · rw [htb, hk', isLive_append x (by omega)]; exact hliveN b hbl
      · rw [hta, htb, earlier_append x haN hbN]; exact hbefore b hbl hba
      · intro i hi hne
        rw [hk', isLive_append x (by omega)] at hi
        rw [hta] at hne ⊢
        obtain ⟨q, hq, rfl⟩ := List.mem_map.1 ((h.liveIff i).2 hi)
        rw [earlier_append x haN hi.1]
        exact hbefore q hq (by rintro rfl; exact hne rfl)
      · intro i hi hne hne2
        rw [hk', isLive_append x (by omega)] at hi
        rw [hta] at hne
        rw [htb] at hne2 ⊢
        obtain ⟨q, hq, rfl⟩ := List.mem_map.1 ((h.liveIff i).2 hi)
        rw [earlier_append x hbN hi.1]
        exact hbefore2 q hq (by rintro rfl; exact hne rfl) (by rintro rfl; exact hne2 rfl)
      · rw [hta, htb, weightAt_append x haN, weightAt_append x hbN, ← haw, ← hbw]
  · intro i hi hni
    rw [hidx] at hni
    push Not at hni
    obtain ⟨hni, hiN⟩ := hni
    have hiN' : i < N := by
      rw [List.length_append, List.length_singleton] at hi
      omega
    by_cases hil : i ∈ live.map Key.index
    · refine ⟨N, (hchild N i).2 (.inr ⟨rfl, ?_⟩), ?_⟩
      · by_contra hcon
        push Not at hcon
        exact absurd (hni hil hcon.1) hcon.2
      · intro j hj
        rcases (hchild j i).1 hj with hc | hc
        · exact absurd hc (((h.liveIff i).1 hil).2 j hc.lt)
        · exact hc.1
    · obtain ⟨j, hj, huniq⟩ := h.oneParent i hiN' hil
      refine ⟨j, (hchild j i).2 (.inl hj), ?_⟩
      intro j' hj'
      rcases (hchild j' i).1 hj' with hc | ⟨-, hc⟩
      · exact huniq j' hc
      · exfalso
        rcases hc with rfl | rfl
        · exact hil (List.mem_map_of_mem ham)
        · exact hil (List.mem_map_of_mem hbl)
  · rw [← h.total]
    have p1 : live.Perm (a :: rest) := by rw [hrest]; exact List.perm_cons_erase ham
    have p2 : rest.Perm (b :: rest') := by rw [hrest']; exact List.perm_cons_erase hbm
    have e1 := (p1.map Key.weight).sum_eq
    have e2 := (p2.map Key.weight).sum_eq
    rw [List.map_append, List.sum_append, e1, List.map_cons (l := rest), List.sum_cons, e2]
    simp only [List.map_cons, List.map_nil, List.sum_cons, List.sum_nil]
    ring

/-- The loop ends with one member in LIVE. -/
theorem mergeLoop_spec {leaves : List Node} (fuel : Nat) {nodes : List Node} {live : List Key}
    (h : MergeInv leaves nodes live) (hf : live.length ≤ fuel + 1) :
    MergeInv leaves (mergeLoop fuel nodes live).1 (mergeLoop fuel nodes live).2 ∧
      (mergeLoop fuel nodes live).2.length = 1 := by
  induction fuel generalizing nodes live with
  | zero =>
    have := List.length_pos_iff.2 h.nonempty
    exact ⟨h, by simp only [mergeLoop]; omega⟩
  | succ fuel ih =>
    rw [mergeLoop]
    cases ha : extractMin live with
    | none => exact absurd (extractMin_eq_none.1 ha) h.nonempty
    | some p =>
      obtain ⟨a, rest⟩ := p
      obtain ⟨ham, hrest, -⟩ := extractMin_spec ha
      have hlen : rest.length = live.length - 1 := by rw [hrest, List.length_erase_of_mem ham]
      have hpos := List.length_pos_of_mem ham
      cases hb : extractMin rest with
      | none =>
        rw [extractMin_eq_none.1 hb, List.length_nil] at hlen
        simp only [hb]
        exact ⟨h, by omega⟩
      | some q =>
        obtain ⟨b, rest'⟩ := q
        obtain ⟨hbm, hrest', -⟩ := extractMin_spec hb
        have hlen' : rest'.length = rest.length - 1 := by rw [hrest', List.length_erase_of_mem hbm]
        have hpos' := List.length_pos_of_mem hbm
        simp only [hb]
        apply ih (h.step ha hb)
        rw [List.length_append, List.length_singleton]
        omega

theorem initialLive_index (nodes : List Node) : (initialLive nodes).map Key.index = List.range nodes.length := by
  rw [initialLive, List.map_map]
  apply List.ext_getElem?
  intro i
  simp only [List.getElem?_map, List.getElem?_zipIdx, Option.map_map]
  by_cases hi : i < nodes.length
  · simp [hi]
  · simp [hi]

theorem mem_initialLive {nodes : List Node} {k : Key} (h : k ∈ initialLive nodes) :
    k.index < nodes.length ∧ k.weight = weightAt nodes k.index := by
  simp only [initialLive, List.mem_map] at h
  obtain ⟨⟨n, i⟩, he, rfl⟩ := h
  rw [List.mem_zipIdx_iff_getElem?] at he
  have hi : i < nodes.length := by
    by_contra hlt
    rw [List.getElem?_eq_none (by omega)] at he
    cases he
  exact ⟨hi, by simp only at he; simp [weightAt, he]⟩

/-- The arena and LIVE before the first pass. -/
theorem mergeInv_initial {leaves : List Node} (hb : leaves.length ≤ 256) (hne : leaves ≠ [])
    (hl : ∀ n ∈ leaves, ∀ l r w, n ≠ .internal l r w) : MergeInv leaves leaves (initialLive leaves) := by
  have hlen : (initialLive leaves).length = leaves.length := by simp [initialLive]
  have hno : ∀ j i, ¬ IsChild leaves j i := by
    rintro j i ⟨l, r, w, hn, -⟩
    exact hl _ (List.mem_of_getElem? hn) l r w rfl
  refine ⟨hb, hl, by omega, List.take_length, le_refl _, ?_, ?_, fun k hk => mem_initialLive hk, ?_, ?_, ?_, ?_⟩
  · intro h; rw [h] at hlen; exact hne (List.length_eq_zero_iff.1 hlen.symm)
  · rw [initialLive_index]; exact List.nodup_range
  · intro i
    rw [initialLive_index, List.mem_range]
    exact ⟨fun h => ⟨h, fun j _ => hno j i⟩, fun h => h.1⟩
  · intro k h1 h2; omega
  · intro i hi hni
    rw [initialLive_index, List.mem_range] at hni
    exact absurd hi hni
  · congr 1
    rw [initialLive, List.map_map]
    apply List.ext_getElem?
    intro i
    simp only [List.getElem?_map, List.getElem?_zipIdx, Option.map_map]
    cases leaves[i]? <;> rfl

theorem leafNodes_length (freq : SymMap Word) : (leafNodes freq).length = distinctCount freq := by
  rw [leafNodes, List.length_map, distinctCount, List.countP_eq_length_filter]

theorem distinctCount_pos {freq : SymMap Word} : 0 < distinctCount freq ↔ ∃ b, freqAt freq b ≠ 0 := by
  rw [distinctCount, List.countP_pos_iff]
  simp

/-- BUILD's algorithm on a Frequency Map with a key: the tree of 41_tree_builder.md R123 and R124. -/
theorem buildTree_spec {freq : SymMap Word} (h : ∃ b, freqAt freq b ≠ 0) :
    ∃ nodes root, buildTree freq = some (nodes, root) ∧ root < 511 ∧
      TreeOk freq (distinctCount freq) nodes root ∧
      weightAt nodes root = ((leafNodes freq).map nodeWeight).sum := by
  have hpos := distinctCount_pos.2 h
  have hle := distinctCount_le freq
  have hlen := leafNodes_length freq
  have hall : ∀ n ∈ leafNodes freq, ∀ l r w, n ≠ .internal l r w := by
    intro n hn l r w hh
    simp only [leafNodes, List.mem_map] at hn
    obtain ⟨s, -, rfl⟩ := hn
    cases hh
  have hinit := mergeInv_initial (by omega) (by rintro hnil; rw [hnil, List.length_nil] at hlen; omega) hall
  have hspec := mergeLoop_spec (leafNodes freq).length hinit (by simp [initialLive])
  rw [buildTree]
  generalize hr : mergeLoop (leafNodes freq).length (leafNodes freq) (initialLive (leafNodes freq)) = res at hspec
  obtain ⟨nodes, live⟩ := res
  obtain ⟨hinv, hone⟩ := hspec
  simp only at hinv hone
  obtain ⟨r, rfl⟩ := List.length_eq_one_iff.1 hone
  have hsize := hinv.size
  rw [List.length_singleton, hlen] at hsize
  have hroot : r.index = nodes.length - 1 := by
    have hrlt := (hinv.keys r (by simp)).1
    by_contra hne
    -- the last record has no parent, so it is live
    have hlast : IsLive nodes nodes.length (nodes.length - 1) := by
      refine ⟨by omega, fun j hj hc => ?_⟩
      have hjl := hc.lt
      by_cases hjn : (leafNodes freq).length ≤ j
      · obtain ⟨l, r', w, hn, hl, hr', -⟩ := hinv.merges j hjn hjl
        obtain ⟨l2, r2, w2, hn2, hor⟩ := hc
        rw [hn] at hn2
        cases hn2
        have := hl.1
        have := hr'.1
        omega
      · obtain ⟨l2, r2, w2, hn2, -⟩ := hc
        have h3 : nodes[j]? = (leafNodes freq)[j]? := by
          conv_rhs => rw [← hinv.leavesFirst]
          rw [List.getElem?_take, if_pos (by omega)]
        rw [h3] at hn2
        exact hall _ (List.mem_of_getElem? hn2) _ _ _ rfl
    have := (hinv.liveIff _).2 hlast
    simp only [List.map_cons, List.map_nil, List.mem_singleton] at this
    exact hne this.symm
  refine ⟨nodes, r.index, by simp only, by omega, ⟨hpos, ?_, by omega, hroot, ?_, ?_⟩, ?_⟩
  · rw [← hlen]; exact hinv.leavesFirst
  · intro k h1 h2; exact hinv.merges k (by omega) h2
  · intro i hi hne
    exact hinv.oneParent i hi (by simpa using hne)
  · rw [← (hinv.keys r (by simp)).2, ← hinv.total]
    simp

end Sys2Proof.Machine
end

