-- ==== Sys2Proof/Laws/Assigner.lean ====
section
/-! SUPPORT. The code assigner: paths in a tree BUILD makes, and the table the traversal writes. -/

namespace Sys2Proof.Machine

/-! Paths -/

theorem walk_append (nodes : List Node) (p q : BitString) (i : Nat) :
    walk nodes i (p ++ q) = (walk nodes i p).bind fun j => walk nodes j q := by
  induction p generalizing i with
  | nil => rfl
  | cons b p ih =>
    rw [List.cons_append, walk, walk]
    split
    · exact ih _
    · rfl

theorem leadsTo_nil {nodes : List Node} {i : Nat} {s : Byte} :
    LeadsTo nodes i [] s ↔ ∃ w, nodes[i]? = some (.leaf s w) := by
  simp [LeadsTo, walk]

theorem leadsTo_cons {nodes : List Node} {i : Nat} {b : Bool} {p : BitString} {s : Byte} :
    LeadsTo nodes i (b :: p) s ↔ ∃ l r w, nodes[i]? = some (.internal l r w) ∧
      LeadsTo nodes (if b then r.toNat else l.toNat) p s := by
  simp only [LeadsTo, walk]
  split
  · rename_i l r w hn
    simp [hn]
  · rename_i hn
    constructor
    · rintro ⟨_, _, h, _⟩; cases h
    · rintro ⟨l, r, w, h, -⟩; exact absurd h (hn l r w)

/-- No path goes on from a leaf. -/
theorem walk_leaf {nodes : List Node} {i : Nat} {s : Byte} {w : Word} (h : nodes[i]? = some (.leaf s w))
    {p : BitString} {j : Nat} (hw : walk nodes i p = some j) : p = [] := by
  cases p with
  | nil => rfl
  | cons b p => rw [walk, h] at hw; cases hw

/-- Every link of an arena goes down. -/
def LinksDown (nodes : List Node) : Prop := ∀ j i, IsChild nodes j i → i < j

/-! What holds of a tree BUILD makes -/

section tree

variable {freq : SymMap Word} {n root : Nat} {nodes : List Node}

theorem expectedLeaves_length (freq : SymMap Word) : (expectedLeaves freq).length = distinctCount freq :=
  leafNodes_length freq

theorem TreeOk.count (h : TreeOk freq n nodes root) : n = distinctCount freq := by
  have h1 := congrArg List.length h.leaves
  have := h.size
  have := h.positive
  rw [List.length_take, expectedLeaves_length] at h1
  omega

theorem TreeOk.le (h : TreeOk freq n nodes root) : n ≤ 256 := by
  rw [h.count]; exact distinctCount_le freq

/-- The records below n are the leaves, and only they are leaves. -/
theorem TreeOk.leaf_iff (h : TreeOk freq n nodes root) {i : Nat} :
    (∃ s w, nodes[i]? = some (.leaf s w)) ↔ i < n := by
  have hsz := h.size
  have hp := h.positive
  constructor
  · rintro ⟨s, w, hn⟩
    by_contra hlt
    have hi : i < nodes.length := by
      by_contra hge
      rw [List.getElem?_eq_none (by omega)] at hn
      cases hn
    obtain ⟨l, r, w', hn', -⟩ := h.merges i (by omega) hi
    rw [hn] at hn'
    cases hn'
  · intro hi
    have h1 : nodes[i]? = (expectedLeaves freq)[i]? := by
      rw [← h.leaves, List.getElem?_take, if_pos hi]
    have hlt : i < nodes.length := by omega
    have h2 : nodes[i] ∈ expectedLeaves freq := by
      apply List.mem_of_getElem? (i := i)
      rw [← h1, List.getElem?_eq_getElem hlt]
    simp only [expectedLeaves, List.mem_map] at h2
    obtain ⟨s, -, hs⟩ := h2
    exact ⟨s, freqAt freq s, by rw [List.getElem?_eq_getElem hlt, ← hs]⟩

theorem TreeOk.internal (h : TreeOk freq n nodes root) {i : Nat} {l r : BitVec 9} {w : Word}
    (hn : nodes[i]? = some (.internal l r w)) : n ≤ i ∧ l.toNat < i ∧ r.toNat < i ∧ l.toNat ≠ r.toNat := by
  have hni : n ≤ i := by
    by_contra hlt
    obtain ⟨s, w', hn'⟩ := h.leaf_iff.2 (Nat.lt_of_not_le hlt)
    rw [hn] at hn'
    cases hn'
  have hlt : i < nodes.length := by
    by_contra hge
    rw [List.getElem?_eq_none (by omega)] at hn
    cases hn
  obtain ⟨l', r', w', hn', hl, hr, he, -⟩ := h.merges i hni hlt
  rw [hn] at hn'
  cases hn'
  refine ⟨hni, hl.1, hr.1, ?_⟩
  intro hh
  rw [hh] at he
  unfold Earlier at he
  omega

theorem TreeOk.linksDown (h : TreeOk freq n nodes root) : LinksDown nodes := by
  rintro j i ⟨l, r, w, hn, hor⟩
  obtain ⟨-, h1, h2, -⟩ := h.internal hn
  omega

theorem TreeOk.child_lt (h : TreeOk freq n nodes root) {j i : Nat} (hc : IsChild nodes j i) :
    i < nodes.length := lt_trans (h.linksDown j i hc) hc.lt

/-- A path from the root has at most n - 1 bits (42_code_assigner.md R141). -/
theorem TreeOk.walk_length (h : TreeOk freq n nodes root) {p : BitString} {i j : Nat} (hi : i < nodes.length)
    (hw : walk nodes i p = some j) : p.length ≤ i + 1 - n := by
  induction p generalizing i with
  | nil => simp
  | cons b p ih =>
    rw [walk] at hw
    split at hw
    · rename_i l r w hn
      obtain ⟨h1, h2, h3, -⟩ := h.internal hn
      have := ih (i := if b then r.toNat else l.toNat) (by split <;> omega) hw
      rw [List.length_cons]
      split at this <;> omega
    · cases hw

/-- Two paths from the root to one record are the same path: no record is shared. -/
theorem TreeOk.walk_inj (h : TreeOk freq n nodes root) (p q : BitString) {j : Nat}
    (hp : walk nodes root p = some j) (hq : walk nodes root q = some j) : p = q := by
  have hroot : root < nodes.length := by have := h.rootLast; have := h.size; have := h.positive; omega
  have hlast : ∀ (p : BitString) (b : Bool) (j : Nat), walk nodes root (p ++ [b]) = some j →
      ∃ k l r w, walk nodes root p = some k ∧ nodes[k]? = some (.internal l r w) ∧
        j = if b then r.toNat else l.toNat := by
    intro p b j hw
    rw [walk_append, Option.bind_eq_some_iff] at hw
    obtain ⟨k, hk, hw⟩ := hw
    simp only [walk] at hw
    split at hw
    · rename_i l r w hn
      exact ⟨k, l, r, w, hk, hn, (Option.some.inj hw).symm⟩
    · cases hw
  have hnotroot : ∀ (p : BitString) (b : Bool), walk nodes root (p ++ [b]) ≠ some root := by
    intro p b hw
    obtain ⟨k, l, r, w, -, hn, hj⟩ := hlast p b root hw
    have hc : IsChild nodes k root := ⟨l, r, w, hn, by cases b <;> simp_all⟩
    have h1 := h.linksDown k root hc
    have h2 := hc.lt
    have := h.rootLast
    omega
  induction p using List.reverseRecOn generalizing q j with
  | nil =>
    simp only [walk, Option.some.injEq] at hp
    subst hp
    cases q using List.reverseRecOn with
    | nil => rfl
    | append_singleton q b => exact absurd hq (hnotroot q b)
  | append_singleton p b ih =>
    cases q using List.reverseRecOn with
    | nil =>
      simp only [walk, Option.some.injEq] at hq
      subst hq
      exact absurd hp (hnotroot p b)
    | append_singleton q b' =>
      obtain ⟨k, l, r, w, hk, hn, hj⟩ := hlast p b j hp
      obtain ⟨k', l', r', w', hk', hn', hj'⟩ := hlast q b' j hq
      have hc : IsChild nodes k j := ⟨l, r, w, hn, by cases b <;> simp_all⟩
      have hc' : IsChild nodes k' j := ⟨l', r', w', hn', by cases b' <;> simp_all⟩
      have hjr : j ≠ root := by rintro rfl; exact hnotroot p b hp
      have hkk := (h.oneParent j (h.child_lt hc) hjr).unique hc hc'
      subst hkk
      rw [hn] at hn'
      cases hn'
      have hne := (h.internal hn).2.2.2
      have hbb : b = b' := by cases b <;> cases b' <;> simp_all
      rw [ih q hk hk', hbb]

/-- Every record is reached from the root. -/
theorem TreeOk.reached (h : TreeOk freq n nodes root) {i : Nat} (hi : i < nodes.length) :
    ∃ p, walk nodes root p = some i := by
  have hroot := h.rootLast
  induction hd : root - i using Nat.strong_induction_on generalizing i with
  | _ d ih =>
    by_cases hir : i = root
    · exact ⟨[], by simp [walk, hir]⟩
    · obtain ⟨j, hj, -⟩ := h.oneParent i hi hir
      have hij := h.linksDown j i hj
      have hjl := hj.lt
      obtain ⟨p, hp⟩ := ih (root - j) (by omega) hjl rfl
      obtain ⟨l, r, w, hn, hor⟩ := hj
      rcases hor with rfl | rfl
      · exact ⟨p ++ [false], by rw [walk_append, hp]; simp [walk, hn]⟩
      · exact ⟨p ++ [true], by rw [walk_append, hp]; simp [walk, hn]⟩

theorem expectedLeaves_getElem? (freq : SymMap Word) (i : Nat) :
    (expectedLeaves freq)[i]? =
      ((symbols.filter fun s => freqAt freq s ≠ 0)[i]?).map fun s => Node.leaf s (freqAt freq s) := by
  rw [expectedLeaves, List.getElem?_map]

/-- Each symbol has one leaf, and it has one exactly when it is a key of the Frequency Map. -/
theorem TreeOk.leaf_inj (h : TreeOk freq n nodes root) {i j : Nat} {s : Byte} {w w' : Word}
    (hi : nodes[i]? = some (.leaf s w)) (hj : nodes[j]? = some (.leaf s w')) : i = j := by
  have key : ∀ {k : Nat} {v : Word}, nodes[k]? = some (.leaf s v) →
      (symbols.filter fun s => decide (freqAt freq s ≠ 0))[k]? = some s := by
    intro k v hk
    have hkn := h.leaf_iff.1 ⟨s, v, hk⟩
    have h1 : nodes[k]? = (expectedLeaves freq)[k]? := by rw [← h.leaves, List.getElem?_take, if_pos hkn]
    rw [hk, expectedLeaves_getElem?] at h1
    cases hs : (symbols.filter fun s => decide (freqAt freq s ≠ 0))[k]? with
    | none => rw [hs] at h1; cases h1
    | some s' => rw [hs] at h1; simp only [Option.map_some, Option.some.injEq, Node.leaf.injEq] at h1; rw [h1.1]
  have hnd : (symbols.filter fun s => decide (freqAt freq s ≠ 0)).Nodup := symbols_nodup.filter _
  have h1 := key hi
  have h2 := key hj
  exact (List.getElem?_inj (by
    by_contra hge
    rw [List.getElem?_eq_none (by omega)] at h1
    cases h1) hnd).1 (h1.trans h2.symm)

theorem TreeOk.leaf_exists (h : TreeOk freq n nodes root) {s : Byte} :
    (∃ (i : Nat) (w : Word), nodes[i]? = some (Node.leaf s w)) ↔ freqAt freq s ≠ 0 := by
  constructor
  · rintro ⟨i, w, hi⟩
    have hin := h.leaf_iff.1 ⟨s, w, hi⟩
    have h1 : nodes[i]? = (expectedLeaves freq)[i]? := by rw [← h.leaves, List.getElem?_take, if_pos hin]
    rw [hi] at h1
    have hm := List.mem_of_getElem? h1.symm
    simp only [expectedLeaves, List.mem_map, List.mem_filter, Node.leaf.injEq] at hm
    obtain ⟨s', ⟨-, hs'⟩, rfl, -⟩ := hm
    simpa using hs'
  · intro hs
    have hm : Node.leaf s (freqAt freq s) ∈ expectedLeaves freq := by
      simp only [expectedLeaves, List.mem_map, List.mem_filter]
      exact ⟨s, ⟨mem_symbols s, by simpa using hs⟩, rfl⟩
    rw [← h.leaves] at hm
    obtain ⟨i, hi⟩ := List.mem_iff_getElem?.1 (List.mem_of_mem_take hm)
    exact ⟨i, _, hi⟩

/-- One path leads to each symbol's leaf. -/
theorem TreeOk.leadsTo_inj (h : TreeOk freq n nodes root) {p q : BitString} {s : Byte}
    (hp : LeadsTo nodes root p s) (hq : LeadsTo nodes root q s) : p = q := by
  obtain ⟨i, w, hi, hl⟩ := hp
  obtain ⟨j, w', hj, hl'⟩ := hq
  have := h.leaf_inj hl hl'
  subst this
  exact h.walk_inj p q hi hj

end tree

/-! The traversal -/

/-- What the traversal from node i writes: each leaf below i gets the path to it, every other symbol keeps its
code. -/
theorem visit_spec {nodes : List Node} (hd : LinksDown nodes) (fuel : Nat) {i : Nat} {path : BitString}
    {code : SymMap BitString} (hi : i < nodes.length) (hf : i < fuel)
    (hlen : ∀ p j, walk nodes i p = some j → path.length + p.length ≤ 255)
    (hinj : ∀ p q s, LeadsTo nodes i p s → LeadsTo nodes i q s → p = q)
    (hwf : SymMap.wf [] code = true) :
    ∃ code', visit nodes fuel i path code = .ok code' ∧ SymMap.wf [] code' = true ∧
      (∀ p s, LeadsTo nodes i p s → codeAt code' s = path ++ p) ∧
      ∀ s, (∀ p, ¬ LeadsTo nodes i p s) → codeAt code' s = codeAt code s := by
  induction fuel generalizing i path code with
  | zero => omega
  | succ fuel ih =>
    rw [visit]
    cases hn : nodes[i]? with
    | none =>
      rw [List.getElem?_eq_none_iff] at hn
      omega
    | some x =>
      cases x with
      | leaf sym w =>
        have hpl := hlen [] i rfl
        rw [List.length_nil, Nat.add_zero] at hpl
        simp only
        rw [if_neg (by omega)]
        refine ⟨_, rfl, setCode_wf hwf _ _, ?_, ?_⟩
        · intro p s hp
          cases p with
          | nil =>
            obtain ⟨w', hw'⟩ := leadsTo_nil.1 hp
            rw [hn] at hw'
            cases hw'
            rw [codeAt_setCode hwf, if_pos rfl, List.append_nil]
          | cons b p =>
            obtain ⟨l, r, w', hw', -⟩ := leadsTo_cons.1 hp
            rw [hn] at hw'
            cases hw'
        · intro s hs
          have : sym ≠ s := by
            rintro rfl
            exact hs [] (leadsTo_nil.2 ⟨w, hn⟩)
          rw [codeAt_setCode hwf, if_neg this]
      | internal l r w =>
        have hl : l.toNat < i := hd i _ ⟨l, r, w, hn, .inl rfl⟩
        have hr : r.toNat < i := hd i _ ⟨l, r, w, hn, .inr rfl⟩
        have hL : ∀ p s, LeadsTo nodes l.toNat p s → LeadsTo nodes i (false :: p) s :=
          fun p s hp => leadsTo_cons.2 ⟨l, r, w, hn, by simpa using hp⟩
        have hR : ∀ p s, LeadsTo nodes r.toNat p s → LeadsTo nodes i (true :: p) s :=
          fun p s hp => leadsTo_cons.2 ⟨l, r, w, hn, by simpa using hp⟩
        obtain ⟨c1, he1, hw1, hy1, hn1⟩ := ih (i := l.toNat) (path := path ++ [false]) (code := code)
          (by omega) (by omega)
          (by
            intro p j hp
            have := hlen (false :: p) j (by rw [walk, hn]; simpa using hp)
            simp only [List.length_append, List.length_cons, List.length_nil] at *
            omega)
          (fun p q s hp hq => List.tail_eq_of_cons_eq (hinj _ _ s (hL p s hp) (hL q s hq))) hwf
        obtain ⟨c2, he2, hw2, hy2, hn2⟩ := ih (i := r.toNat) (path := path ++ [true]) (code := c1)
          (by omega) (by omega)
          (by
            intro p j hp
            have := hlen (true :: p) j (by rw [walk, hn]; simpa using hp)
            simp only [List.length_append, List.length_cons, List.length_nil] at *
            omega)
          (fun p q s hp hq => List.tail_eq_of_cons_eq (hinj _ _ s (hR p s hp) (hR q s hq))) hw1
        simp only [he1, he2]
        refine ⟨c2, rfl, hw2, ?_, ?_⟩
        · intro p s hp
          cases p with
          | nil =>
            obtain ⟨w', hw'⟩ := leadsTo_nil.1 hp
            rw [hn] at hw'
            cases hw'
          | cons b p =>
            obtain ⟨l', r', w', hw', hq⟩ := leadsTo_cons.1 hp
            rw [hn] at hw'
            cases hw'
            cases b with
            | false =>
              simp only [Bool.false_eq_true, if_false] at hq
              rw [hn2 s, hy1 p s hq]
              · simp
              · intro q hq'
                have := hinj _ _ s hp (hR q s hq')
                simp at this
            | true =>
              simp only [if_true] at hq
              rw [hy2 p s hq]
              simp
        · intro s hs
          rw [hn2 s fun p hp => hs _ (hR p s hp), hn1 s fun p hp => hs _ (hL p s hp)]

/-- ASSIGN on a tree BUILD makes: a table with each key's path as its code, which meets the Code Table invariant
(42_code_assigner.md R136 to R141). -/
theorem assignCodes_spec {freq : SymMap Word} {n root : Nat} {nodes : List Node} (h : TreeOk freq n nodes root) :
    ∃ code, assignCodes nodes root [] = .ok code ∧ TableOk code n ∧
      (∀ s c, (codeAt code s = c ∧ c ≠ []) ↔ IsTreeCode nodes root s c) ∧
      ∀ s, codeAt code s ≠ [] ↔ freqAt freq s ≠ 0 := by
  have hp := h.positive
  have hsz := h.size
  have hrl := h.rootLast
  have hle := h.le
  have hroot : root < nodes.length := by omega
  -- the table, and that its codes are the tree codes
  have key : ∃ code, assignCodes nodes root [] = .ok code ∧ SymMap.wf [] code = true ∧
      ∀ s c, (codeAt code s = c ∧ c ≠ []) ↔ IsTreeCode nodes root s c := by
    rw [assignCodes]
    by_cases hlone : ∃ s w, nodes[root]? = some (.leaf s w)
    · obtain ⟨sym, w, hn⟩ := hlone
      simp only [hn]
      refine ⟨_, rfl, setCode_wf rfl _ _, ?_⟩
      intro s c
      rw [codeAt_setCode rfl]
      have hno : ∀ q s', LeadsTo nodes root q s' → q = [] ∧ s' = sym := by
        rintro q s' ⟨j, w', hj, hl⟩
        have := walk_leaf hn hj
        subst this
        simp only [walk, Option.some.injEq] at hj
        subst hj
        rw [hn] at hl
        cases hl
        exact ⟨rfl, rfl⟩
      constructor
      · rintro ⟨hc, hne⟩
        split at hc
        · rename_i hs
          subst hs
          exact .inl ⟨leadsTo_nil.2 ⟨w, hn⟩, hc.symm⟩
        · rw [codeAt_nil] at hc
          exact absurd hc.symm hne
      · rintro (⟨hl, rfl⟩ | ⟨hne, hl⟩)
        · obtain ⟨-, rfl⟩ := hno _ _ hl
          simp
        · exact absurd (hno _ _ hl).1 hne
    · obtain ⟨code, he, hw, hyes, hno⟩ := visit_spec h.linksDown nodes.length (path := []) (code := []) hroot hroot
        (by
          intro p j hw
          have := h.walk_length hroot hw
          rw [List.length_nil]
          omega)
        (fun p q s => h.leadsTo_inj) rfl
      have hmatch : assignCodes nodes root [] = visit nodes nodes.length root [] [] := by
        rw [assignCodes]
        split
        · rename_i s w hn
          exact absurd ⟨s, w, hn⟩ hlone
        · rfl
      rw [assignCodes] at hmatch
      rw [hmatch]
      refine ⟨code, he, hw, ?_⟩
      intro s c
      constructor
      · rintro ⟨hc, hne⟩
        by_cases hex : ∃ p, LeadsTo nodes root p s
        · obtain ⟨p, hp'⟩ := hex
          rw [hyes p s hp', List.nil_append] at hc
          subst hc
          exact .inr ⟨hne, hp'⟩
        · rw [hno s fun p hp' => hex ⟨p, hp'⟩, codeAt_nil] at hc
          exact absurd hc.symm hne
      · rintro (⟨hl, -⟩ | ⟨hne, hl⟩)
        · exact absurd (leadsTo_nil.1 hl) fun ⟨w, hw'⟩ => hlone ⟨s, w, hw'⟩
        · exact ⟨by rw [hyes c s hl, List.nil_append], hne⟩
  obtain ⟨code, he, hw, hcode⟩ := key
  have htotal : ∀ s, codeAt code s ≠ [] ↔ freqAt freq s ≠ 0 := by
    intro s
    rw [← h.leaf_exists]
    constructor
    · intro hne
      rcases (hcode s _).1 ⟨rfl, hne⟩ with ⟨⟨j, w, -, hl⟩, -⟩ | ⟨-, j, w, -, hl⟩ <;> exact ⟨j, w, hl⟩
    · rintro ⟨i, w, hl⟩
      have hi : i < nodes.length := by
        by_contra hge
        rw [List.getElem?_eq_none (by omega)] at hl
        cases hl
      obtain ⟨p, hp'⟩ := h.reached hi
      have hlt : LeadsTo nodes root p s := ⟨i, w, hp', hl⟩
      by_cases hpn : p = []
      · subst hpn
        have := (hcode s [false]).2 (.inl ⟨hlt, rfl⟩)
        rw [this.1]
        exact this.2
      · have := (hcode s p).2 (.inr ⟨hpn, hlt⟩)
        rw [this.1]
        exact this.2
  refine ⟨code, he, ⟨hw, ?_, ?_, ?_⟩, hcode, htotal⟩
  · rw [h.count, distinctCount]
    apply List.countP_congr
    intro s _
    simpa using htotal s
  · intro s
    by_cases hne : codeAt code s = []
    · rw [hne]; simp
    · rcases (hcode s _).1 ⟨rfl, hne⟩ with ⟨-, hc⟩ | ⟨-, j, w, hj, -⟩
      · rw [hc]; simp
      · have := h.walk_length hroot hj
        omega
  · intro s t hst hs ht hpre
    obtain ⟨q, hq⟩ := hpre
    have h1 := (hcode s _).1 ⟨rfl, hs⟩
    have h2 := (hcode t _).1 ⟨rfl, ht⟩
    rcases h1 with ⟨hl1, hc1⟩ | ⟨-, hl1⟩
    · obtain ⟨w, hn⟩ := leadsTo_nil.1 hl1
      rcases h2 with ⟨hl2, -⟩ | ⟨hne2, j, w', hj, -⟩
      · obtain ⟨w', hn'⟩ := leadsTo_nil.1 hl2
        rw [hn] at hn'
        cases hn'
        exact hst rfl
      · exact hne2 (walk_leaf hn hj)
    · rcases h2 with ⟨hl2, -⟩ | ⟨-, hl2⟩
      · obtain ⟨w', hn'⟩ := leadsTo_nil.1 hl2
        obtain ⟨j, w, hj, -⟩ := hl1
        exact hs (walk_leaf hn' hj)
      · obtain ⟨j, w, hj, hleaf⟩ := hl1
        obtain ⟨j', w', hj', hleaf'⟩ := hl2
        rw [← hq, walk_append, hj, Option.bind_some] at hj'
        have hqn := walk_leaf hleaf hj'
        subst hqn
        simp only [walk, Option.some.injEq] at hj'
        subst hj'
        rw [hleaf] at hleaf'
        cases hleaf'
        exact hst rfl

end Sys2Proof.Machine
end

