-- ==== Sys2Proof/Laws/State.lean ====
section
/-! SUPPORT. One lemma for each field of State under each shared update, true by rfl, so that no proof unfolds a record
update. -/

namespace Sys2Proof.Machine

@[simp] theorem clearProducts_cfg (s : State) : (clearProducts s).cfg = s.cfg := rfl
@[simp] theorem clearProducts_err (s : State) : (clearProducts s).err = s.err := rfl
@[simp] theorem clearProducts_phase (s : State) : (clearProducts s).phase = s.phase := rfl
@[simp] theorem clearProducts_stage (s : State) : (clearProducts s).stage = s.stage := rfl
@[simp] theorem clearProducts_sub (s : State) : (clearProducts s).sub = s.sub := rfl
@[simp] theorem clearProducts_errpos (s : State) : (clearProducts s).errpos = s.errpos := rfl
@[simp] theorem clearProducts_ibuf (s : State) : (clearProducts s).ibuf = s.ibuf := rfl
@[simp] theorem clearProducts_freq (s : State) : (clearProducts s).freq = [] := rfl
@[simp] theorem clearProducts_nsym (s : State) : (clearProducts s).nsym = 0 := rfl
@[simp] theorem clearProducts_nodes (s : State) : (clearProducts s).nodes = [] := rfl
@[simp] theorem clearProducts_root (s : State) : (clearProducts s).root = 0 := rfl
@[simp] theorem clearProducts_code (s : State) : (clearProducts s).code = [] := rfl
@[simp] theorem clearProducts_bits (s : State) : (clearProducts s).bits = [] := rfl
@[simp] theorem clearProducts_pbuf (s : State) : (clearProducts s).pbuf = [] := rfl
@[simp] theorem clearProducts_pad (s : State) : (clearProducts s).pad = 0 := rfl
@[simp] theorem clearProducts_obuf (s : State) : (clearProducts s).obuf = [] := rfl
@[simp] theorem clearProducts_port (s : State) : (clearProducts s).port = s.port := rfl
@[simp] theorem clearProducts_rdata (s : State) : (clearProducts s).rdata = s.rdata := rfl

@[simp] theorem fail_cfg (e : ErrorRecord) (s : State) : (fail e s).cfg = s.cfg := rfl
@[simp] theorem fail_err (e : ErrorRecord) (s : State) : (fail e s).err = e.code := rfl
@[simp] theorem fail_phase (e : ErrorRecord) (s : State) : (fail e s).phase = .faulted := rfl
@[simp] theorem fail_stage (e : ErrorRecord) (s : State) : (fail e s).stage = e.stage := rfl
@[simp] theorem fail_sub (e : ErrorRecord) (s : State) : (fail e s).sub = e.sub := rfl
@[simp] theorem fail_errpos (e : ErrorRecord) (s : State) : (fail e s).errpos = e.pos := rfl
@[simp] theorem fail_ibuf (e : ErrorRecord) (s : State) : (fail e s).ibuf = s.ibuf := rfl
@[simp] theorem fail_freq (e : ErrorRecord) (s : State) : (fail e s).freq = [] := rfl
@[simp] theorem fail_nsym (e : ErrorRecord) (s : State) : (fail e s).nsym = 0 := rfl
@[simp] theorem fail_nodes (e : ErrorRecord) (s : State) : (fail e s).nodes = [] := rfl
@[simp] theorem fail_root (e : ErrorRecord) (s : State) : (fail e s).root = 0 := rfl
@[simp] theorem fail_code (e : ErrorRecord) (s : State) : (fail e s).code = [] := rfl
@[simp] theorem fail_bits (e : ErrorRecord) (s : State) : (fail e s).bits = [] := rfl
@[simp] theorem fail_pbuf (e : ErrorRecord) (s : State) : (fail e s).pbuf = [] := rfl
@[simp] theorem fail_pad (e : ErrorRecord) (s : State) : (fail e s).pad = 0 := rfl
@[simp] theorem fail_obuf (e : ErrorRecord) (s : State) : (fail e s).obuf = [] := rfl
@[simp] theorem fail_port (e : ErrorRecord) (s : State) : (fail e s).port = s.port := rfl
@[simp] theorem fail_rdata (e : ErrorRecord) (s : State) : (fail e s).rdata = s.rdata := rfl

@[simp] theorem softReset_cfg (s : State) : (softReset s).cfg = s.cfg := rfl
@[simp] theorem softReset_err (s : State) : (softReset s).err = .none := rfl
@[simp] theorem softReset_phase (s : State) : (softReset s).phase = .load := rfl
@[simp] theorem softReset_stage (s : State) : (softReset s).stage = 0 := rfl
@[simp] theorem softReset_sub (s : State) : (softReset s).sub = 0 := rfl
@[simp] theorem softReset_errpos (s : State) : (softReset s).errpos = 0 := rfl
@[simp] theorem softReset_ibuf (s : State) : (softReset s).ibuf = [] := rfl
@[simp] theorem softReset_freq (s : State) : (softReset s).freq = [] := rfl
@[simp] theorem softReset_nsym (s : State) : (softReset s).nsym = 0 := rfl
@[simp] theorem softReset_nodes (s : State) : (softReset s).nodes = [] := rfl
@[simp] theorem softReset_root (s : State) : (softReset s).root = 0 := rfl
@[simp] theorem softReset_code (s : State) : (softReset s).code = [] := rfl
@[simp] theorem softReset_bits (s : State) : (softReset s).bits = [] := rfl
@[simp] theorem softReset_pbuf (s : State) : (softReset s).pbuf = [] := rfl
@[simp] theorem softReset_pad (s : State) : (softReset s).pad = 0 := rfl
@[simp] theorem softReset_obuf (s : State) : (softReset s).obuf = [] := rfl
@[simp] theorem softReset_port (s : State) : (softReset s).port = s.port := rfl
@[simp] theorem softReset_rdata (s : State) : (softReset s).rdata = s.rdata := rfl

@[simp] theorem hardReset_cfg (s : State) : (hardReset s).cfg = s.cfg := rfl
@[simp] theorem hardReset_err (s : State) : (hardReset s).err = .none := rfl
@[simp] theorem hardReset_phase (s : State) : (hardReset s).phase = .load := rfl
@[simp] theorem hardReset_stage (s : State) : (hardReset s).stage = 0 := rfl
@[simp] theorem hardReset_sub (s : State) : (hardReset s).sub = 0 := rfl
@[simp] theorem hardReset_errpos (s : State) : (hardReset s).errpos = 0 := rfl
@[simp] theorem hardReset_ibuf (s : State) : (hardReset s).ibuf = [] := rfl
@[simp] theorem hardReset_freq (s : State) : (hardReset s).freq = [] := rfl
@[simp] theorem hardReset_nsym (s : State) : (hardReset s).nsym = 0 := rfl
@[simp] theorem hardReset_nodes (s : State) : (hardReset s).nodes = [] := rfl
@[simp] theorem hardReset_root (s : State) : (hardReset s).root = 0 := rfl
@[simp] theorem hardReset_code (s : State) : (hardReset s).code = [] := rfl
@[simp] theorem hardReset_bits (s : State) : (hardReset s).bits = [] := rfl
@[simp] theorem hardReset_pbuf (s : State) : (hardReset s).pbuf = [] := rfl
@[simp] theorem hardReset_pad (s : State) : (hardReset s).pad = 0 := rfl
@[simp] theorem hardReset_obuf (s : State) : (hardReset s).obuf = [] := rfl
@[simp] theorem hardReset_port (s : State) : (hardReset s).port = s.port := rfl
@[simp] theorem hardReset_rdata (s : State) : (hardReset s).rdata = none := rfl

@[simp] theorem resetWith_cfg (c : Config) : (State.resetWith c).cfg = c := rfl
@[simp] theorem resetWith_err (c : Config) : (State.resetWith c).err = .none := rfl
@[simp] theorem resetWith_phase (c : Config) : (State.resetWith c).phase = .load := rfl
@[simp] theorem resetWith_stage (c : Config) : (State.resetWith c).stage = 0 := rfl
@[simp] theorem resetWith_sub (c : Config) : (State.resetWith c).sub = 0 := rfl
@[simp] theorem resetWith_errpos (c : Config) : (State.resetWith c).errpos = 0 := rfl
@[simp] theorem resetWith_ibuf (c : Config) : (State.resetWith c).ibuf = [] := rfl
@[simp] theorem resetWith_freq (c : Config) : (State.resetWith c).freq = [] := rfl
@[simp] theorem resetWith_nsym (c : Config) : (State.resetWith c).nsym = 0 := rfl
@[simp] theorem resetWith_nodes (c : Config) : (State.resetWith c).nodes = [] := rfl
@[simp] theorem resetWith_root (c : Config) : (State.resetWith c).root = 0 := rfl
@[simp] theorem resetWith_code (c : Config) : (State.resetWith c).code = [] := rfl
@[simp] theorem resetWith_bits (c : Config) : (State.resetWith c).bits = [] := rfl
@[simp] theorem resetWith_pbuf (c : Config) : (State.resetWith c).pbuf = [] := rfl
@[simp] theorem resetWith_pad (c : Config) : (State.resetWith c).pad = 0 := rfl
@[simp] theorem resetWith_obuf (c : Config) : (State.resetWith c).obuf = [] := rfl
@[simp] theorem resetWith_port (c : Config) : (State.resetWith c).port = [] := rfl
@[simp] theorem resetWith_rdata (c : Config) : (State.resetWith c).rdata = none := rfl

@[simp] theorem reset_cfg : State.reset.cfg = Config.reference := rfl

/-- The reset state is the reset state of the reference configuration. -/
theorem reset_eq : State.reset = State.resetWith Config.reference := rfl

/-- Reset's memory is in canonical form. -/
theorem resetWith_memory_wf (c : Config) : Memory.wf (State.resetWith c) = true := rfl

end Sys2Proof.Machine
end

