-- ==== Sys2Proof/Laws/Ops.lean ====
section
/-! SUPPORT. The shared checks: what they answer, said once. -/

namespace Sys2Proof.Machine

theorem unlessFaulted_of_ok {s : State} (h : s.err = .none) (r : Result) : unlessFaulted s r = r := by
  simp [unlessFaulted, h]

theorem unlessFaulted_of_faulted {s : State} (h : s.err ≠ .none) (r : Result) : unlessFaulted s r = .next s := by
  simp [unlessFaulted, h]

theorem requirePhase_of_eq {op : Byte} {p : Phase} {s : State} (h : s.phase = p) (r : Result) :
    requirePhase op p s r = r := by simp [requirePhase, h]

theorem requirePhase_of_ne {op : Byte} {p : Phase} {s : State} (h : s.phase ≠ p) (r : Result) :
    requirePhase op p s r = .next (fail (badSequence op s.phase) s) := by simp [requirePhase, h, raise]

/-- Everything `unlessFaulted` can answer with a next state. -/
theorem unlessFaulted_next {s t : State} {r : Result} (h : unlessFaulted s r = .next t) :
    (s.err ≠ .none ∧ t = s) ∨ (s.err = .none ∧ r = .next t) := by
  unfold unlessFaulted at h
  split at h
  · rename_i he; exact .inr ⟨he, h⟩
  · rename_i he; cases h; exact .inl ⟨he, rfl⟩

/-- Everything `requirePhase` can answer with a next state. -/
theorem requirePhase_next {op : Byte} {p : Phase} {s t : State} {r : Result} (h : requirePhase op p s r = .next t) :
    (s.phase ≠ p ∧ t = fail (badSequence op s.phase) s) ∨ (s.phase = p ∧ r = .next t) := by
  unfold requirePhase at h
  split at h
  · rename_i he; exact .inr ⟨he, h⟩
  · rename_i he; cases h; exact .inl ⟨he, rfl⟩

/-- A composite's stage: it stops with a recorded error, or the rest runs from a state without one. -/
theorem thenStage_next {r : Result} {k : State → Result} {t : State} (h : thenStage r k = .next t) :
    ∃ s, r = .next s ∧ ((s.err ≠ .none ∧ t = s) ∨ (s.err = .none ∧ k s = .next t)) := by
  unfold thenStage at h
  split at h
  · rename_i s
    refine ⟨s, rfl, ?_⟩
    split at h
    · rename_i he; exact .inr ⟨he, h⟩
    · rename_i he; cases h; exact .inl ⟨he, rfl⟩
  · cases h
  · cases h

@[simp] theorem thenStage_ok {s : State} {k : State → Result} (h : s.err = .none) :
    thenStage (.next s) k = k s := by simp [thenStage, h]

@[simp] theorem thenStage_stop {s : State} {k : State → Result} (h : s.err ≠ .none) :
    thenStage (.next s) k = .next s := by simp [thenStage, h]

/-- Every record the model raises says there is an error. -/
theorem badSequence_code (op : Byte) (p : Phase) : (badSequence op p).code = .badSequence := rfl

theorem bufferOverflow_code (op : Byte) : (bufferOverflow op).code = .bufferOverflow := rfl

theorem corruptContainer_code (a b : Byte) (p : Nat) : (corruptContainer a b p).code = .corruptContainer := rfl

/-- Clearing twice is clearing once. -/
@[simp] theorem clearProducts_idem (s : State) : clearProducts (clearProducts s) = clearProducts s := rfl

/-- The products are in canonical form after they are cleared. -/
theorem clearProducts_memory_wf (s : State) : Memory.wf (clearProducts s) = true := rfl

theorem fail_memory_wf (e : ErrorRecord) (s : State) : Memory.wf (fail e s) = true := rfl

end Sys2Proof.Machine
end

