-- ==== Sys2Proof/Laws/Pipeline.lean ====
section
/-! SUPPORT. ENCODE's concatenation and DECODE's scan. -/

namespace Sys2Proof.Machine

/-! Concatenations of codes -/

theorem codesOf_append (code : SymMap BitString) (xs ys : List Byte) :
    codesOf code (xs ++ ys) = codesOf code xs ++ codesOf code ys := by
  simp [codesOf]

theorem codesOf_cons (code : SymMap BitString) (x : Byte) (xs : List Byte) :
    codesOf code (x :: xs) = codeAt code x ++ codesOf code xs := by
  simp [codesOf]

@[simp] theorem codesOf_nil (code : SymMap BitString) : codesOf code [] = [] := rfl

theorem encodeBytes_eq_codesOf (code : SymMap BitString) (xs : List Byte) : encodeBytes code xs = codesOf code xs := by
  simp [encodeBytes, codesOf, List.flatMap]

theorem codesOf_length (code : SymMap BitString) (xs : List Byte) :
    (codesOf code xs).length = encodedLength code xs := by
  induction xs with
  | nil => rfl
  | cons x xs ih =>
    rw [codesOf_cons, List.length_append, ih]
    simp [encodedLength, clenAt]

/-- When every symbol has a code, the bit-string is at least as long as the sequence. -/
theorem length_le_codesOf {code : SymMap BitString} {xs : List Byte} (h : ∀ x ∈ xs, codeAt code x ≠ []) :
    xs.length ≤ (codesOf code xs).length := by
  induction xs with
  | nil => simp
  | cons x xs ih =>
    have h1 := ih fun y hy => h y (by simp [hy])
    have h2 := List.length_pos_iff.2 (h x (by simp))
    rw [codesOf_cons, List.length_append, List.length_cons]
    omega

/-! Lookup in a prefix-free table -/

theorem lookup_codeAt {code : SymMap BitString} (hw : SymMap.wf [] code = true) (hp : PrefixFree code) {s : Byte}
    (hs : codeAt code s ≠ []) : lookup code (codeAt code s) = some s := by
  obtain ⟨t, ht⟩ := lookup_isSome hs
  have h1 := codeAt_of_lookup hw ht
  by_cases hst : s = t
  · rw [ht, hst]
  · exfalso
    refine hp s t hst hs (by rw [h1.1]; exact hs) ?_
    rw [h1.1]

/-- A proper prefix of a code is no code. -/
theorem lookup_proper {code : SymMap BitString} (hw : SymMap.wf [] code = true) (hp : PrefixFree code) {s : Byte}
    {p q : BitString} (hs : codeAt code s = p ++ q) (hq : q ≠ []) : lookup code p = none := by
  apply lookup_none hw
  intro t ht
  by_contra hne
  have hs0 : codeAt code s ≠ [] := by rw [hs]; simp [hq]
  by_cases hst : t = s
  · subst hst
    rw [ht] at hs
    exact hq (List.self_eq_append_right.1 hs)
  · exact hp t s hst (by rw [ht]; exact hne) hs0 ⟨q, by rw [ht, hs]⟩

/-! The scan -/

section scan

variable {code : SymMap BitString} {ocap : Nat}

/-- Where the scan last began a candidate does not matter while it has none. -/
theorem decodeScan_start (bs : BitString) (k : Nat) (out : List Byte) (st st' : Nat) :
    decodeScan ocap code bs k out [] st = decodeScan ocap code bs k out [] st' := by
  cases bs <;> simp [decodeScan]

/-- The scan over the rest of a code, from a proper prefix of it. -/
theorem decodeScan_code (hw : SymMap.wf [] code = true) (hp : PrefixFree code) {s : Byte} (q : BitString)
    {p r : BitString} {k st : Nat} {out : List Byte} (hs : codeAt code s = p ++ q) (hq : q ≠ []) :
    decodeScan ocap code (q ++ r) k out p st =
      if out.length = ocap then .error (bufferOverflow 0x0A)
      else decodeScan ocap code r (k + q.length) (out ++ [s]) [] (if p.length = 0 then k else st) := by
  induction q generalizing p k st with
  | nil => exact absurd rfl hq
  | cons b q ih =>
    rw [List.cons_append, decodeScan]
    by_cases hq0 : q = []
    · subst hq0
      rw [← hs, lookup_codeAt hw hp (by rw [hs]; simp)]
      simp
    · rw [lookup_proper hw hp (q := q) (by rw [hs]; simp) hq0]
      simp only
      rw [ih (by rw [hs]; simp) hq0]
      simp only [List.length_append, List.length_cons, List.length_nil]
      split
      · rfl
      · rw [decodeScan_start _ _ _ _ (if p.length = 0 then k else st)]
        congr 1
        omega

/-- The scan over the codes of a sequence emits the sequence (47_pipeline.md R206). -/
theorem decodeScan_codesOf (hw : SymMap.wf [] code = true) (hp : PrefixFree code) (xs : List Byte)
    (hx : ∀ x ∈ xs, codeAt code x ≠ []) {r : BitString} {k st : Nat} {out : List Byte}
    (hcap : out.length + xs.length ≤ ocap) :
    decodeScan ocap code (codesOf code xs ++ r) k out [] st =
      decodeScan ocap code r (k + (codesOf code xs).length) (out ++ xs) [] st := by
  induction xs generalizing k out st with
  | nil => simp
  | cons x xs ih =>
    rw [List.length_cons] at hcap
    rw [codesOf_cons, List.append_assoc, decodeScan_code hw hp (s := x) (codeAt code x) (by simp) (hx x (by simp)),
      if_neg (by omega), ih (fun y hy => hx y (by simp [hy])) (by simp; omega), List.length_append, Nat.add_assoc,
      List.append_assoc]
    exact decodeScan_start _ _ _ _ _

/-- Bits of which no prefix is a code are left over (47_pipeline.md R208 (a)). -/
theorem decodeScan_leftover (hw : SymMap.wf [] code = true) (r : BitString) {cand : BitString}
    (hr : ∀ q, q ≠ [] → q <+: r → ∀ s, codeAt code s ≠ cand ++ q) {k st : Nat} {out : List Byte}
    (hne : cand ++ r ≠ []) :
    decodeScan ocap code r k out cand st =
      .error (corruptContainer 0x0A 11 (if cand.length = 0 then k else st)) := by
  induction r generalizing cand k st with
  | nil =>
    rw [List.append_nil] at hne
    have := List.length_pos_iff.2 hne
    rw [decodeScan, if_pos (by omega), if_neg (by omega)]
  | cons b r ih =>
    rw [decodeScan, lookup_none hw]
    · simp only
      rw [ih]
      · simp
      · intro q hq hpre s
        have := hr (b :: q) (by simp) (List.cons_prefix_cons.2 ⟨rfl, hpre⟩) s
        simpa using this
      · simp
    · intro s hs
      exact absurd hs (hr [b] (by simp) ⟨r, rfl⟩ s)

/-- When the scan succeeds, its output's codes are the bits (70_reset_and_hazards.md R277 (m)). -/
theorem decodeScan_ok (hw : SymMap.wf [] code = true) (bs : BitString) {k st : Nat} {cand : BitString}
    {out : List Byte} {res : List Byte} (h : decodeScan ocap code bs k out cand st = .ok res) :
    ∃ xs, res = out ++ xs ∧ codesOf code xs = cand ++ bs ∧ (∀ x ∈ xs, codeAt code x ≠ []) ∧
      (out.length ≤ ocap → res.length ≤ ocap) := by
  induction bs generalizing k st out cand with
  | nil =>
    rw [decodeScan] at h
    split at h
    · cases h
    · rename_i hc
      cases h
      have : cand = [] := List.length_eq_zero_iff.1 (not_not.1 hc)
      exact ⟨[], by simp, by simp [this], by simp, fun h => h⟩
  | cons b bs ih =>
    rw [decodeScan] at h
    split at h
    · rename_i s hl
      split at h
      · cases h
      · rename_i hfull
        obtain ⟨xs, h1, h2, h3, h4⟩ := ih h
        obtain ⟨hc, hne⟩ := codeAt_of_lookup hw hl
        refine ⟨s :: xs, by simp [h1], ?_, ?_, ?_⟩
        · rw [codesOf_cons, h2, hc]; simp
        · intro x hx
          rcases List.mem_cons.1 hx with rfl | hx
          · rw [hc]; exact hne
          · exact h3 x hx
        · intro hle
          apply h4
          rw [List.length_append, List.length_singleton]
          omega
    · obtain ⟨xs, h1, h2, h3, h4⟩ := ih h
      exact ⟨xs, h1, by rw [h2]; simp, h3, h4⟩

/-- The records DECODE's scan raises. -/
theorem decodeScan_error (bs : BitString) {k st : Nat} {cand : BitString} {out : List Byte} {e : ErrorRecord}
    (h : decodeScan ocap code bs k out cand st = .error e) :
    e = bufferOverflow 0x0A ∨ ∃ pos, e = corruptContainer 0x0A 11 pos := by
  induction bs generalizing k st out cand with
  | nil =>
    rw [decodeScan] at h
    split at h
    · cases h; exact .inr ⟨_, rfl⟩
    · cases h
  | cons b bs ih =>
    rw [decodeScan] at h
    split at h
    · split at h
      · cases h; exact .inl rfl
      · exact ih h
    · exact ih h

end scan

end Sys2Proof.Machine
end

