-- ==== Sys2Proof/Laws/Commands.lean ====
section
/-! SUPPORT. One inversion lemma for each command: everything it can answer with a next state. -/

namespace Sys2Proof.Machine

/-- Fail() reads only what it keeps. -/
theorem fail_congr {s t : State} (e : ErrorRecord) (h1 : t.cfg = s.cfg) (h2 : t.ibuf = s.ibuf) (h3 : t.port = s.port)
    (h4 : t.rdata = s.rdata) : fail e t = fail e s := by
  cases s
  cases t
  simp only at h1 h2 h3 h4
  subst h1 h2 h3 h4
  rfl

theorem execNop_eq (s : State) : execNop s = .next s := by
  unfold execNop unlessFaulted
  split <;> rfl

/-- PUSH on a block that is not faulted. -/
theorem execPush_eq {s : State} (he : s.err = .none) (b : Byte) :
    execPush b s =
      if s.ibuf.length = s.cfg.icap.toNat then .next (fail (bufferOverflow 0x0D) s)
      else .next { clearProducts s with ibuf := s.ibuf ++ [b], phase := .load } := by
  rw [execPush, unlessFaulted_of_ok he, raise]

theorem execIclr_eq {s : State} (he : s.err = .none) :
    execIclr s = .next { clearProducts s with ibuf := [], phase := .load } := by
  rw [execIclr, unlessFaulted_of_ok he]

/-- The state COUNT leaves. -/
def countedState (s : State) : State :=
  { clearProducts s with freq := countBytes s.ibuf, nsym := BitVec.ofNat 9 (distinctCount (countBytes s.ibuf)),
                         phase := .counted }

theorem execCount_eq {s : State} (he : s.err = .none) : execCount s = .next (countedState s) := by
  rw [execCount, unlessFaulted_of_ok he]
  rfl

/-- BUILD in its phase. -/
theorem execBuild_eq {s : State} (he : s.err = .none) (hp : s.phase = .counted) :
    execBuild s =
      if s.nsym = 0 then .next (fail emptyMapError s)
      else
        match buildTree s.freq with
        | some (nodes, root) => .next { s with nodes := nodes, root := BitVec.ofNat 9 root, phase := .built }
        | none => .fault .emptyLive := by
  rw [execBuild, unlessFaulted_of_ok he, requirePhase_of_eq hp]
  rfl

theorem execBuild_next {s t : State} (he : s.err = .none) (hp : s.phase = .counted) (h : execBuild s = .next t) :
    (s.nsym = 0 ∧ t = fail emptyMapError s) ∨
    (s.nsym ≠ 0 ∧ ∃ nodes root, buildTree s.freq = some (nodes, root) ∧
      t = { s with nodes := nodes, root := BitVec.ofNat 9 root, phase := .built }) := by
  rw [execBuild_eq he hp] at h
  split at h
  · rename_i hz
    cases h
    exact .inl ⟨hz, rfl⟩
  · rename_i hz
    split at h
    · rename_i nodes root hb
      cases h
      exact .inr ⟨hz, nodes, root, hb, rfl⟩
    · cases h

/-- ASSIGN in its phase. -/
theorem execAssign_eq {s : State} (he : s.err = .none) (hp : s.phase = .built) :
    execAssign s =
      match assignCodes s.nodes s.root.toNat s.code with
      | .ok code => .next { s with code := code, phase := .assigned }
      | .error (.error e) => .next (fail e s)
      | .error (.fault f) => .fault f := by
  rw [execAssign, unlessFaulted_of_ok he, requirePhase_of_eq hp]
  rfl

theorem execAssign_next {s t : State} (he : s.err = .none) (hp : s.phase = .built) (h : execAssign s = .next t) :
    (∃ e, assignCodes s.nodes s.root.toNat s.code = .error (.error e) ∧ t = fail e s) ∨
    ∃ code, assignCodes s.nodes s.root.toNat s.code = .ok code ∧ t = { s with code := code, phase := .assigned } := by
  rw [execAssign_eq he hp] at h
  split at h
  · rename_i code hc
    cases h
    exact .inr ⟨code, hc, rfl⟩
  · rename_i e hc
    cases h
    exact .inl ⟨e, hc, rfl⟩
  · cases h

/-- The one error of ASSIGN's traversal is CodeTooLong. -/
theorem visit_error {nodes : List Node} (fuel : Nat) {i : Nat} {path : BitString} {code : SymMap BitString}
    {e : ErrorRecord} (h : visit nodes fuel i path code = .error (.error e)) : e = codeTooLongError := by
  induction fuel generalizing i path code with
  | zero => cases h
  | succ fuel ih =>
    rw [visit] at h
    split at h
    · cases h
    · split at h
      · cases h; rfl
      · cases h
    · split at h
      · exact ih h
      · rename_i hv
        cases h
        exact ih hv

theorem assignCodes_error {nodes : List Node} {root : Nat} {code : SymMap BitString} {e : ErrorRecord}
    (h : assignCodes nodes root code = .error (.error e)) : e = codeTooLongError := by
  rw [assignCodes] at h
  split at h
  · cases h
  · exact visit_error _ h

/-- ENCODE in its phase. -/
theorem execEncode_eq {s : State} (he : s.err = .none) (hp : s.phase = .assigned) :
    execEncode s =
      if encodedLength s.code s.ibuf > s.cfg.bcap.toNat then .next (fail (bufferOverflow 0x04) s)
      else .next { s with bits := encodeBytes s.code s.ibuf, phase := .encoded } := by
  rw [execEncode, unlessFaulted_of_ok he, requirePhase_of_eq hp, raise]

/-- PACK in its phase. -/
theorem execPack_eq {s : State} (he : s.err = .none) (hp : s.phase = .encoded) :
    execPack s =
      .next { s with pbuf := packBytes s.bits, pad := padCount s.bits.length, phase := .packed } := by
  rw [execPack, unlessFaulted_of_ok he, requirePhase_of_eq hp]
  rfl

/-- SERIALIZE in its phase. -/
theorem execSerialize_eq {s : State} (he : s.err = .none) (hp : s.phase = .packed) :
    execSerialize s =
      if containerSize s.code s.pbuf.length > s.cfg.ocap.toNat then .next (fail (bufferOverflow 0x06) s)
      else .next { s with obuf := containerBytes s.nsym.toNat s.code s.pad s.pbuf, phase := .serialized } := by
  rw [execSerialize, unlessFaulted_of_ok he, requirePhase_of_eq hp, raise]

/-- PARSE. -/
theorem execParse_eq {s : State} (he : s.err = .none) :
    execParse s =
      match parseContainer s.cfg.pcap s.ibuf with
      | .ok r => .next { clearProducts s with nsym := BitVec.ofNat 9 r.count, code := r.code, pad := r.pad,
                                              pbuf := r.payload, phase := .parsed }
      | .error e => .next (fail e s) := by
  rw [execParse, unlessFaulted_of_ok he]
  rfl

/-- The records PARSE raises. -/
def IsParseError (e : ErrorRecord) : Prop :=
  e = bufferOverflow 0x08 ∨ ∃ sub pos, 1 ≤ sub.toNat ∧ sub.toNat ≤ 10 ∧ (sub.toNat ≤ 2 → pos = 0) ∧ e = parseError sub pos

theorem parseTail_error {pcap count p : Nat} {code : SymMap BitString} {rest : List Byte} {e : ErrorRecord}
    (h : parseTail pcap count p code rest = .error e) : IsParseError e := by
  unfold parseTail at h
  split at h
  · cases h; exact .inr ⟨8, p, by decide, by decide, by simp, rfl⟩
  · split at h
    · cases h; exact .inr ⟨9, p, by decide, by decide, by simp, rfl⟩
    · split at h
      · cases h; exact .inr ⟨10, p + 1, by decide, by decide, by simp, rfl⟩
      · split at h
        · cases h; exact .inl rfl
        · cases h

theorem parseEntries_error {pcap count : Nat} (n : Nat) {p : Nat} {code : SymMap BitString} {rest : List Byte}
    {e : ErrorRecord} (h : parseEntries pcap count n p code rest = .error e) : IsParseError e := by
  induction n generalizing p code rest with
  | zero => exact parseTail_error h
  | succ n ih =>
    rcases rest with _ | ⟨s, _ | ⟨len, rest'⟩⟩
    · cases h; exact .inr ⟨3, p, by decide, by decide, by simp, rfl⟩
    · cases h; exact .inr ⟨3, p, by decide, by decide, by simp, rfl⟩
    · simp only [parseEntries] at h
      split at h
      · cases h; exact .inr ⟨4, p, by decide, by decide, by simp, rfl⟩
      split at h
      · cases h; exact .inr ⟨5, p, by decide, by decide, by simp, rfl⟩
      split at h
      · cases h; exact .inr ⟨6, p, by decide, by decide, by simp, rfl⟩
      split at h
      · cases h; exact .inr ⟨7, p, by decide, by decide, by simp, rfl⟩
      exact ih h

theorem parseContainer_error {pcap : Nat} {bytes : List Byte} {e : ErrorRecord}
    (h : parseContainer pcap bytes = .error e) : IsParseError e := by
  rw [parseContainer] at h
  split at h
  · cases h; exact .inr ⟨1, 0, by decide, by decide, fun _ => rfl, rfl⟩
  · simp only at h
    split at h
    · cases h; exact .inr ⟨2, 0, by decide, by decide, fun _ => rfl, rfl⟩
    · exact parseEntries_error _ h

/-- UNPACK in its phase. -/
theorem execUnpack_eq {s : State} (he : s.err = .none) (hp : s.phase = .parsed) :
    execUnpack s =
      if s.pad.toNat ≤ 8 * s.pbuf.length then
        .next { s with bits := unpackBits s.pbuf s.pad, phase := .unpacked }
      else .fault .undefinedUnpack := by
  rw [execUnpack, unlessFaulted_of_ok he, requirePhase_of_eq hp]

/-- DECODE in its phase. -/
theorem execDecode_eq {s : State} (he : s.err = .none) (hp : s.phase = .unpacked) :
    execDecode s =
      match decodeScan s.cfg.ocap.toNat s.code s.bits 0 [] [] 0 with
      | .ok out => .next { s with obuf := out, phase := .decoded }
      | .error e => .next (fail e s) := by
  rw [execDecode, unlessFaulted_of_ok he, requirePhase_of_eq hp]
  rfl

/-- A unit command in another phase than the one it needs. -/
theorem execBuild_badPhase {s : State} (he : s.err = .none) (hp : s.phase ≠ .counted) :
    execBuild s = .next (fail (badSequence 0x02 s.phase) s) := by
  rw [execBuild, unlessFaulted_of_ok he, requirePhase_of_ne hp]

theorem execAssign_badPhase {s : State} (he : s.err = .none) (hp : s.phase ≠ .built) :
    execAssign s = .next (fail (badSequence 0x03 s.phase) s) := by
  rw [execAssign, unlessFaulted_of_ok he, requirePhase_of_ne hp]

theorem execEncode_badPhase {s : State} (he : s.err = .none) (hp : s.phase ≠ .assigned) :
    execEncode s = .next (fail (badSequence 0x04 s.phase) s) := by
  rw [execEncode, unlessFaulted_of_ok he, requirePhase_of_ne hp]

theorem execPack_badPhase {s : State} (he : s.err = .none) (hp : s.phase ≠ .encoded) :
    execPack s = .next (fail (badSequence 0x05 s.phase) s) := by
  rw [execPack, unlessFaulted_of_ok he, requirePhase_of_ne hp]

theorem execSerialize_badPhase {s : State} (he : s.err = .none) (hp : s.phase ≠ .packed) :
    execSerialize s = .next (fail (badSequence 0x06 s.phase) s) := by
  rw [execSerialize, unlessFaulted_of_ok he, requirePhase_of_ne hp]

theorem execUnpack_badPhase {s : State} (he : s.err = .none) (hp : s.phase ≠ .parsed) :
    execUnpack s = .next (fail (badSequence 0x09 s.phase) s) := by
  rw [execUnpack, unlessFaulted_of_ok he, requirePhase_of_ne hp]

theorem execDecode_badPhase {s : State} (he : s.err = .none) (hp : s.phase ≠ .unpacked) :
    execDecode s = .next (fail (badSequence 0x0A s.phase) s) := by
  rw [execDecode, unlessFaulted_of_ok he, requirePhase_of_ne hp]

/-! The composites -/

/-- The state COMPRESS leaves when each stage succeeds. -/
def compressedState (s : State) (nodes : List Node) (root : BitVec 9) (code : SymMap BitString) : State :=
  { s with
    freq := countBytes s.ibuf, nsym := BitVec.ofNat 9 (distinctCount (countBytes s.ibuf)), nodes := nodes,
    root := root, code := code, bits := encodeBytes code s.ibuf, pbuf := packBytes (encodeBytes code s.ibuf),
    pad := padCount (encodeBytes code s.ibuf).length,
    obuf := containerBytes (BitVec.ofNat 9 (distinctCount (countBytes s.ibuf))).toNat code
      (padCount (encodeBytes code s.ibuf).length) (packBytes (encodeBytes code s.ibuf)),
    phase := .serialized }

/-- COMPRESS stage by stage, on a block that is not faulted. -/
theorem execCompress_eq {s : State} (he : s.err = .none) :
    execCompress s =
      if BitVec.ofNat 9 (distinctCount (countBytes s.ibuf)) = 0 then .next (fail emptyMapError s)
      else
        match buildTree (countBytes s.ibuf) with
        | none => .fault .emptyLive
        | some (nodes, root) =>
          match assignCodes nodes (BitVec.ofNat 9 root).toNat [] with
          | .error (.fault f) => .fault f
          | .error (.error e) => .next (fail e s)
          | .ok code =>
            if encodedLength code s.ibuf > s.cfg.bcap.toNat then .next (fail (bufferOverflow 0x04) s)
            else if containerSize code (packBytes (encodeBytes code s.ibuf)).length > s.cfg.ocap.toNat then
              .next (fail (bufferOverflow 0x06) s)
            else .next (compressedState s nodes (BitVec.ofNat 9 root) code) := by
  rw [execCompress, execCount_eq he, thenStage_ok (s := countedState s) he,
    execBuild_eq (s := countedState s) he rfl]
  rw [show (countedState s).nsym = BitVec.ofNat 9 (distinctCount (countBytes s.ibuf)) from rfl,
    show (countedState s).freq = countBytes s.ibuf from rfl]
  split
  · rw [thenStage_stop (by simp [emptyMapError])]
    rfl
  · cases buildTree (countBytes s.ibuf) with
    | none => rfl
    | some r =>
      obtain ⟨nodes, root⟩ := r
      simp only
      rw [thenStage_ok (by exact he), execAssign_eq (by exact he) rfl]
      rw [show (countedState s).code = [] from rfl]
      cases hc : assignCodes nodes (BitVec.ofNat 9 root).toNat [] with
      | error e =>
        cases e with
        | fault f => rfl
        | error e =>
          have := assignCodes_error hc
          subst this
          simp only
          rw [thenStage_stop (by simp [codeTooLongError])]
          rfl
      | ok code =>
        simp only
        rw [thenStage_ok (by exact he), execEncode_eq (by exact he) rfl]
        show thenStage (if encodedLength code s.ibuf > s.cfg.bcap.toNat then _ else _) _ = _
        split
        · rw [thenStage_stop (by simp [bufferOverflow])]
          rfl
        · rw [thenStage_ok (by exact he), execPack_eq (by exact he) rfl, thenStage_ok (by exact he),
            execSerialize_eq (by exact he) rfl]
          rfl

/-- COMPRESS, everything it can answer with a next state. -/
theorem execCompress_next {s t : State} (he : s.err = .none) (h : execCompress s = .next t) :
    (∃ e, t = fail e s ∧ e ∈ [emptyMapError, codeTooLongError, bufferOverflow 0x04, bufferOverflow 0x06]) ∨
    ∃ nodes root code, BitVec.ofNat 9 (distinctCount (countBytes s.ibuf)) ≠ 0 ∧
      buildTree (countBytes s.ibuf) = some (nodes, root) ∧
      assignCodes nodes (BitVec.ofNat 9 root).toNat [] = .ok code ∧
      encodedLength code s.ibuf ≤ s.cfg.bcap.toNat ∧
      containerSize code (packBytes (encodeBytes code s.ibuf)).length ≤ s.cfg.ocap.toNat ∧
      t = compressedState s nodes (BitVec.ofNat 9 root) code := by
  rw [execCompress_eq he] at h
  split at h
  · cases h; exact .inl ⟨_, rfl, by simp⟩
  rename_i hz
  split at h
  · cases h
  rename_i nodes root hb
  split at h
  · cases h
  · rename_i e ha
    cases h
    exact .inl ⟨e, rfl, by rw [assignCodes_error ha]; simp⟩
  · rename_i code ha
    split at h
    · cases h; exact .inl ⟨_, rfl, by simp⟩
    split at h
    · cases h; exact .inl ⟨_, rfl, by simp⟩
    rename_i h1 h2
    cases h
    exact .inr ⟨nodes, root, code, hz, hb, ha, by omega, by omega, rfl⟩

/-- The state DECOMPRESS leaves when each stage succeeds. -/
def decompressedState (s : State) (r : Parsed) (out : List Byte) : State :=
  { clearProducts s with
    nsym := BitVec.ofNat 9 r.count, code := r.code, pad := r.pad, pbuf := r.payload,
    bits := unpackBits r.payload r.pad, obuf := out, phase := .decoded }

theorem IsParseError.code_ne {e : ErrorRecord} (h : IsParseError e) : e.code ≠ .none := by
  rcases h with rfl | ⟨sub, pos, -, -, -, rfl⟩ <;> simp [bufferOverflow, parseError, corruptContainer]

/-- DECOMPRESS stage by stage, on a block that is not faulted. -/
theorem execDecompress_eq {s : State} (he : s.err = .none) :
    execDecompress s =
      match parseContainer s.cfg.pcap s.ibuf with
      | .error e => .next (fail e s)
      | .ok r =>
        if r.pad.toNat ≤ 8 * r.payload.length then
          match decodeScan s.cfg.ocap.toNat r.code (unpackBits r.payload r.pad) 0 [] [] 0 with
          | .ok out => .next (decompressedState s r out)
          | .error e => .next (fail e s)
        else .fault .undefinedUnpack := by
  rw [execDecompress, execParse_eq he]
  cases hp : parseContainer s.cfg.pcap s.ibuf with
  | error e =>
    simp only
    rw [thenStage_stop (by simpa using (parseContainer_error hp).code_ne)]
  | ok r =>
    simp only
    rw [thenStage_ok (by exact he), execUnpack_eq (by exact he) rfl]
    simp only
    split
    · rw [thenStage_ok (by exact he), execDecode_eq (by exact he) rfl]
      rfl
    · rfl

/-- DECOMPRESS, everything it can answer with a next state. -/
theorem execDecompress_next {s t : State} (he : s.err = .none) (h : execDecompress s = .next t) :
    (∃ e, t = fail e s ∧ (IsParseError e ∨ e = bufferOverflow 0x0A ∨ ∃ pos, e = corruptContainer 0x0A 11 pos)) ∨
    ∃ r out, parseContainer s.cfg.pcap s.ibuf = .ok r ∧
      decodeScan s.cfg.ocap.toNat r.code (unpackBits r.payload r.pad) 0 [] [] 0 = .ok out ∧
      t = decompressedState s r out := by
  rw [execDecompress_eq he] at h
  split at h
  · rename_i e hp
    cases h
    exact .inl ⟨e, rfl, .inl (parseContainer_error hp)⟩
  · rename_i r hp
    split at h
    · split at h
      · rename_i out hd
        cases h
        exact .inr ⟨r, out, hp, hd, rfl⟩
      · rename_i e hd
        cases h
        exact .inl ⟨e, rfl, .inr (decodeScan_error _ hd)⟩
    · cases h

end Sys2Proof.Machine
end

