-- ==== Sys2Proof/Laws/Weights.lean ====
section
/-! SUPPORT. The weights of a tree BUILD makes: LIVE always weighs what the leaves weigh, so no sum wraps
(41_tree_builder.md R124 (e), R127). -/

namespace Sys2Proof.Machine

open Classical in
/-- The members of LIVE when node k is made. -/
noncomputable def liveSet (nodes : List Node) (k : Nat) : Finset Nat := (Finset.range k).filter (IsLive nodes k)

theorem mem_liveSet {nodes : List Node} {k i : Nat} : i ∈ liveSet nodes k ↔ IsLive nodes k i := by
  simp only [liveSet, Finset.mem_filter, Finset.mem_range, and_iff_right_iff_imp]
  exact fun h => h.1

/-- The sum of the counters. -/
def countTotal (freq : SymMap Word) : Nat := (symbols.map fun b => (freqAt freq b).toNat).sum

section tree

variable {freq : SymMap Word} {n root : Nat} {nodes : List Node}

theorem expectedLeaves_weights (freq : SymMap Word) :
    ((expectedLeaves freq).map fun x => (nodeWeight x).toNat).sum = countTotal freq := by
  rw [expectedLeaves, countTotal, List.map_map]
  induction symbols with
  | nil => rfl
  | cons b bs ih =>
    rw [List.filter_cons, List.map_cons, List.sum_cons, ← ih]
    split
    · rfl
    · rename_i hb
      have : freqAt freq b = 0 := by simpa using hb
      simp [this]

theorem sum_range_weightAt (l : List Node) :
    ∑ i ∈ Finset.range l.length, (weightAt l i).toNat = (l.map fun x => (nodeWeight x).toNat).sum := by
  induction l using List.reverseRecOn with
  | nil => rfl
  | append_singleton l x ih =>
    rw [List.length_append, List.length_singleton, Finset.sum_range_succ, List.map_append, List.sum_append, ← ih]
    congr 1
    · exact Finset.sum_congr rfl fun i hi => by rw [weightAt_append x (Finset.mem_range.1 hi)]
    · rw [weightAt_append_self]
      simp

theorem TreeOk.weightAt_leaf (h : TreeOk freq n nodes root) {i : Nat} (hi : i < n) :
    weightAt nodes i = weightAt (expectedLeaves freq) i := by
  rw [weightAt, weightAt, ← h.leaves, List.getElem?_take, if_pos hi]

theorem TreeOk.live_total (h : TreeOk freq n nodes root) (hs : countTotal freq < 2 ^ 32) {k : Nat} (hnk : n ≤ k)
    (hk : k ≤ nodes.length) : ∑ i ∈ liveSet nodes k, (weightAt nodes i).toNat = countTotal freq := by
  induction k, hnk using Nat.le_induction with
  | base =>
    have hlen : (expectedLeaves freq).length = n := by
      rw [← h.leaves, List.length_take]
      have := h.size
      have := h.positive
      omega
    have : liveSet nodes n = Finset.range n := by
      ext i
      rw [mem_liveSet, Finset.mem_range]
      refine ⟨fun hi => hi.1, fun hi => ⟨hi, ?_⟩⟩
      rintro j hj ⟨l, r, w, hn, -⟩
      have := (h.internal hn).1
      omega
    rw [this, ← expectedLeaves_weights, ← sum_range_weightAt, hlen]
    exact Finset.sum_congr rfl fun i hi => by rw [h.weightAt_leaf (Finset.mem_range.1 hi)]
  | succ k hnk ih =>
    obtain ⟨l, r, w, hn, hl, hr, he, -, -, hw⟩ := h.merges k hnk (by omega)
    have hlr : l.toNat ≠ r.toNat := (h.internal hn).2.2.2
    have hset : liveSet nodes (k + 1) = insert k (((liveSet nodes k).erase l.toNat).erase r.toNat) := by
      ext i
      simp only [mem_liveSet, Finset.mem_insert, Finset.mem_erase]
      constructor
      · rintro ⟨h1, h2⟩
        by_cases hik : i = k
        · exact .inl hik
        · exact .inr ⟨fun hh => h2 k (by omega) ⟨l, r, w, hn, .inr hh.symm⟩,
            fun hh => h2 k (by omega) ⟨l, r, w, hn, .inl hh.symm⟩, by omega, fun j hj => h2 j (by omega)⟩
      · rintro (rfl | ⟨h1, h2, h3, h4⟩)
        · refine ⟨by omega, fun j hj hc => ?_⟩
          have := h.linksDown j i hc
          omega
        · refine ⟨by omega, fun j hj => ?_⟩
          by_cases hjk : j = k
          · subst hjk
            rintro ⟨l', r', w', hn', hor⟩
            rw [hn] at hn'
            cases hn'
            rcases hor with hor | hor
            · exact h2 hor.symm
            · exact h1 hor.symm
          · exact h4 j (by omega)
    have ih := ih (by omega)
    have hlm : l.toNat ∈ liveSet nodes k := mem_liveSet.2 hl
    have hrm : r.toNat ∈ (liveSet nodes k).erase l.toNat := Finset.mem_erase.2 ⟨Ne.symm hlr, mem_liveSet.2 hr⟩
    rw [← Finset.add_sum_erase _ _ hlm, ← Finset.add_sum_erase _ _ hrm] at ih
    have hknot : k ∉ ((liveSet nodes k).erase l.toNat).erase r.toNat := by
      simp only [Finset.mem_erase, mem_liveSet]
      rintro ⟨-, -, hk', -⟩
      omega
    have hwk : weightAt nodes k = w := by rw [weightAt, hn]; rfl
    rw [hset, Finset.sum_insert hknot, hwk, hw, BitVec.toNat_add, Nat.mod_eq_of_lt (by omega)]
    omega

/-- A parent weighs what its children weigh together, as numbers (R127). -/
theorem TreeOk.weight_eq (h : TreeOk freq n nodes root) (hs : countTotal freq < 2 ^ 32) {k : Nat}
    {l r : BitVec 9} {w : Word} (hn : nodes[k]? = some (.internal l r w)) :
    w.toNat = (weightAt nodes l.toNat).toNat + (weightAt nodes r.toNat).toNat := by
  have hnk := (h.internal hn).1
  have hlr := (h.internal hn).2.2.2
  have hk : k < nodes.length := by
    by_contra hge
    rw [List.getElem?_eq_none (by omega)] at hn
    cases hn
  have htot := h.live_total hs hnk (le_of_lt hk)
  obtain ⟨l', r', w', hn', hl, hr, he, -, -, hw⟩ := h.merges k hnk hk
  rw [hn] at hn'
  cases hn'
  have hlm : l.toNat ∈ liveSet nodes k := mem_liveSet.2 hl
  have hrm : r.toNat ∈ (liveSet nodes k).erase l.toNat := Finset.mem_erase.2 ⟨Ne.symm hlr, mem_liveSet.2 hr⟩
  rw [← Finset.add_sum_erase _ _ hlm, ← Finset.add_sum_erase _ _ hrm] at htot
  rw [hw, BitVec.toNat_add, Nat.mod_eq_of_lt (by omega)]

/-- The root weighs what all counters count together (R124 (e)). -/
theorem TreeOk.root_weight (h : TreeOk freq n nodes root) (hs : countTotal freq < 2 ^ 32) :
    (weightAt nodes root).toNat = countTotal freq := by
  have hp := h.positive
  have hsz := h.size
  have hrl := h.rootLast
  have htot := h.live_total hs (k := nodes.length) (by omega) (le_refl _)
  have : liveSet nodes nodes.length = {root} := by
    ext i
    rw [mem_liveSet, Finset.mem_singleton]
    constructor
    · rintro ⟨h1, h2⟩
      by_contra hne
      obtain ⟨j, hj, -⟩ := h.oneParent i h1 hne
      exact h2 j hj.lt hj
    · rintro rfl
      refine ⟨by omega, fun j hj hc => ?_⟩
      have := h.linksDown j i hc
      omega
  rwa [this, Finset.sum_singleton] at htot

end tree

end Sys2Proof.Machine
end

