-- ==== Sys2Proof/Laws/Compress.lean ====
section
/-! SUPPORT. COUNT's map of an input inside the capacity, and COMPRESS of a non-empty input, said once. -/

namespace Sys2Proof.Machine

theorem freqAt_countBytes_ne {l : List Byte} (h : l.length < 2 ^ 32) (b : Byte) :
    freqAt (countBytes l) b ≠ 0 ↔ l.count b ≠ 0 := by
  rw [← freqAt_countBytes_toNat h b]
  exact ⟨fun h1 h2 => h1 (BitVec.eq_of_toNat_eq h2), fun h1 h2 => h1 (by rw [h2]; rfl)⟩

theorem distinctCount_countBytes {l : List Byte} (h : l.length < 2 ^ 32) :
    distinctCount (countBytes l) = symbols.countP fun b => l.count b ≠ 0 := by
  rw [distinctCount]
  apply List.countP_congr
  intro b _
  simp only [decide_eq_true_eq]
  exact freqAt_countBytes_ne h b

theorem nsym_toNat (freq : SymMap Word) : (BitVec.ofNat 9 (distinctCount freq)).toNat = distinctCount freq := by
  have := distinctCount_le freq
  simp
  omega

theorem countTotal_countBytes {l : List Byte} (h : l.length < 2 ^ 32) : countTotal (countBytes l) = l.length := by
  rw [countTotal]
  simp only [freqAt_countBytes_toNat h]
  exact sum_count_symbols l

theorem countBytes_key {l : List Byte} (h : l.length < 2 ^ 32) (hne : l ≠ []) : ∃ b, freqAt (countBytes l) b ≠ 0 := by
  cases l with
  | nil => exact absurd rfl hne
  | cons x xs => exact ⟨x, (freqAt_countBytes_ne h x).2 (by simp)⟩

theorem nsym_ne_zero {l : List Byte} (h : l.length < 2 ^ 32) (hne : l ≠ []) :
    BitVec.ofNat 9 (distinctCount (countBytes l)) ≠ 0 := by
  have hpos := distinctCount_pos.2 (countBytes_key h hne)
  intro hz
  have := congrArg BitVec.toNat hz
  rw [nsym_toNat] at this
  simp at this
  omega

/-- Everything COMPRESS does on a non-empty input inside the capacity: the tree of its counts, the codes of that tree,
and the container, or one of the two overflows. -/
theorem execCompress_spec {s : State} (he : s.err = .none) (hne : s.ibuf ≠ []) (hc : s.ibuf.length < 2 ^ 32) :
    ∃ nodes root code, TreeOk (countBytes s.ibuf) (distinctCount (countBytes s.ibuf)) nodes root ∧ root < 511 ∧
      TableOk code (distinctCount (countBytes s.ibuf)) ∧
      (∀ b c, (codeAt code b = c ∧ c ≠ []) ↔ IsTreeCode nodes root b c) ∧
      (∀ b, codeAt code b ≠ [] ↔ freqAt (countBytes s.ibuf) b ≠ 0) ∧
      execCompress s =
        if s.cfg.bcap.toNat < (codesOf code s.ibuf).length then .next (fail (bufferOverflow 0x04) s)
        else if s.cfg.ocap.toNat < containerSize code (packBytes (codesOf code s.ibuf)).length then
          .next (fail (bufferOverflow 0x06) s)
        else .next (compressedState s nodes (BitVec.ofNat 9 root) code) := by
  obtain ⟨nodes, root, hb, hr, hok, -⟩ := buildTree_spec (countBytes_key hc hne)
  obtain ⟨code, h1, h2, h3, h4⟩ := assignCodes_spec hok
  refine ⟨nodes, root, code, hok, hr, h2, h3, h4, ?_⟩
  have hroot : (BitVec.ofNat 9 root).toNat = root := by
    simp
    omega
  rw [execCompress_eq he, if_neg (nsym_ne_zero hc hne), hb]
  simp only [hroot, h1, encodeBytes_eq_codesOf, codesOf_length]

end Sys2Proof.Machine
end

