-- ==== Sys2Proof/Laws/Decode.lean ====
section
/-! SUPPORT. The decoder and the encoder in arithmetic: fields as quotients and remainders of the word. -/

namespace Sys2Proof

theorem opcodeField_toNat (w : Word) : (opcodeField w).toNat = w.toNat % 256 := by
  simp [opcodeField, BitVec.extractLsb'_toNat]

theorem zeroFieldZ_toNat (w : Word) : (zeroFieldZ w).toNat = w.toNat / 256 := by
  simp [zeroFieldZ, BitVec.extractLsb'_toNat, Nat.shiftRight_eq_div_pow]
  omega

theorem zeroFieldB_toNat (w : Word) : (zeroFieldB w).toNat = w.toNat / 65536 := by
  simp [zeroFieldB, BitVec.extractLsb'_toNat, Nat.shiftRight_eq_div_pow]
  omega

theorem imm8Field_eq (w : Word) : imm8Field w = BitVec.ofNat 8 (w.toNat / 256) := by
  apply BitVec.eq_of_toNat_eq
  simp [imm8Field, BitVec.extractLsb'_toNat, Nat.shiftRight_eq_div_pow]

theorem opcodeField_eq_iff (w : Word) (b : Byte) : opcodeField w = b ↔ w.toNat % 256 = b.toNat := by
  rw [← opcodeField_toNat]
  exact ⟨fun h => by rw [h], fun h => BitVec.eq_of_toNat_eq h⟩

theorem zeroFieldZ_ne_iff (w : Word) : zeroFieldZ w ≠ 0 ↔ w.toNat / 256 ≠ 0 := by
  rw [← zeroFieldZ_toNat]
  exact ⟨fun h h2 => h (BitVec.eq_of_toNat_eq (by simpa using h2)), fun h h2 => h (by rw [h2]; rfl)⟩

theorem zeroFieldB_ne_iff (w : Word) : zeroFieldB w ≠ 0 ↔ w.toNat / 65536 ≠ 0 := by
  rw [← zeroFieldB_toNat]
  exact ⟨fun h h2 => h (BitVec.eq_of_toNat_eq (by simpa using h2)), fun h h2 => h (by rw [h2]; rfl)⟩

/-- The decoder on the word as a number. -/
theorem decode_arith (w : Word) :
    decode w =
      if w.toNat % 256 = 13 then
        (if w.toNat / 65536 ≠ 0 then .error .zeroField else .ok (.push (BitVec.ofNat 8 (w.toNat / 256))))
      else if w.toNat / 256 ≠ 0 then .error .zeroField
      else
        match opcodeZ (BitVec.ofNat 8 (w.toNat % 256)) with
        | some i => .ok i
        | none => .error .noSuchOpcode := by
  have e : opcodeField w = BitVec.ofNat 8 (w.toNat % 256) := by
    rw [opcodeField_eq_iff]
    simp
  unfold decode
  simp only [opcodeField_eq_iff, zeroFieldB_ne_iff, zeroFieldZ_ne_iff, imm8Field_eq]
  rw [e]
  rfl

/-- The format-Z opcodes, as numbers below 256: each has its command, the others none. -/
theorem opcodeZ_cases (n : Nat) (hn : n < 256) :
    (∃ i, opcodeZ (BitVec.ofNat 8 n) = some i ∧ (opcodeByte i).toNat = n ∧ encode i = 0#24 ++ opcodeByte i) ∨
    (opcodeZ (BitVec.ofNat 8 n) = none ∧ (n = 13 ∨ n = 14 ∨ 16 ≤ n)) := by
  by_cases h : n < 16
  · interval_cases n <;> simp [opcodeZ, opcodeByte, encode]
  · right
    have hv : (BitVec.ofNat 8 n).toNat = n := by
      simp
      omega
    refine ⟨?_, by omega⟩
    unfold opcodeZ
    split <;> first | rfl | (exfalso; omega)

theorem toNat_append_eq {m n : Nat} (x : BitVec m) (y : BitVec n) : (x ++ y).toNat = x.toNat * 2 ^ n + y.toNat := by
  rw [BitVec.toNat_append, ← Nat.shiftLeft_add_eq_or_of_lt y.isLt, Nat.shiftLeft_eq]

/-- The word of PUSH as a number: `imm8 · 256 + 13`. -/
theorem encode_push_toNat (b : Byte) : (encode (.push b)).toNat = b.toNat * 256 + 13 := by
  simp only [encode, toNat_append_eq]
  simp

/-- The word of a format-Z command as a number: its opcode. -/
theorem encodeZ_toNat (op : Byte) : ((0#24 ++ op : Word)).toNat = op.toNat := by
  rw [toNat_append_eq]
  simp

/-- The only word that decodes to SRESET. -/
theorem eq_of_decode_sreset {w : Word} (h : decode w = .ok .sreset) : w = 0x0000000F := by
  have hw := w.isLt
  rw [decode_arith] at h
  split at h
  · split at h <;> cases h
  · split at h
    · cases h
    · rcases opcodeZ_cases (w.toNat % 256) (by omega) with ⟨i, hi, hop, -⟩ | ⟨hi, -⟩
      · rw [hi] at h
        cases h
        apply BitVec.eq_of_toNat_eq
        change 15 = _ at hop
        show w.toNat = 15
        omega
      · rw [hi] at h
        cases h

theorem decode_sreset : decode 0x0000000F = .ok .sreset := by decide +kernel

end Sys2Proof
end

