-- ==== Sys2Proof/Laws/Deserializer.lean ====
section
/-! SUPPORT. The container: what PARSE accepts, what it fills, and that it undoes SERIALIZE. -/

namespace Sys2Proof.Machine

theorem comparable_iff {c d : BitString} : comparable c d = true ↔ c <+: d ∨ d <+: c := by
  simp [comparable, List.isPrefixOf_iff_prefix]

/-- The prefix test over the filled part of the table (46_container_deserializer.md R189). -/
theorem conflicts_iff {code : SymMap BitString} (h : SymMap.wf [] code = true) {c : BitString} :
    conflicts code c = true ↔ ∃ s, codeAt code s ≠ [] ∧ (codeAt code s <+: c ∨ c <+: codeAt code s) := by
  rw [conflicts, List.any_eq_true]
  constructor
  · rintro ⟨⟨s, a⟩, hm, hc⟩
    have hg : codeAt code s = a := SymMap.get_of_mem h hm
    refine ⟨s, ?_, ?_⟩
    · rw [hg]; exact (SymMap.wf_iff.1 h).2 _ hm
    · rw [hg]; exact comparable_iff.1 hc
  · rintro ⟨s, hne, hc⟩
    exact ⟨(s, codeAt code s), SymMap.mem_of_get (d := []) hne, comparable_iff.2 hc⟩

/-- The table with entries added in container order. -/
def addEntries (code : SymMap BitString) (entries : List RawEntry) : SymMap BitString :=
  entries.foldl (fun code e => setCode code e.sym e.code) code

theorem addEntries_cons (code : SymMap BitString) (e : RawEntry) (es : List RawEntry) :
    addEntries code (e :: es) = addEntries (setCode code e.sym e.code) es := rfl

/-- One entry's shape: a non-zero length and all its code bytes. -/
def EntryShape (e : RawEntry) : Prop := e.len ≠ 0 ∧ e.bytes.length = ceil8 e.len.toNat

theorem EntryShape.code_ne {e : RawEntry} (h : EntryShape e) : e.code ≠ [] := by
  intro hc
  have h1 : e.code.length = e.len.toNat := codeOf_length _ _
  rw [hc, List.length_nil] at h1
  exact h.1 (BitVec.eq_of_toNat_eq (by simpa using h1.symm))

/-- The entry fits the table filled so far: its symbol has no code yet and its code is comparable to none. -/
def EntryFits (code : SymMap BitString) (e : RawEntry) : Prop :=
  codeAt code e.sym = [] ∧ ∀ s, codeAt code s ≠ [] → ¬ codeAt code s <+: e.code ∧ ¬ e.code <+: codeAt code s

/-- Entries that fit one after another. -/
def EntriesFit : SymMap BitString → List RawEntry → Prop
  | _, [] => True
  | code, e :: es => EntryShape e ∧ EntryFits code e ∧ EntriesFit (setCode code e.sym e.code) es

/-- The size of the entries in bytes. -/
def entriesSize (entries : List RawEntry) : Nat := (entries.flatMap RawEntry.layout).length

theorem entriesSize_cons (e : RawEntry) (es : List RawEntry) (h : EntryShape e) :
    entriesSize (e :: es) = 2 + ceil8 e.len.toNat + entriesSize es := by
  simp [entriesSize, RawEntry.layout, h.2]
  omega

/-- One pass over an entry that fits. -/
theorem parseEntries_step (pcap count n p : Nat) {code : SymMap BitString} (hw : SymMap.wf [] code = true)
    {e : RawEntry} (hs : EntryShape e) (hf : EntryFits code e) (rest : List Byte) :
    parseEntries pcap count (n + 1) p code (e.layout ++ rest) =
      parseEntries pcap count n (p + 2 + ceil8 e.len.toNat) (setCode code e.sym e.code) rest := by
  have hcode : codeOf (e.bytes ++ rest) e.len.toNat = e.code := codeOf_append _ _ _ hs.2
  have hdrop : (e.bytes ++ rest).drop (ceil8 e.len.toNat) = rest := by rw [← hs.2, List.drop_left]
  have hconf : conflicts code e.code = false := by
    rw [← Bool.not_eq_true, conflicts_iff hw]
    rintro ⟨s, hne, hc⟩
    exact hc.elim (hf.2 s hne).1 (hf.2 s hne).2
  show parseEntries pcap count (n + 1) p code (e.sym :: e.len :: (e.bytes ++ rest)) = _
  simp only [parseEntries]
  rw [if_neg hs.1, if_neg (by rw [List.length_append, hs.2]; omega), hcode, hdrop,
    if_neg (by rw [clenAt, hf.1]; simp), hconf]
  simp

/-- A pass over entries that fit, with more to come. -/
theorem parseEntries_run (pcap count m : Nat) (entries : List RawEntry) {p : Nat} {code : SymMap BitString}
    (hw : SymMap.wf [] code = true) (hf : EntriesFit code entries) (rest : List Byte) :
    parseEntries pcap count (entries.length + m) p code (entries.flatMap RawEntry.layout ++ rest) =
      parseEntries pcap count m (p + entriesSize entries) (addEntries code entries) rest := by
  induction entries generalizing p code with
  | nil => simp [entriesSize, addEntries]
  | cons e es ih =>
    obtain ⟨hs, hfit, hrest⟩ := hf
    rw [List.flatMap_cons, List.append_assoc, List.length_cons, Nat.add_right_comm,
      parseEntries_step _ _ _ _ hw hs hfit, ih (setCode_wf hw _ _) hrest, addEntries_cons, entriesSize_cons e es hs]
    congr 1
    omega

/-- What PARSE accepted entry by entry did fit. -/
theorem parseEntries_ok (pcap count : Nat) (n : Nat) {p : Nat} {code : SymMap BitString}
    (hw : SymMap.wf [] code = true) {bytes : List Byte} {r : Parsed}
    (h : parseEntries pcap count n p code bytes = .ok r) :
    ∃ entries rest, entries.length = n ∧ bytes = entries.flatMap RawEntry.layout ++ rest ∧ EntriesFit code entries ∧
      parseTail pcap count (p + entriesSize entries) (addEntries code entries) rest = .ok r := by
  induction n generalizing p code bytes with
  | zero => exact ⟨[], bytes, rfl, by simp, trivial, by simpa [parseEntries, entriesSize, addEntries] using h⟩
  | succ n ih =>
    rcases bytes with _ | ⟨s, _ | ⟨len, rest'⟩⟩
    · simp [parseEntries] at h
    · simp [parseEntries] at h
    · simp only [parseEntries] at h
      split at h
      · cases h
      split at h
      · cases h
      rename_i hlen hbytes
      split at h
      · cases h
      split at h
      · cases h
      rename_i hdup hconf
      set e : RawEntry := { sym := s, len := len, bytes := rest'.take (ceil8 len.toNat) } with he
      have hshape : EntryShape e := ⟨hlen, by simp [he]; omega⟩
      have hsplit : rest' = e.bytes ++ rest'.drop (ceil8 len.toNat) := (List.take_append_drop _ _).symm
      have hcode : codeOf rest' len.toNat = e.code := by
        conv_lhs => rw [hsplit]
        exact codeOf_append _ _ _ hshape.2
      rw [hcode] at h hconf
      obtain ⟨es, rest, h1, h2, h3, h4⟩ := ih (setCode_wf hw _ _) h
      have hfit : EntryFits code e := by
        refine ⟨?_, ?_⟩
        · simpa [clenAt] using hdup
        · intro t ht
          rw [conflicts_iff hw] at hconf
          exact ⟨fun hc => hconf ⟨t, ht, .inl hc⟩, fun hc => hconf ⟨t, ht, .inr hc⟩⟩
      refine ⟨e :: es, rest, by simp [h1], ?_, ⟨hshape, hfit, h3⟩, ?_⟩
      · rw [List.flatMap_cons, List.append_assoc, ← h2]
        simp only [RawEntry.layout, List.cons_append, he]
        rw [List.take_append_drop]
      · rw [addEntries_cons, entriesSize_cons e es hshape]
        rw [show p + (2 + ceil8 e.len.toNat + entriesSize es) = p + 2 + ceil8 len.toNat + entriesSize es by
          simp only [he]; omega]
        exact h4

/-- Entries with distinct symbols and prefix-free codes fit an empty table, and the other way round. -/
theorem entriesFit_iff_of (entries : List RawEntry) {code : SymMap BitString} (hw : SymMap.wf [] code = true) :
    EntriesFit code entries ↔ (∀ e ∈ entries, EntryFits code e) ∧ EntriesOk entries := by
  induction entries generalizing code with
  | nil => simp [EntriesFit, EntriesOk]
  | cons e es ih =>
    rw [EntriesFit, ih (setCode_wf hw _ _)]
    constructor
    · rintro ⟨hs, hf, hall, hok⟩
      refine ⟨?_, ⟨?_, List.pairwise_cons.2 ⟨?_, hok.2⟩⟩⟩
      · intro g hg
        rcases List.mem_cons.1 hg with rfl | hg
        · exact hf
        · obtain ⟨g1, g2⟩ := hall g hg
          have hne : e.sym ≠ g.sym := by
            intro hh
            rw [codeAt_setCode hw, if_pos hh] at g1
            exact hs.code_ne g1
          refine ⟨by rwa [codeAt_setCode hw, if_neg hne] at g1, ?_⟩
          intro s hsne
          have hes : e.sym ≠ s := by
            rintro rfl
            exact hsne hf.1
          have := g2 s (by rwa [codeAt_setCode hw, if_neg hes])
          rwa [codeAt_setCode hw, if_neg hes] at this
      · intro g hg
        rcases List.mem_cons.1 hg with rfl | hg
        · exact hs
        · exact hok.1 g hg
      · intro g hg
        obtain ⟨g1, g2⟩ := hall g hg
        have hne : e.sym ≠ g.sym := by
          intro hh
          rw [codeAt_setCode hw, if_pos hh] at g1
          exact hs.code_ne g1
        have := g2 e.sym (by rw [codeAt_setCode hw, if_pos rfl]; exact hs.code_ne)
        rw [codeAt_setCode hw, if_pos rfl] at this
        exact ⟨hne, this⟩
    · rintro ⟨hall, hsh, hpw⟩
      rw [List.pairwise_cons] at hpw
      have hs : EntryShape e := hsh e (by simp)
      refine ⟨hs, hall e (by simp), ?_, fun g hg => hsh g (by simp [hg]), hpw.2⟩
      intro g hg
      obtain ⟨g1, g2⟩ := hall g (by simp [hg])
      obtain ⟨p1, p2, p3⟩ := hpw.1 g hg
      refine ⟨by rwa [codeAt_setCode hw, if_neg p1], ?_⟩
      intro s hsne
      rw [codeAt_setCode hw] at hsne ⊢
      split
      · exact ⟨p2, p3⟩
      · rename_i hes
        rw [if_neg hes] at hsne
        exact g2 s hsne

theorem entriesFit_nil_iff (entries : List RawEntry) : EntriesFit [] entries ↔ EntriesOk entries := by
  rw [entriesFit_iff_of entries rfl]
  simp [EntryFits]

theorem addEntries_wf (entries : List RawEntry) {code : SymMap BitString} (hw : SymMap.wf [] code = true) :
    SymMap.wf [] (addEntries code entries) = true := by
  induction entries generalizing code with
  | nil => exact hw
  | cons e es ih => exact ih (setCode_wf hw _ _)

/-- The table the entries fill: each symbol's code is its entry's. -/
theorem codeAt_addEntries (entries : List RawEntry) {code : SymMap BitString} (hw : SymMap.wf [] code = true)
    (hd : entries.Pairwise fun e f => e.sym ≠ f.sym) (s : Byte) :
    codeAt (addEntries code entries) s =
      ((entries.find? fun e => e.sym == s).map RawEntry.code).getD (codeAt code s) := by
  induction entries generalizing code with
  | nil => rfl
  | cons e es ih =>
    rw [List.pairwise_cons] at hd
    rw [addEntries_cons, ih (setCode_wf hw _ _) hd.2, codeAt_setCode hw, List.find?_cons]
    by_cases hes : e.sym = s
    · subst hes
      have : es.find? (fun f => f.sym == e.sym) = none := by
        rw [List.find?_eq_none]
        intro f hf
        simpa using fun hh => hd.1 f hf (by rw [hh])
      simp [this]
    · have : (e.sym == s) = false := by simpa using hes
      simp [this, hes]

theorem codeAt_addEntries_nil {entries : List RawEntry} (h : EntriesOk entries) (s : Byte) :
    codeAt (addEntries [] entries) s = entryCode entries s := by
  rw [codeAt_addEntries entries rfl (h.2.imp fun hh => hh.1)]
  rfl

theorem entryCode_of_mem {entries : List RawEntry} (h : EntriesOk entries) {e : RawEntry} (he : e ∈ entries) :
    entryCode entries e.sym = e.code := by
  have hd := h.2.imp (S := fun e f : RawEntry => e.sym ≠ f.sym) fun hh => hh.1
  rw [entryCode]
  cases hf : entries.find? (fun f => f.sym == e.sym) with
  | none =>
    rw [List.find?_eq_none] at hf
    exact absurd (by simp) (hf e he)
  | some f =>
    have hfm := List.mem_of_find?_eq_some hf
    have hfs : f.sym = e.sym := by simpa using List.find?_some hf
    have : f = e := by
      by_contra hne
      rcases List.pairwise_iff_getElem.1 hd, List.mem_iff_getElem.1 hfm, List.mem_iff_getElem.1 he with
        ⟨hpw, ⟨i, hi, rfl⟩, ⟨j, hj, rfl⟩⟩
      rcases lt_trichotomy i j with hij | hij | hij
      · exact hpw i j hi hj hij hfs
      · subst hij; exact hne rfl
      · exact hpw j i hj hi hij hfs.symm
    rw [this]
    rfl

theorem entryCode_ne {entries : List RawEntry} {s : Byte} (hs : entryCode entries s ≠ []) :
    ∃ e ∈ entries, e.sym = s ∧ entryCode entries s = e.code := by
  rw [entryCode] at hs ⊢
  cases hf : entries.find? (fun f => f.sym == s) with
  | none => rw [hf] at hs; exact absurd rfl hs
  | some f =>
    exact ⟨f, List.mem_of_find?_eq_some hf, by simpa using List.find?_some hf, rfl⟩

/-- The table PARSE fills meets the Code Table invariant (10_state.md R32). -/
theorem addEntries_tableOk {entries : List RawEntry} (h : EntriesOk entries) :
    TableOk (addEntries [] entries) entries.length := by
  have hcode := codeAt_addEntries_nil h
  refine ⟨addEntries_wf entries rfl, ?_, ?_, ?_⟩
  · have hnd : (entries.map RawEntry.sym).Nodup := by
      rw [List.nodup_iff_pairwise_ne, List.pairwise_map]
      exact h.2.imp fun hh => hh.1
    rw [List.countP_eq_length_filter, ← List.length_map (as := entries) RawEntry.sym]
    apply List.Perm.length_eq
    rw [List.perm_ext_iff_of_nodup (symbols_nodup.filter _) hnd]
    intro s
    simp only [List.mem_filter, mem_symbols, true_and, List.mem_map, decide_eq_true_eq, hcode]
    constructor
    · intro hs
      obtain ⟨e, he, hes, -⟩ := entryCode_ne hs
      exact ⟨e, he, hes⟩
    · rintro ⟨e, he, rfl⟩
      rw [entryCode_of_mem h he]
      exact EntryShape.code_ne (h.1 e he)
  · intro s
    rw [hcode]
    by_cases hs : entryCode entries s = []
    · rw [hs]; simp
    · obtain ⟨e, he, -, hc⟩ := entryCode_ne hs
      rw [hc, RawEntry.code, codeOf_length]
      have := e.len.isLt
      omega
  · intro s t hst hs ht hpre
    rw [hcode] at hs ht hpre
    rw [hcode] at hpre
    obtain ⟨e, he, rfl, hce⟩ := entryCode_ne hs
    obtain ⟨f, hf, rfl, hcf⟩ := entryCode_ne ht
    rw [hce, hcf] at hpre
    rcases List.mem_iff_getElem.1 he with ⟨i, hi, rfl⟩
    rcases List.mem_iff_getElem.1 hf with ⟨j, hj, rfl⟩
    have hpw := List.pairwise_iff_getElem.1 h.2
    rcases lt_trichotomy i j with hij | hij | hij
    · exact (hpw i j hi hj hij).2.1 hpre
    · subst hij; exact hst rfl
    · exact (hpw j i hj hi hij).2.2 hpre

/-! The whole container -/

theorem rawContainer_split (count : Nat) (entries : List RawEntry) (rest : List Byte) (hc : count < 2 ^ 32) :
    ¬ (rawContainer count entries rest).length < 4 ∧ memRead ((rawContainer count entries rest).take 4) = count ∧
      (rawContainer count entries rest).drop 4 = entries.flatMap RawEntry.layout ++ rest := by
  have h4 : (memWrite 4 count).length = 4 := memWrite_length 4 count
  rw [rawContainer, List.append_assoc]
  refine ⟨by rw [List.length_append, h4]; omega, ?_, ?_⟩
  · rw [List.take_left' h4, memRead_memWrite]
    exact Nat.mod_eq_of_lt hc
  · rw [List.drop_left' h4]

/-- PARSE's reading of the first entries of a container, the rest still to come. -/
theorem parseContainer_run (pcap : Nat) {count : Nat} {entries : List RawEntry} (rest : List Byte)
    (h : EntriesOk entries) (h1 : 1 ≤ count) (h2 : count ≤ 256) (hle : entries.length ≤ count) :
    parseContainer pcap (rawContainer count entries rest) =
      parseEntries pcap count (count - entries.length) (4 + entriesSize entries) (addEntries [] entries) rest := by
  obtain ⟨c1, c2, c3⟩ := rawContainer_split count entries rest (by omega)
  rw [parseContainer, if_neg c1]
  simp only [c2, c3]
  rw [if_neg (by omega), show count = entries.length + (count - entries.length) by omega]
  rw [show entries.length + (count - entries.length) - entries.length = count - entries.length by omega]
  exact parseEntries_run _ _ _ _ rfl ((entriesFit_nil_iff entries).2 h) rest

/-- A whole container is accepted. -/
theorem parseContainer_ok {pcap : Nat} {entries : List RawEntry} {pad : Byte} {payload : List Byte}
    (h : EntriesOk entries) (h1 : 1 ≤ entries.length) (h2 : entries.length ≤ 256) (hpad : pad.toNat ≤ 7)
    (hne : payload ≠ []) (hcap : payload.length ≤ pcap) :
    parseContainer pcap (rawContainer entries.length entries (pad :: payload)) =
      .ok { count := entries.length, code := addEntries [] entries, pad := pad.setWidth 3, payload := payload } := by
  have := List.length_pos_iff.2 hne
  rw [parseContainer_run pcap _ h h1 h2 (le_refl _), Nat.sub_self, parseEntries, parseTail, if_neg (by omega),
    if_neg (by omega), if_neg (by omega)]

/-- Only such containers are accepted. -/
theorem parseContainer_inv {pcap : Nat} {bytes : List Byte} {r : Parsed} (h : parseContainer pcap bytes = .ok r) :
    ∃ entries pad, EntriesOk entries ∧ 1 ≤ entries.length ∧ entries.length ≤ 256 ∧ pad.toNat ≤ 7 ∧
      r.payload ≠ [] ∧ r.payload.length ≤ pcap ∧ r.count = entries.length ∧ r.pad = pad.setWidth 3 ∧
      r.code = addEntries [] entries ∧ bytes = rawContainer entries.length entries (pad :: r.payload) := by
  rw [parseContainer] at h
  split at h
  · cases h
  simp only at h
  split at h
  · cases h
  rename_i hlen hcnt
  obtain ⟨entries, rest, h1, h2, h3, h4⟩ := parseEntries_ok pcap _ _ rfl h
  rcases rest with _ | ⟨pad, payload⟩
  · cases h4
  simp only [parseTail] at h4
  split at h4
  · cases h4
  split at h4
  · cases h4
  split at h4
  · cases h4
  cases h4
  rename_i hp7 hpl hpc
  refine ⟨entries, pad, (entriesFit_nil_iff entries).1 h3, by omega, by omega, by omega, ?_, ?_, h1.symm, rfl,
    rfl, ?_⟩
  · rintro rfl
    exact hpl rfl
  · show payload.length ≤ pcap
    omega
  · rw [rawContainer, List.append_assoc, ← h2, h1]
    have h4 : (bytes.take 4).length = 4 := by rw [List.length_take]; omega
    have := memWrite_memRead (bytes.take 4)
    rw [h4] at this
    rw [this, List.take_append_drop]

/-! SERIALIZE's container -/

/-- The entries SERIALIZE writes. -/
def tableEntries (code : SymMap BitString) : List RawEntry :=
  (codedSymbols code).map fun s =>
    { sym := s, len := BitVec.ofNat 8 (codeAt code s).length, bytes := packBytes (codeAt code s) }

theorem containerBytes_eq (nsym : Nat) (code : SymMap BitString) (pad : BitVec 3) (payload : List Byte) :
    containerBytes nsym code pad payload = rawContainer nsym (tableEntries code) (pad.setWidth 8 :: payload) := by
  rw [containerBytes, rawContainer, tableEntries, List.flatMap_map, List.append_assoc, List.append_assoc,
    List.append_assoc]
  rfl

theorem mem_codedSymbols {code : SymMap BitString} {s : Byte} : s ∈ codedSymbols code ↔ codeAt code s ≠ [] := by
  simp [codedSymbols, clenAt]

theorem codedSymbols_length (code : SymMap BitString) :
    (codedSymbols code).length = symbols.countP fun s => codeAt code s ≠ [] := by
  rw [codedSymbols, ← List.countP_eq_length_filter]
  apply List.countP_congr
  intro s _
  simp [clenAt]

section table

variable {code : SymMap BitString} {n : Nat}

theorem tableEntry_code (h : TableOk code n) (s : Byte) :
    (RawEntry.code { sym := s, len := BitVec.ofNat 8 (codeAt code s).length, bytes := packBytes (codeAt code s) }) =
      codeAt code s := by
  have hl := h.lengths s
  simp only [RawEntry.code]
  rw [BitVec.toNat_ofNat, Nat.mod_eq_of_lt (by omega)]
  simpa using codeOf_packBytes (codeAt code s) []

theorem tableEntries_ok (h : TableOk code n) : EntriesOk (tableEntries code) := by
  refine ⟨?_, ?_⟩
  · intro e he
    simp only [tableEntries, List.mem_map, mem_codedSymbols] at he
    obtain ⟨s, hs, rfl⟩ := he
    have hl := h.lengths s
    have hp := List.length_pos_iff.2 hs
    simp only [packBytes_length, BitVec.toNat_ofNat]
    rw [Nat.mod_eq_of_lt (by omega)]
    refine ⟨?_, rfl⟩
    intro hz
    have := congrArg BitVec.toNat hz
    rw [BitVec.toNat_ofNat, Nat.mod_eq_of_lt (by omega)] at this
    simp at this
    exact hs this
  · rw [tableEntries, List.pairwise_map]
    have hnd : (codedSymbols code).Nodup := symbols_nodup.filter _
    refine (List.nodup_iff_pairwise_ne.1 hnd).imp_of_mem ?_
    intro s t hs ht hst
    rw [tableEntry_code h, tableEntry_code h]
    rw [mem_codedSymbols] at hs ht
    exact ⟨hst, h.prefixFree s t hst hs ht, h.prefixFree t s (Ne.symm hst) ht hs⟩

theorem tableEntries_length (h : TableOk code n) : (tableEntries code).length = n := by
  rw [tableEntries, List.length_map, codedSymbols_length, h.size]

/-- The entries of a table fill the same table. -/
theorem addEntries_tableEntries (h : TableOk code n) : addEntries [] (tableEntries code) = code := by
  have hok := tableEntries_ok h
  refine SymMap.ext_of_get (d := []) (addEntries_wf _ rfl) h.canonical ?_
  intro s
  show codeAt _ s = codeAt code s
  rw [codeAt_addEntries_nil hok]
  by_cases hs : codeAt code s = []
  · rw [hs]
    by_contra hne
    obtain ⟨e, he, hes, -⟩ := entryCode_ne hne
    simp only [tableEntries, List.mem_map, mem_codedSymbols] at he
    obtain ⟨t, ht, rfl⟩ := he
    subst hes
    exact ht hs
  · have hm : ({ sym := s, len := BitVec.ofNat 8 (codeAt code s).length, bytes := packBytes (codeAt code s) } :
        RawEntry) ∈ tableEntries code := by
      simp only [tableEntries, List.mem_map, mem_codedSymbols]
      exact ⟨s, hs, rfl⟩
    have := entryCode_of_mem hok hm
    rw [tableEntry_code h] at this
    exact this

theorem TableOk.le (h : TableOk code n) : n ≤ 256 := by
  rw [← h.size]
  have := List.countP_le_length (p := fun s => decide (codeAt code s ≠ [])) (l := symbols)
  simpa using this

theorem containerSize_eq (nsym : Nat) (code : SymMap BitString) (pad : BitVec 3) (payload : List Byte) :
    (containerBytes nsym code pad payload).length = containerSize code payload.length := by
  have key : ∀ l : List Byte, (l.flatMap fun s => entryBytes s (codeAt code s)).length =
      (l.map fun s => 2 + ceil8 (clenAt code s)).sum := by
    intro l
    induction l with
    | nil => rfl
    | cons s l ih =>
      rw [List.flatMap_cons, List.length_append, ih, List.map_cons, List.sum_cons]
      simp [entryBytes, clenAt]
      omega
  simp only [containerBytes, containerSize, List.length_append, memWrite_length, key, List.length_singleton]

/-- PARSE undoes SERIALIZE (46_container_deserializer.md R193). -/
theorem parseContainer_containerBytes (h : TableOk code n) (hn : 1 ≤ n) {pcap : Nat} (pad : BitVec 3)
    {payload : List Byte} (hne : payload ≠ []) (hcap : payload.length ≤ pcap) :
    parseContainer pcap (containerBytes n code pad payload) =
      .ok { count := n, code := code, pad := pad, payload := payload } := by
  have hlen := tableEntries_length h
  have hpad : (pad.setWidth 8).toNat ≤ 7 := by
    rw [BitVec.toNat_setWidth]
    have := pad.isLt
    omega
  have := parseContainer_ok (pcap := pcap) (tableEntries_ok h) (by omega) (by rw [hlen]; exact h.le) hpad hne hcap
  rw [hlen, addEntries_tableEntries h] at this
  rw [containerBytes_eq, this]
  congr 2
  apply BitVec.eq_of_toNat_eq
  have := pad.isLt
  simp only [BitVec.toNat_setWidth]
  omega

end table

end Sys2Proof.Machine
end

