-- ==== Sys2Proof/Laws/Exec.lean ====
section
/-! SUPPORT. What every command, and the step, can answer: said once. -/

namespace Sys2Proof.Machine

/-- A faulted block ignores every command but SRESET (60_exceptions.md R248). -/
theorem exec_faulted {i : Instr} {s : State} (he : s.err ≠ .none) (hi : i ≠ .sreset) : exec i s = .next s := by
  cases i <;> simp only [exec] <;> first
    | exact absurd rfl hi
    | (simp [execNop, execCount, execBuild, execAssign, execEncode, execPack, execSerialize, execParse, execUnpack,
        execDecode, execIclr, execPush, execCompress, execDecompress, unlessFaulted_of_faulted he, thenStage_stop he])

/-- No command touches the capacities or the host port. -/
theorem exec_keeps {i : Instr} {s t : State} (h : exec i s = .next t) :
    t.cfg = s.cfg ∧ t.port = s.port ∧ t.rdata = s.rdata := by
  by_cases he : s.err = .none
  swap
  · by_cases hi : i = .sreset
    · subst hi
      cases h
      exact ⟨rfl, rfl, rfl⟩
    · rw [exec_faulted he hi] at h
      cases h
      exact ⟨rfl, rfl, rfl⟩
  cases i <;> simp only [exec] at h
  case nop => rw [execNop_eq] at h; cases h; exact ⟨rfl, rfl, rfl⟩
  case count => rw [execCount_eq he] at h; cases h; exact ⟨rfl, rfl, rfl⟩
  case build =>
    by_cases hp : s.phase = .counted
    · rcases execBuild_next he hp h with ⟨-, rfl⟩ | ⟨-, _, _, -, rfl⟩ <;> exact ⟨rfl, rfl, rfl⟩
    · rw [execBuild_badPhase he hp] at h; cases h; exact ⟨rfl, rfl, rfl⟩
  case assign =>
    by_cases hp : s.phase = .built
    · rcases execAssign_next he hp h with ⟨_, -, rfl⟩ | ⟨_, -, rfl⟩ <;> exact ⟨rfl, rfl, rfl⟩
    · rw [execAssign_badPhase he hp] at h; cases h; exact ⟨rfl, rfl, rfl⟩
  case encode =>
    by_cases hp : s.phase = .assigned
    · rw [execEncode_eq he hp] at h; split at h <;> cases h <;> exact ⟨rfl, rfl, rfl⟩
    · rw [execEncode_badPhase he hp] at h; cases h; exact ⟨rfl, rfl, rfl⟩
  case pack =>
    by_cases hp : s.phase = .encoded
    · rw [execPack_eq he hp] at h; cases h; exact ⟨rfl, rfl, rfl⟩
    · rw [execPack_badPhase he hp] at h; cases h; exact ⟨rfl, rfl, rfl⟩
  case serialize =>
    by_cases hp : s.phase = .packed
    · rw [execSerialize_eq he hp] at h; split at h <;> cases h <;> exact ⟨rfl, rfl, rfl⟩
    · rw [execSerialize_badPhase he hp] at h; cases h; exact ⟨rfl, rfl, rfl⟩
  case compress =>
    rcases execCompress_next he h with ⟨_, rfl, -⟩ | ⟨_, _, _, -, -, -, -, -, rfl⟩ <;> exact ⟨rfl, rfl, rfl⟩
  case parse =>
    rw [execParse_eq he] at h; split at h <;> cases h <;> exact ⟨rfl, rfl, rfl⟩
  case unpack =>
    by_cases hp : s.phase = .parsed
    · rw [execUnpack_eq he hp] at h; split at h <;> cases h; exact ⟨rfl, rfl, rfl⟩
    · rw [execUnpack_badPhase he hp] at h; cases h; exact ⟨rfl, rfl, rfl⟩
  case decode =>
    by_cases hp : s.phase = .unpacked
    · rw [execDecode_eq he hp] at h; split at h <;> cases h <;> exact ⟨rfl, rfl, rfl⟩
    · rw [execDecode_badPhase he hp] at h; cases h; exact ⟨rfl, rfl, rfl⟩
  case decompress =>
    rcases execDecompress_next he h with ⟨_, rfl, -⟩ | ⟨_, _, -, -, -, rfl⟩ <;> exact ⟨rfl, rfl, rfl⟩
  case iclr => rw [execIclr_eq he] at h; cases h; exact ⟨rfl, rfl, rfl⟩
  case push => rw [execPush_eq he] at h; split at h <;> cases h <;> exact ⟨rfl, rfl, rfl⟩
  case sreset => cases h; exact ⟨rfl, rfl, rfl⟩

/-- Every next state of a command on a block that is not faulted: BadSequence, an error of the command's own, or
success with the PHASE of 30_encoding.md R83. -/
theorem exec_next {i : Instr} {s t : State} (he : s.err = .none) (h : exec i s = .next t) :
    (∃ p, neededPhase i = some p ∧ s.phase ≠ p ∧ t = fail (badSequence (opcodeByte i) s.phase) s) ∨
    ((∀ p, neededPhase i = some p → s.phase = p) ∧
      ((mayFail i = true ∧ ∃ e, t = fail e s ∧ e.code ≠ .none ∧ e.code ≠ .badSequence ∧
         (e = emptyMapError ∨ e = codeTooLongError ∨ IsParseError e ∨ (∃ pos, e = corruptContainer 0x0A 11 pos) ∨
           e ∈ [bufferOverflow 0x0D, bufferOverflow 0x04, bufferOverflow 0x06, bufferOverflow 0x08, bufferOverflow 0x0A])) ∨
       (t.err = .none ∧ t.phase = leftPhase i s.phase))) := by
  cases i <;> simp only [exec] at h
  case nop => rw [execNop_eq] at h; cases h; exact .inr ⟨by simp [neededPhase], .inr ⟨he, rfl⟩⟩
  case count => rw [execCount_eq he] at h; cases h; exact .inr ⟨by simp [neededPhase], .inr ⟨he, rfl⟩⟩
  case build =>
    by_cases hp : s.phase = .counted
    · refine .inr ⟨by simp [neededPhase, hp], ?_⟩
      rcases execBuild_next he hp h with ⟨-, rfl⟩ | ⟨-, _, _, -, rfl⟩
      · exact .inl ⟨rfl, _, rfl, by simp [emptyMapError], by simp [emptyMapError], .inl rfl⟩
      · exact .inr ⟨he, rfl⟩
    · rw [execBuild_badPhase he hp] at h; cases h; exact .inl ⟨_, rfl, hp, rfl⟩
  case assign =>
    by_cases hp : s.phase = .built
    · refine .inr ⟨by simp [neededPhase, hp], ?_⟩
      rcases execAssign_next he hp h with ⟨_, hh, rfl⟩ | ⟨_, -, rfl⟩
      · rw [assignCodes_error hh]
        exact .inl ⟨rfl, _, rfl, by simp [codeTooLongError], by simp [codeTooLongError], .inr (.inl rfl)⟩
      · exact .inr ⟨he, rfl⟩
    · rw [execAssign_badPhase he hp] at h; cases h; exact .inl ⟨_, rfl, hp, rfl⟩
  case encode =>
    by_cases hp : s.phase = .assigned
    · refine .inr ⟨by simp [neededPhase, hp], ?_⟩
      rw [execEncode_eq he hp] at h; split at h <;> cases h
      · exact .inl ⟨rfl, _, rfl, by simp [bufferOverflow], by simp [bufferOverflow], by simp⟩
      · exact .inr ⟨he, rfl⟩
    · rw [execEncode_badPhase he hp] at h; cases h; exact .inl ⟨_, rfl, hp, rfl⟩
  case pack =>
    by_cases hp : s.phase = .encoded
    · refine .inr ⟨by simp [neededPhase, hp], ?_⟩
      rw [execPack_eq he hp] at h; cases h; exact .inr ⟨he, rfl⟩
    · rw [execPack_badPhase he hp] at h; cases h; exact .inl ⟨_, rfl, hp, rfl⟩
  case serialize =>
    by_cases hp : s.phase = .packed
    · refine .inr ⟨by simp [neededPhase, hp], ?_⟩
      rw [execSerialize_eq he hp] at h; split at h <;> cases h
      · exact .inl ⟨rfl, _, rfl, by simp [bufferOverflow], by simp [bufferOverflow], by simp⟩
      · exact .inr ⟨he, rfl⟩
    · rw [execSerialize_badPhase he hp] at h; cases h; exact .inl ⟨_, rfl, hp, rfl⟩
  case compress =>
    refine .inr ⟨by simp [neededPhase], ?_⟩
    rcases execCompress_next he h with ⟨e, rfl, hm⟩ | ⟨_, _, _, -, -, -, -, -, rfl⟩
    · refine .inl ⟨rfl, _, rfl, ?_⟩
      simp only [List.mem_cons, List.not_mem_nil, or_false] at hm
      rcases hm with rfl | rfl | rfl | rfl <;> simp [emptyMapError, codeTooLongError, bufferOverflow]
    · exact .inr ⟨he, rfl⟩
  case parse =>
    refine .inr ⟨by simp [neededPhase], ?_⟩
    rw [execParse_eq he] at h; split at h
    · cases h; exact .inr ⟨he, rfl⟩
    · rename_i e hx
      cases h
      have := parseContainer_error hx
      refine .inl ⟨rfl, _, rfl, this.code_ne, ?_, .inr (.inr (.inl this))⟩
      rcases this with rfl | ⟨_, _, -, -, -, rfl⟩ <;> simp [bufferOverflow, parseError, corruptContainer]
  case unpack =>
    by_cases hp : s.phase = .parsed
    · refine .inr ⟨by simp [neededPhase, hp], ?_⟩
      rw [execUnpack_eq he hp] at h; split at h <;> cases h; exact .inr ⟨he, rfl⟩
    · rw [execUnpack_badPhase he hp] at h; cases h; exact .inl ⟨_, rfl, hp, rfl⟩
  case decode =>
    by_cases hp : s.phase = .unpacked
    · refine .inr ⟨by simp [neededPhase, hp], ?_⟩
      rw [execDecode_eq he hp] at h; split at h
      · cases h; exact .inr ⟨he, rfl⟩
      · rename_i e hx
        cases h
        rcases decodeScan_error _ hx with rfl | ⟨pos, rfl⟩
        · exact .inl ⟨rfl, _, rfl, by simp [bufferOverflow], by simp [bufferOverflow], by simp⟩
        · exact .inl ⟨rfl, _, rfl, by simp [corruptContainer], by simp [corruptContainer],
            .inr (.inr (.inr (.inl ⟨pos, rfl⟩)))⟩
    · rw [execDecode_badPhase he hp] at h; cases h; exact .inl ⟨_, rfl, hp, rfl⟩
  case decompress =>
    refine .inr ⟨by simp [neededPhase], ?_⟩
    rcases execDecompress_next he h with ⟨e, rfl, hm⟩ | ⟨_, _, -, -, -, rfl⟩
    · refine .inl ⟨rfl, _, rfl, ?_⟩
      rcases hm with hm | rfl | ⟨pos, rfl⟩
      · refine ⟨hm.code_ne, ?_, .inr (.inr (.inl hm))⟩
        rcases hm with rfl | ⟨_, _, -, -, -, rfl⟩ <;> simp [bufferOverflow, parseError, corruptContainer]
      · exact ⟨by simp [bufferOverflow], by simp [bufferOverflow], by simp⟩
      · exact ⟨by simp [corruptContainer], by simp [corruptContainer],
            .inr (.inr (.inr (.inl ⟨pos, rfl⟩)))⟩
    · exact .inr ⟨he, rfl⟩
  case iclr => rw [execIclr_eq he] at h; cases h; exact .inr ⟨by simp [neededPhase], .inr ⟨he, rfl⟩⟩
  case push =>
    refine .inr ⟨by simp [neededPhase], ?_⟩
    rw [execPush_eq he] at h; split at h <;> cases h
    · exact .inl ⟨rfl, _, rfl, by simp [bufferOverflow], by simp [bufferOverflow], by simp⟩
    · exact .inr ⟨he, rfl⟩
  case sreset => cases h; exact .inr ⟨by simp [neededPhase], .inr ⟨rfl, rfl⟩⟩

/-- The same outcome under another list of pending host inputs. -/
def relabel (p : List HostInput) (r : Result) : Result :=
  match r with
  | .next t => .next { t with port := p }
  | .fault f => .fault f
  | .refused f => .refused f

/-- A command does not look at the pending host inputs. -/
theorem exec_port (i : Instr) (s : State) (p : List HostInput) :
    exec i { s with port := p } = relabel p (exec i s) := by
  by_cases he : s.err = .none
  swap
  · by_cases hi : i = .sreset
    · subst hi; rfl
    · rw [exec_faulted he hi, exec_faulted (s := {s with port := p}) he hi]; rfl
  have hf : ∀ e, fail e { s with port := p } = { fail e s with port := p } := fun e => rfl
  cases i <;> simp only [exec]
  case nop => rw [execNop_eq, execNop_eq]; rfl
  case count => rw [execCount_eq he, execCount_eq (s := {s with port := p}) he]; rfl
  case build =>
    by_cases hp : s.phase = .counted
    · rw [execBuild_eq he hp, execBuild_eq (s := {s with port := p}) he hp]
      simp only; split; · rfl
      cases buildTree s.freq <;> rfl
    · rw [execBuild_badPhase he hp, execBuild_badPhase (s := {s with port := p}) he hp]; rfl
  case assign =>
    by_cases hp : s.phase = .built
    · rw [execAssign_eq he hp, execAssign_eq (s := {s with port := p}) he hp]
      simp only
      rcases assignCodes s.nodes s.root.toNat s.code with (_ | _) | _ <;> rfl
    · rw [execAssign_badPhase he hp, execAssign_badPhase (s := {s with port := p}) he hp]; rfl
  case encode =>
    by_cases hp : s.phase = .assigned
    · rw [execEncode_eq he hp, execEncode_eq (s := {s with port := p}) he hp]
      simp only; split <;> rfl
    · rw [execEncode_badPhase he hp, execEncode_badPhase (s := {s with port := p}) he hp]; rfl
  case pack =>
    by_cases hp : s.phase = .encoded
    · rw [execPack_eq he hp, execPack_eq (s := {s with port := p}) he hp]; rfl
    · rw [execPack_badPhase he hp, execPack_badPhase (s := {s with port := p}) he hp]; rfl
  case serialize =>
    by_cases hp : s.phase = .packed
    · rw [execSerialize_eq he hp, execSerialize_eq (s := {s with port := p}) he hp]
      simp only; split <;> rfl
    · rw [execSerialize_badPhase he hp, execSerialize_badPhase (s := {s with port := p}) he hp]; rfl
  case compress =>
    rw [execCompress_eq he, execCompress_eq (s := {s with port := p}) he]
    simp only; split; · rfl
    rcases buildTree (countBytes s.ibuf) with _ | ⟨nodes, root⟩; · rfl
    simp only
    rcases assignCodes nodes (BitVec.ofNat 9 root).toNat [] with (_ | _) | _
    · rfl
    · rfl
    · simp only; split; · rfl
      split <;> rfl
  case parse =>
    rw [execParse_eq he, execParse_eq (s := {s with port := p}) he]
    simp only; cases parseContainer s.cfg.pcap s.ibuf <;> rfl
  case unpack =>
    by_cases hp : s.phase = .parsed
    · rw [execUnpack_eq he hp, execUnpack_eq (s := {s with port := p}) he hp]
      simp only; split <;> rfl
    · rw [execUnpack_badPhase he hp, execUnpack_badPhase (s := {s with port := p}) he hp]; rfl
  case decode =>
    by_cases hp : s.phase = .unpacked
    · rw [execDecode_eq he hp, execDecode_eq (s := {s with port := p}) he hp]
      simp only; cases decodeScan s.cfg.ocap.toNat s.code s.bits 0 [] [] 0 <;> rfl
    · rw [execDecode_badPhase he hp, execDecode_badPhase (s := {s with port := p}) he hp]; rfl
  case decompress =>
    rw [execDecompress_eq he, execDecompress_eq (s := {s with port := p}) he]
    simp only
    cases parseContainer s.cfg.pcap s.ibuf with
    | error e => rfl
    | ok r =>
      simp only; split
      · cases decodeScan s.cfg.ocap.toNat r.code (unpackBits r.payload r.pad) 0 [] [] 0 <;> rfl
      · rfl
  case iclr => rw [execIclr_eq he, execIclr_eq (s := {s with port := p}) he]; rfl
  case push =>
    rw [execPush_eq he, execPush_eq (s := {s with port := p}) he]
    simp only; split <;> rfl
  case sreset => rfl

/-- A legal word runs its command, faulted or not. -/
theorem writeCmd_of_decode {w : Word} {i : Instr} (s : State) (h : decode w = .ok i) : writeCmd w s = exec i s := by
  rw [writeCmd]
  split
  · rename_i he
    split
    · rename_i h2
      subst h2
      rw [decode_sreset] at h
      cases h
      rfl
    · rename_i h2
      rw [exec_faulted he]
      rintro rfl
      exact h2 (eq_of_decode_sreset h)
  · rw [h]

/-- Everything a write to CMD can do. -/
theorem writeCmd_cases {w : Word} {s : State} (r : Result) (h : writeCmd w s = r) :
    (s.err ≠ .none ∧ r = .next s) ∨ (s.err = .none ∧ r = .next (fail (illegalCommand w) s) ∧ ∃ e, decode w = .error e) ∨
    (∃ i, decode w = .ok i ∧ r = exec i s) := by
  cases hd : decode w with
  | ok i => exact .inr (.inr ⟨i, rfl, by rw [← h, writeCmd_of_decode s hd]⟩)
  | error e =>
    rw [writeCmd] at h
    split at h
    · rename_i he
      split at h
      · rename_i h2
        subst h2
        rw [decode_sreset] at hd; cases hd
      · exact .inl ⟨he, h.symm⟩
    · rename_i he
      rw [hd] at h
      exact .inr (.inl ⟨not_not.1 he, h.symm, e, rfl⟩)

/-- Everything a step can answer with a next state. -/
theorem step_next {s t : State} (h : step s = .next t) :
    (s.port = [] ∧ t = s) ∨ (∃ rest, s.port = .rst :: rest ∧ t = { State.resetWith s.cfg with port := rest }) ∨
    (∃ rest r, t = { s with port := rest, rdata := r }) ∨
    (∃ rest w, s.err = .none ∧ (∃ e, decode w = .error e) ∧
      t = fail (illegalCommand w) { s with port := rest, rdata := none }) ∨
    (∃ rest i, exec i { s with port := rest, rdata := none } = .next t) := by
  change portStep s = _ at h
  rw [portStep] at h
  cases hp : s.port with
  | nil => rw [hp] at h; cases h; exact .inl ⟨rfl, rfl⟩
  | cons x rest =>
    rw [hp] at h
    cases x with
    | rst => cases h; exact .inr (.inl ⟨rest, rfl, rfl⟩)
    | transaction tr =>
      change transact tr _ = _ at h
      rw [transact] at h
      split at h
      · rw [hostWrite] at h
        split at h
        · rcases writeCmd_cases _ h with ⟨-, h⟩ | ⟨he, h, hd⟩ | ⟨i, -, h⟩
          · cases h; exact .inr (.inr (.inl ⟨_, _, rfl⟩))
          · cases h; exact .inr (.inr (.inr (.inl ⟨_, _, he, hd, rfl⟩)))
          · exact .inr (.inr (.inr (.inr ⟨rest, i, h.symm⟩)))
        · cases h; exact .inr (.inr (.inl ⟨_, _, rfl⟩))
      · cases h; exact .inr (.inr (.inl ⟨_, _, rfl⟩))

end Sys2Proof.Machine
end

