-- ==== Sys2Proof/Laws/GreedyTree.lean ====
section
/-! SUPPORT. The greedy merge of a Frequency Map is one tree: arena and root are determined, node by node
(41_tree_builder.md R125). -/

namespace Sys2Proof.Machine

variable {freq : SymMap Word} {n m root root' k i j : Nat} {a b : List Node}

/-- Arenas that agree below k agree at every index below k. -/
theorem getElem?_eq_of_take_eq (h : a.take k = b.take k) (hi : i < k) : a[i]? = b[i]? := by
  simpa [List.getElem?_take, hi] using congrArg (·[i]?) h

/-- LIVE at turn k depends on the nodes below k only. -/
theorem IsLive.congr (h : a.take k = b.take k) (hl : IsLive a k i) : IsLive b k i := by
  refine ⟨hl.1, fun j hj hc => hl.2 j hj ?_⟩
  obtain ⟨l, r, w, hn, hor⟩ := hc
  exact ⟨l, r, w, by rw [getElem?_eq_of_take_eq h hj, hn], hor⟩

theorem Earlier.congr (h : a.take k = b.take k) (hi : i < k) (hj : j < k) (he : Earlier a i j) : Earlier b i j := by
  unfold Earlier weightAt at *
  rwa [getElem?_eq_of_take_eq h hi, getElem?_eq_of_take_eq h hj] at he

theorem Earlier.irrefl (h : Earlier a i i) : False := by
  unfold Earlier at h
  omega

theorem Earlier.asymm (h1 : Earlier a i j) (h2 : Earlier a j i) : False := by
  unfold Earlier at h1 h2
  rcases h1 with h1 | ⟨h1, h1'⟩ <;> rcases h2 with h2 | ⟨h2, h2'⟩
  · omega
  · rw [h2] at h1; omega
  · rw [h1] at h2; omega
  · omega

/-- Two arenas that agree below k and both make their node k by the greedy merge have the same node k: the two minima of
LIVE are the same, by weight and then index, and so is their sum. -/
theorem IsGreedyMerge.unique (h : a.take k = b.take k) (ha : IsGreedyMerge a k) (hb : IsGreedyMerge b k) :
    a[k]? = b[k]? := by
  obtain ⟨l, r, w, h1, hl, hr, he, hm1, hm2, hw⟩ := ha
  obtain ⟨l', r', w', h1', hl', hr', he', hm1', hm2', hw'⟩ := hb
  have hrl : r.toNat ≠ l.toNat := fun hh => (hh ▸ he).irrefl
  have hrl' : r'.toNat ≠ l'.toNat := fun hh => (hh ▸ he').irrefl
  have hll : l.toNat = l'.toNat := by
    by_contra hne
    exact (hm1' _ (hl.congr h) hne).asymm ((hm1 _ (hl'.congr h.symm) (Ne.symm hne)).congr h hl.1 hl'.1)
  have hrr : r.toNat = r'.toNat := by
    by_contra hne
    exact (hm2' _ (hr.congr h) (hll ▸ hrl) hne).asymm
      ((hm2 _ (hr'.congr h.symm) (hll ▸ hrl') (Ne.symm hne)).congr h hr.1 hr'.1)
  obtain rfl := BitVec.eq_of_toNat_eq hll
  obtain rfl := BitVec.eq_of_toNat_eq hrr
  rw [h1, h1', hw, hw']
  unfold weightAt
  rw [getElem?_eq_of_take_eq h hl.1, getElem?_eq_of_take_eq h hr.1]

/-- The Frequency Map determines the arena and the root. -/
theorem TreeOk.unique (ha : TreeOk freq n a root) (hb : TreeOk freq m b root') : a = b ∧ root = root' := by
  obtain rfl : n = m := by rw [ha.count, hb.count]
  have hp := ha.positive
  have hlen : a.length = b.length := by rw [ha.size, hb.size]
  have agree : ∀ k ≤ a.length, a.take k = b.take k := by
    intro k hk
    induction k with
    | zero => rfl
    | succ k ih =>
      have ih := ih (by omega)
      rw [List.take_add_one, List.take_add_one, ih]
      congr 2
      by_cases hkn : k < n
      · exact getElem?_eq_of_take_eq (k := n) (by rw [ha.leaves, hb.leaves]) hkn
      · exact (ha.merges k (by omega) (by omega)).unique ih (hb.merges k (by omega) (by omega))
  have hab : a = b := by
    have := agree a.length (le_refl _)
    rwa [List.take_length, hlen, List.take_length] at this
  exact ⟨hab, by rw [ha.rootLast, hb.rootLast, hab]⟩

end Sys2Proof.Machine
end

