-- ==== Sys2Proof/Laws/Memory.lean ====
section
/-! SUPPORT. Every operation over the symbol-indexed memories keeps their canonical form (log 6). -/

namespace Sys2Proof.Machine

theorem visit_wf {nodes : List Node} (fuel : Nat) {i : Nat} {path : BitString} {code code' : SymMap BitString}
    (hw : SymMap.wf [] code = true) (h : visit nodes fuel i path code = .ok code') : SymMap.wf [] code' = true := by
  induction fuel generalizing i path code code' with
  | zero => cases h
  | succ fuel ih =>
    rw [visit] at h
    split at h
    · cases h
    · split at h
      · cases h
      · cases h; exact setCode_wf hw _ _
    · split at h
      · rename_i hv
        exact ih (ih hw hv) h
      · cases h

theorem assignCodes_wf {nodes : List Node} {root : Nat} {code code' : SymMap BitString}
    (hw : SymMap.wf [] code = true) (h : assignCodes nodes root code = .ok code') : SymMap.wf [] code' = true := by
  rw [assignCodes] at h
  split at h
  · cases h; exact setCode_wf hw _ _
  · exact visit_wf _ hw h

theorem parseContainer_wf {pcap : Nat} {bytes : List Byte} {r : Parsed} (h : parseContainer pcap bytes = .ok r) :
    SymMap.wf [] r.code = true := by
  obtain ⟨entries, pad, hok, -, -, -, -, -, -, -, hcode, -⟩ := parseContainer_inv h
  rw [hcode]
  exact addEntries_wf entries rfl

theorem memory_wf_iff {s : State} :
    Memory.wf s = true ↔ SymMap.wf 0 s.freq = true ∧ SymMap.wf [] s.code = true := by
  simp [Memory.wf]

theorem countedState_memory_wf (s : State) : Memory.wf (countedState s) = true :=
  memory_wf_iff.2 ⟨countBytes_wf s.ibuf, rfl⟩

theorem compressedState_memory_wf {s : State} {nodes nodes' : List Node} {root : BitVec 9} {n : Nat}
    {code : SymMap BitString} (h : assignCodes nodes n [] = .ok code) :
    Memory.wf (compressedState s nodes' root code) = true :=
  memory_wf_iff.2 ⟨countBytes_wf s.ibuf, assignCodes_wf rfl h⟩

theorem decompressedState_memory_wf {s : State} {r : Parsed} {out : List Byte}
    (h : parseContainer s.cfg.pcap s.ibuf = .ok r) : Memory.wf (decompressedState s r out) = true :=
  memory_wf_iff.2 ⟨rfl, parseContainer_wf h⟩

end Sys2Proof.Machine
end

