-- ==== Sys2Proof/Laws/PerInstr.lean ====
section
/-! SUPPORT. Statements for all commands, one lemma for each constructor. -/

/-- The word of a command matches its own row of the opcode map and carries its opcode in the low byte
(30_encoding.md R80 to R83). -/
def Sys2Proof.Laws.TableWord.Statement (i : Sys2Proof.Instr) : Prop :=
  Sys2Proof.encode i &&& (Sys2Proof.opcodeRow i).mask = (Sys2Proof.opcodeRow i).pattern ∧
    Sys2Proof.opcodeField (Sys2Proof.encode i) = Sys2Proof.opcodeByte i

namespace Sys2Proof.Laws.TableWord

theorem nop : Statement .nop := ⟨by decide +kernel, by decide +kernel⟩
theorem count : Statement .count := ⟨by decide +kernel, by decide +kernel⟩
theorem build : Statement .build := ⟨by decide +kernel, by decide +kernel⟩
theorem assign : Statement .assign := ⟨by decide +kernel, by decide +kernel⟩
theorem encode : Statement .encode := ⟨by decide +kernel, by decide +kernel⟩
theorem pack : Statement .pack := ⟨by decide +kernel, by decide +kernel⟩
theorem serialize : Statement .serialize := ⟨by decide +kernel, by decide +kernel⟩
theorem compress : Statement .compress := ⟨by decide +kernel, by decide +kernel⟩
theorem parse : Statement .parse := ⟨by decide +kernel, by decide +kernel⟩
theorem unpack : Statement .unpack := ⟨by decide +kernel, by decide +kernel⟩
theorem decode : Statement .decode := ⟨by decide +kernel, by decide +kernel⟩
theorem decompress : Statement .decompress := ⟨by decide +kernel, by decide +kernel⟩
theorem iclr : Statement .iclr := ⟨by decide +kernel, by decide +kernel⟩
theorem sreset : Statement .sreset := ⟨by decide +kernel, by decide +kernel⟩

theorem push : ∀ imm8 : Sys2Proof.Byte, Statement (.push imm8) := by
  unfold Statement
  decide +kernel

end Sys2Proof.Laws.TableWord
end

