-- ==== Sys2Proof/Laws/Reads.lean ====
section
/-! SUPPORT. The host's gated reads: the registers as a table, and the zero every read of a cleared product answers. -/

namespace Sys2Proof.Machine

theorem statusWord_eq (s : State) :
    statusWord s = BitVec.ofNat 32 (16 * s.phase.toBits.toNat + s.err.toBits.toNat) := by
  unfold statusWord
  cases s.phase <;> cases s.err <;> rfl

theorem errinfoWord_toNat (s : State) : (errinfoWord s).toNat = 256 * s.sub.toNat + s.stage.toNat := by
  unfold errinfoWord
  rw [toNat_append_eq, toNat_append_eq]
  simp
  omega

theorem errinfoWord_eq (s : State) : errinfoWord s = BitVec.ofNat 32 (256 * s.sub.toNat + s.stage.toNat) := by
  apply BitVec.eq_of_toNat_eq
  rw [errinfoWord_toNat]
  have := s.sub.isLt
  have := s.stage.isLt
  simp
  omega

theorem gated_eq {α : Type} (l : List α) (i : Word) (f : α → Word) : gated l i f = (l[i.toNat]?.map f).getD 0 := by
  unfold gated
  cases l[i.toNat]? <;> rfl

/-- Every product of the state is at its reset value after Fail(). -/
theorem fail_cleared (e : ErrorRecord) (s : State) : ProductsCleared (fail e s) :=
  ⟨fun _ => rfl, fun _ => rfl, rfl, rfl, rfl, rfl, rfl, rfl, rfl⟩

/-- A cleared product reads as zero, at every index of every product space (20_memory.md R63). -/
theorem hostRead_cleared {t : State} (h : ProductsCleared t) (space : BitVec 4) (index : Word)
    (hs : 2 ≤ space.toNat) : hostRead t space index = 0 := by
  obtain ⟨h1, h2, -, h4, -, h6, h7, -, h9⟩ := h
  unfold hostRead
  split
  · omega
  · omega
  · simp [gated, h9]
  · simp [h1]
  · simp [gated, h4]
  · simp [gated, h4]
  · simp [clenAt, h2]
  · simp [readCbits, h2, ceil8]
  · simp [gated, h6]
  · simp [gated, h7]
  · rfl

end Sys2Proof.Machine
end

