-- ==== Sys2Proof/Tests/Slice0.lean ====
section
/-! SUPPORT. The model's own tests, each with the place of spec/ its expected result comes from, and for every statement
with hypotheses a witness that meets them. -/

/-! One thread: the theorems below are many and small, and a thread for each asks for more memory than the check
allows. -/
set_option Elab.async false

namespace Sys2Proof.Tests

open Sys2Proof.Machine

/-! Words written out bit by bit from 30_encoding.md R81 (Z: zero[31:8], opcode[7:0]) and R82 (B: zero[31:16],
imm8[15:8], opcode[7:0]) -/

theorem test_decode_nop : decode 0b00000000000000000000000000000000 = .ok .nop := by decide +kernel
theorem test_decode_count : decode 0b00000000000000000000000000000001 = .ok .count := by decide +kernel
theorem test_decode_build : decode 0b00000000000000000000000000000010 = .ok .build := by decide +kernel
theorem test_decode_assign : decode 0b00000000000000000000000000000011 = .ok .assign := by decide +kernel
theorem test_decode_encode : decode 0b00000000000000000000000000000100 = .ok .encode := by decide +kernel
theorem test_decode_pack : decode 0b00000000000000000000000000000101 = .ok .pack := by decide +kernel
theorem test_decode_serialize : decode 0b00000000000000000000000000000110 = .ok .serialize := by decide +kernel
theorem test_decode_compress : decode 0b00000000000000000000000000000111 = .ok .compress := by decide +kernel
theorem test_decode_parse : decode 0b00000000000000000000000000001000 = .ok .parse := by decide +kernel
theorem test_decode_unpack : decode 0b00000000000000000000000000001001 = .ok .unpack := by decide +kernel
theorem test_decode_decode : decode 0b00000000000000000000000000001010 = .ok .decode := by decide +kernel
theorem test_decode_decompress : decode 0b00000000000000000000000000001011 = .ok .decompress := by decide +kernel
theorem test_decode_iclr : decode 0b00000000000000000000000000001100 = .ok .iclr := by decide +kernel
theorem test_decode_push : decode 0b00000000000000000110000100001101 = .ok (.push 0x61) := by decide +kernel
theorem test_decode_sreset : decode 0b00000000000000000000000000001111 = .ok .sreset := by decide +kernel

/-- R86 and the rows of 60_exceptions.md R256. -/
theorem test_decode_illegal :
    decode 0x0000000E = .error .noSuchOpcode ∧ decode 0x00000010 = .error .noSuchOpcode ∧
    decode 0x000000FF = .error .noSuchOpcode ∧ decode 0x00000101 = .error .zeroField ∧
    decode 0x0001610D = .error .zeroField ∧ decode 0xFFFFFFFF = .error .zeroField := by decide +kernel

theorem test_decodeTableWord : decodeTableWord 32 0x610D = some (.push 0x61) ∧ decodeTableWord 32 0x0E = none := by
  decide +kernel

/-! Ill-formed terms, one for each check (00_scope.md R8, 30_encoding.md R81 to R83). `Instr` has no ill-formed term:
the range of imm8 is its type's. -/

theorem test_config_reference : Config.reference.wellFormed = true := by decide
theorem test_config_no_input : ({ icap := 0, ocap := 1, bcap := 8 } : Config).wellFormed = false := by decide
theorem test_config_no_output : ({ icap := 1, ocap := 0, bcap := 8 } : Config).wellFormed = false := by decide
theorem test_config_no_bits : ({ icap := 1, ocap := 1, bcap := 0 } : Config).wellFormed = false := by decide
theorem test_config_odd_bits : ({ icap := 1, ocap := 1, bcap := 12 } : Config).wellFormed = false := by decide
theorem test_word_zero_field_Z : wordWellFormed 0x00000101 = false := by decide +kernel
theorem test_word_zero_field_B : wordWellFormed 0x0001610D = false := by decide +kernel
theorem test_word_opcode : wordWellFormed 0x0000000E = false ∧ wordWellFormed 0x00000010 = false := by decide +kernel
theorem test_word_good : wordWellFormed 0x0000610D = true ∧ wordWellFormed 0x0000000F = true := by decide +kernel
theorem test_instr_wellFormed : (Instr.push 0xFF).wellFormed = true ∧ Instr.sreset.wellFormed = true := by decide

/-! One step each, on small states; the expected results are the examples of the command rules -/

/-- The outcome is a next state of which `p` holds. -/
def nextIs (p : State → Bool) : Result → Bool
  | .next t => p t
  | .fault _ => false
  | .refused _ => false

theorem exists_next {p : State → Bool} {r : Result} (h : nextIs p r = true) : ∃ t, r = .next t ∧ p t = true := by
  unfold nextIs at h
  split at h
  · exact ⟨_, rfl, h⟩
  · cases h
  · cases h

/-- The reset state with these input bytes. -/
def withInput (bytes : List Byte) : State := { State.reset with ibuf := bytes }

/-- "aaabbc" -/
def sixBytes : List Byte := [0x61, 0x61, 0x61, 0x62, 0x62, 0x63]

/-- The frequency map of "aaabbc". -/
def sixFreq : SymMap Word := [(0x61, 3), (0x62, 2), (0x63, 1)]

/-- The tree of 41_tree_builder.md R121's example. -/
def sixNodes : List Node :=
  [.leaf 0x61 3, .leaf 0x62 2, .leaf 0x63 1, .internal 2 1 3, .internal 0 3 6]

/-- The codes of 42_code_assigner.md R136's example: a "0", b "11", c "10". -/
def sixCode : SymMap BitString := [(0x61, [false]), (0x62, [true, true]), (0x63, [true, false])]

/-- "000111110" -/
def sixBits : BitString := [false, false, false, true, true, true, true, true, false]

/-- The container of 30_encoding.md R99. -/
def sixContainer : List Byte := [3, 0, 0, 0, 0x61, 1, 0, 0x62, 2, 0xC0, 0x63, 2, 0x80, 7, 0x1F, 0]

/-- 48_control.md R221 -/
theorem test_nop : nextIs (fun t => t = { State.reset with phase := .assigned })
    (exec .nop { State.reset with phase := .assigned }) = true := by decide +kernel

/-- 40_frequency_counter.md R111 -/
theorem test_count : nextIs (fun t => t.freq = sixFreq ∧ t.nsym = 3 ∧ statusWord t = 0x00000010)
    (exec .count (withInput sixBytes)) = true := by decide +kernel

/-- 40_frequency_counter.md R113: an empty input counts without complaint. -/
theorem test_count_empty : nextIs (fun t => t.freq = [] ∧ t.nsym = 0 ∧ statusWord t = 0x00000010)
    (exec .count State.reset) = true := by decide +kernel

/-- 41_tree_builder.md R121 -/
theorem test_build : nextIs (fun t => t.nodes = sixNodes ∧ t.root = 4 ∧ statusWord t = 0x00000020)
    (exec .build { State.reset with phase := .counted, freq := sixFreq, nsym := 3 }) = true := by decide +kernel

/-- 41_tree_builder.md R128: with two symbols the rarer one is the left child. -/
theorem test_build_two : nextIs (fun t => t.nodes = [.leaf 0x61 2, .leaf 0x62 1, .internal 1 0 3])
    (exec .build { State.reset with phase := .counted, freq := [(0x61, 2), (0x62, 1)], nsym := 2 }) = true := by
  decide +kernel

/-- 42_code_assigner.md R136 -/
theorem test_assign : nextIs (fun t => t.code = sixCode ∧ statusWord t = 0x00000030)
    (exec .assign { State.reset with phase := .built, nodes := sixNodes, root := 4 }) = true := by decide +kernel

/-- 42_code_assigner.md R138 -/
theorem test_assign_lone : nextIs (fun t => t.code = [(0x41, [false])])
    (exec .assign { State.reset with phase := .built, nodes := [.leaf 0x41 9], root := 0 }) = true := by
  decide +kernel

/-- 47_pipeline.md R201 -/
theorem test_encode : nextIs (fun t => t.bits = sixBits ∧ statusWord t = 0x00000040)
    (exec .encode { withInput sixBytes with phase := .assigned, code := sixCode }) = true := by decide +kernel

/-- 47_pipeline.md R204: total = BCAP + 1. -/
theorem test_encode_overflow : nextIs (fun t => statusWord t = 0x000000F5 ∧ errinfoWord t = 0x00000004)
    (exec .encode { withInput sixBytes with
      phase := .assigned, code := sixCode, cfg := { icap := 8, ocap := 8, bcap := 8 } }) = true := by decide +kernel

/-- 43_bit_packer.md R151 -/
theorem test_pack : nextIs (fun t => t.pbuf = [0x1F, 0x00] ∧ t.pad = 7 ∧ statusWord t = 0x00000050)
    (exec .pack { State.reset with phase := .encoded, bits := sixBits }) = true := by decide +kernel

/-- 43_bit_packer.md R155: a whole number of bytes has no padding. -/
theorem test_pack_whole : nextIs (fun t => t.pbuf = [0xAA] ∧ t.pad = 0)
    (exec .pack { State.reset with
      phase := .encoded, bits := [true, false, true, false, true, false, true, false] }) = true := by decide +kernel

/-- 45_container_serializer.md R171 -/
theorem test_serialize : nextIs (fun t => t.obuf = sixContainer ∧ statusWord t = 0x00000060)
    (exec .serialize { State.reset with phase := .packed, code := sixCode, nsym := 3, pbuf := [0x1F, 0], pad := 7 }) =
    true := by decide +kernel

/-- 45_container_serializer.md R175: size = OCAP + 1. -/
theorem test_serialize_overflow : nextIs (fun t => statusWord t = 0x000000F5 ∧ errinfoWord t = 0x00000006)
    (exec .serialize { State.reset with
      phase := .packed, code := sixCode, nsym := 3, pbuf := [0x1F, 0], pad := 7,
      cfg := { icap := 8, ocap := 15, bcap := 16 } }) = true := by decide +kernel

/-- 47_pipeline.md R210 -/
theorem test_compress : nextIs (fun t => t.obuf = sixContainer ∧ statusWord t = 0x00000060 ∧ t.nodes = sixNodes)
    (exec .compress (withInput sixBytes)) = true := by decide +kernel

/-- 47_pipeline.md R211 -/
theorem test_compress_empty : nextIs (fun t => statusWord t = 0x000000F1 ∧ errinfoWord t = 0x00000002)
    (exec .compress State.reset) = true := by decide +kernel

/-- 46_container_deserializer.md R182 -/
theorem test_parse : nextIs (fun t => t.nsym = 3 ∧ t.code = sixCode ∧ t.pad = 7 ∧ t.pbuf = [0x1F, 0] ∧
    statusWord t = 0x00000080) (exec .parse (withInput sixContainer)) = true := by decide +kernel

/-- 46_container_deserializer.md R196: "0" is a prefix of "01". -/
theorem test_parse_conflict : nextIs (fun t => errinfoWord t = 0x00000708 ∧ t.errpos = 7)
    (exec .parse (withInput [2, 0, 0, 0, 0x61, 1, 0, 0x62, 2, 0x40, 0, 0])) = true := by decide +kernel

/-- 44_bit_unpacker.md R161 -/
theorem test_unpack : nextIs (fun t => t.bits = sixBits ∧ statusWord t = 0x00000090)
    (exec .unpack { State.reset with phase := .parsed, pbuf := [0x1F, 0], pad := 7 }) = true := by decide +kernel

/-- 44_bit_unpacker.md R165: padding bits that are not 0 are trimmed like the others. -/
theorem test_unpack_padding :
    nextIs (fun t => t.bits = [false, false, false, true, false, true, false, true, true])
      (exec .unpack { State.reset with phase := .parsed, pbuf := [0x15, 0xFF], pad := 7 }) = true := by decide +kernel

/-- 47_pipeline.md R205 -/
theorem test_decode : nextIs (fun t => t.obuf = sixBytes ∧ statusWord t = 0x000000A0)
    (exec .decode { State.reset with phase := .unpacked, code := sixCode, bits := sixBits }) = true := by
  decide +kernel

/-- 47_pipeline.md R209: the candidate "10" never matches the table of "0" alone. -/
theorem test_decode_leftover : nextIs (fun t => errinfoWord t = 0x00000B0A ∧ t.errpos = 1)
    (exec .decode { State.reset with phase := .unpacked, code := [(0x41, [false])], bits := [false, true, false] }) =
    true := by decide +kernel

/-- 47_pipeline.md R212 -/
theorem test_decompress : nextIs (fun t => t.obuf = sixBytes ∧ statusWord t = 0x000000A0)
    (exec .decompress (withInput sixContainer)) = true := by decide +kernel

/-- 60_exceptions.md R256: LOAD 01 00 00 00 41 01 00 05 20, DECOMPRESS. -/
theorem test_decompress_leftover :
    nextIs (fun t => statusWord t = 0x000000F3 ∧ errinfoWord t = 0x00000B0A ∧ t.errpos = 2)
      (exec .decompress (withInput [1, 0, 0, 0, 0x41, 1, 0, 5, 0x20])) = true := by decide +kernel

/-- 48_control.md R223 -/
theorem test_iclr : nextIs (fun t => t = State.reset)
    (exec .iclr { withInput sixContainer with phase := .decoded, obuf := sixBytes, nsym := 3, code := sixCode }) =
    true := by decide +kernel

/-- 48_control.md R222 -/
theorem test_push : nextIs (fun t => t.ibuf = [0x61] ∧ statusWord t = 0) (exec (.push 0x61) State.reset) = true := by
  decide +kernel

/-- 48_control.md R222: the bytes already in IBUF stay. -/
theorem test_push_full : nextIs (fun t => statusWord t = 0x000000F5 ∧ errinfoWord t = 0x0000000D ∧ t.ibuf = [7])
    (exec (.push 8) { withInput [7] with cfg := { icap := 1, ocap := 1, bcap := 8 } }) = true := by decide +kernel

/-- A faulted block: STATUS 0x000000F3, ERRINFO 0x00000508, ERRPOS 4 (48_control.md R224's example). -/
def faultedBlock : State :=
  { withInput [2, 0, 0, 0, 0x61, 9, 0xFF] with
    err := .corruptContainer, phase := .faulted, stage := 0x08, sub := 5, errpos := 4 }

/-- 48_control.md R224 -/
theorem test_sreset : statusWord faultedBlock = 0x000000F3 ∧ errinfoWord faultedBlock = 0x00000508 ∧
    nextIs (fun t => t = State.reset) (exec .sreset faultedBlock) = true := by decide +kernel

/-- The first command after reset, as the host interface places it. -/
theorem test_withFetchWord : nextIs (fun t => t.ibuf = [0x61] ∧ t.port = [])
    (step (State.reset.withFetchWord 32 0x0000610D)) = true := by decide +kernel

/-- 20_memory.md R64's examples. -/
theorem test_node_words : nodeLink (.leaf 0x61 3) = 0x81840000 ∧ nodeLink (.internal 2 1 3) = 0x00000202 := by
  decide +kernel

/-! States of the input "a" in each compress phase, which meet the invariants -/

def countedA : State := { withInput [0x61] with phase := .counted, freq := [(0x61, 1)], nsym := 1 }
def builtA : State := { countedA with phase := .built, nodes := [.leaf 0x61 1], root := 0 }
def assignedA : State := { builtA with phase := .assigned, code := [(0x61, [false])] }
def encodedA : State := { assignedA with phase := .encoded, bits := [false] }
def packedA : State := { encodedA with phase := .packed, pbuf := [0x00], pad := 7 }
def serializedA : State := { packedA with phase := .serialized, obuf := [1, 0, 0, 0, 0x61, 1, 0, 7, 0] }

theorem treeA : TreeOk [(0x61, 1)] 1 [.leaf 0x61 1] 0 where
  positive := le_refl 1
  leaves := by decide +kernel
  size := rfl
  rootLast := rfl
  merges := by
    intro k h1 h2
    simp at h2
    omega
  oneParent := by
    intro i h1 h2
    simp at h1
    omega

theorem codeA_only : ∀ b, codeAt [(0x61, [false])] b ≠ [] → b = 0x61 := by decide +kernel

theorem tableA : TableOk [(0x61, [false])] 1 where
  canonical := by decide +kernel
  size := by decide +kernel
  lengths := by decide +kernel
  prefixFree := fun s t hst hs ht => absurd ((codeA_only s hs).trans (codeA_only t ht).symm) hst

theorem witness_countedA : Inv countedA where
  config := by decide +kernel
  canonical := by decide +kernel
  faulted := by decide +kernel
  noRecord := by decide +kernel
  capacities := by decide +kernel
  cleared := fun h => absurd h (by decide +kernel)
  counts := fun _ => by decide +kernel
  tree := fun h => absurd h (by decide +kernel)
  table := fun h => absurd h (by decide +kernel)
  tableTotal := fun h => absurd h (by decide +kernel)
  encoded := fun h => absurd h (by decide +kernel)
  packed := fun h => absurd h (by decide +kernel)
  serialized := fun h => absurd h (by decide +kernel)
  parsed := fun h => absurd h (by decide +kernel)
  unpacked := fun h => absurd h (by decide +kernel)
  decoded := fun h => absurd h (by decide +kernel)
  notYet := by decide +kernel

theorem witness_builtA : Inv builtA where
  config := by decide +kernel
  canonical := by decide +kernel
  faulted := by decide +kernel
  noRecord := by decide +kernel
  capacities := by decide +kernel
  cleared := fun h => absurd h (by decide +kernel)
  counts := fun _ => by decide +kernel
  tree := fun _ => ⟨treeA, by decide +kernel⟩
  table := fun h => absurd h (by decide +kernel)
  tableTotal := fun h => absurd h (by decide +kernel)
  encoded := fun h => absurd h (by decide +kernel)
  packed := fun h => absurd h (by decide +kernel)
  serialized := fun h => absurd h (by decide +kernel)
  parsed := fun h => absurd h (by decide +kernel)
  unpacked := fun h => absurd h (by decide +kernel)
  decoded := fun h => absurd h (by decide +kernel)
  notYet := by decide +kernel

theorem witness_assignedA : Inv assignedA where
  config := by decide +kernel
  canonical := by decide +kernel
  faulted := by decide +kernel
  noRecord := by decide +kernel
  capacities := by decide +kernel
  cleared := fun h => absurd h (by decide +kernel)
  counts := fun _ => by decide +kernel
  tree := fun _ => ⟨treeA, by decide +kernel⟩
  table := fun _ => tableA
  tableTotal := fun _ => by decide +kernel
  encoded := fun h => absurd h (by decide +kernel)
  packed := fun h => absurd h (by decide +kernel)
  serialized := fun h => absurd h (by decide +kernel)
  parsed := fun h => absurd h (by decide +kernel)
  unpacked := fun h => absurd h (by decide +kernel)
  decoded := fun h => absurd h (by decide +kernel)
  notYet := by decide +kernel

theorem witness_packedA : Inv packedA where
  config := by decide +kernel
  canonical := by decide +kernel
  faulted := by decide +kernel
  noRecord := by decide +kernel
  capacities := by decide +kernel
  cleared := fun h => absurd h (by decide +kernel)
  counts := fun _ => by decide +kernel
  tree := fun _ => ⟨treeA, by decide +kernel⟩
  table := fun _ => tableA
  tableTotal := fun _ => by decide +kernel
  encoded := fun _ => by decide +kernel
  packed := fun _ => by decide +kernel
  serialized := fun h => absurd h (by decide +kernel)
  parsed := fun h => absurd h (by decide +kernel)
  unpacked := fun h => absurd h (by decide +kernel)
  decoded := fun h => absurd h (by decide +kernel)
  notYet := by decide +kernel

theorem witness_serializedA : Inv serializedA where
  config := by decide +kernel
  canonical := by decide +kernel
  faulted := by decide +kernel
  noRecord := by decide +kernel
  capacities := by decide +kernel
  cleared := fun h => absurd h (by decide +kernel)
  counts := fun _ => by decide +kernel
  tree := fun _ => ⟨treeA, by decide +kernel⟩
  table := fun _ => tableA
  tableTotal := fun _ => by decide +kernel
  encoded := fun _ => by decide +kernel
  packed := fun _ => by decide +kernel
  serialized := fun _ => by decide +kernel
  parsed := fun h => absurd h (by decide +kernel)
  unpacked := fun h => absurd h (by decide +kernel)
  decoded := fun h => absurd h (by decide +kernel)
  notYet := by decide +kernel

/-! Witnesses: for each statement of Certificates/Slice0/Obligations.lean with hypotheses, concrete states and operands
that meet all of them together. -/

theorem witness_DecodeAndEncodeAgree : decode 0x0000610D = .ok (.push 0x61) ∧ encode (.push 0x61) = 0x0000610D := by
  decide +kernel

/-- A word for each clause: 0x0001610D, 0x0000FF0D, 0x00000101, 0x0000000F, and 0x0E, 0x10, 0xFF. -/
theorem witness_DecodeFollowsItsListing :
    0x1610D % 256 = 0x0D ∧ 0x1610D / 65536 ≠ 0 ∧ 0xFF0D % 256 = 0x0D ∧ 0xFF0D / 65536 = 0 ∧
    0x101 % 256 ≠ 0x0D ∧ 0x101 / 256 ≠ 0 ∧ 0x0F / 256 = 0 ∧ 0x0F % 256 = 0x0F ∧
    0x0E / 256 = 0 ∧ 0x0E % 256 = 0x0E ∧ 0x10 ≤ 0x10 % 256 ∧ 0x10 / 256 = 0 ∧ 0x10 ≤ 0xFF % 256 ∧ 0xFF / 256 = 0 := by
  decide

theorem witness_StepRunsTheDecodedCommand :
    ({ withInput [1] with port := [cmdWrite 0x01, .rst] } : State).port = cmdWrite 0x01 :: [.rst] ∧
    decode 0x01 = .ok .count := by decide +kernel

theorem witness_StepTakesTheOldestInput :
    State.reset.port = [] ∧
    ({ State.reset with port := [cmdWrite 0] } : State).port =
      .transaction { write := true, space := 0, index := 1, wdata := 0 } :: [] ∧
    ({ State.reset with port := [.rst, cmdWrite 0] } : State).port = .rst :: [cmdWrite 0] ∧
    nextIs (fun t => t = State.reset) (step State.reset) = true := by decide +kernel

theorem witness_OnlyCmdWritesHaveAnEffect :
    ¬ ((0 : BitVec 4) = 0 ∧ (0 : Word) = 1) ∧ ¬ ((0 : BitVec 4) = 0 ∧ (2 : Word) = 1) ∧
    ¬ ((1 : BitVec 4) = 0 ∧ (1 : Word) = 1) ∧ decode 0x0000FF0D = .ok (.push 0xFF) := by decide +kernel

/-- The last index inside and the first outside, per space (20_memory.md R63). -/
theorem witness_HostReadsAreGated :
    hostRead serializedA 0 15 = 524288 ∧ hostRead serializedA 0 16 = 0 ∧
    hostRead serializedA 1 0 = 0x61 ∧ hostRead serializedA 1 1 = 0 ∧
    hostRead serializedA 2 7 = 7 ∧ hostRead serializedA 2 9 = 0 ∧
    hostRead serializedA 3 0x61 = 1 ∧ hostRead serializedA 3 0x161 = 0 ∧
    hostRead serializedA 4 0 = 1 ∧ hostRead serializedA 4 1 = 0 ∧
    hostRead serializedA 5 0 = 0x81840000 ∧ hostRead serializedA 5 1 = 0 ∧
    hostRead serializedA 6 0x61 = 1 ∧ hostRead serializedA 6 0x161 = 0 ∧
    hostRead { State.reset with code := [(0xFF, List.replicate 9 true)] } 7 8161 = 0x80 ∧
    hostRead { State.reset with code := [(0xFF, List.replicate 9 true)] } 7 8162 = 0 ∧
    hostRead { State.reset with code := [(0xFF, List.replicate 255 true)] } 7 8191 = 0xFE ∧
    hostRead { State.reset with code := [(0, List.replicate 255 true)] } 7 8192 = 0 ∧
    hostRead { State.reset with bits := [false, true] } 8 1 = 1 ∧ hostRead serializedA 8 1 = 0 ∧
    hostRead { State.reset with pbuf := [0x1F] } 9 0 = 0x1F ∧ hostRead serializedA 9 1 = 0 ∧
    hostRead serializedA 10 0 = 0 := by decide +kernel

theorem witness_ResetStateReads :
    nextIs (fun _ => true) (exec .sreset faultedBlock) = true ∧ nextIs (fun _ => true) (takeInput .rst serializedA) = true := by
  decide +kernel

/-- A word for each disjunct, both error conditions. -/
theorem witness_IllegalWordsRaiseIllegalCommand :
    IsIllegalWord 0x0E ∧ IsIllegalWord 0x10 ∧ IsIllegalWord 0x101 ∧ IsIllegalWord 0x1000D ∧
    State.reset.err = .none ∧ faultedBlock.err ≠ .none := by
  unfold IsIllegalWord
  decide +kernel

theorem witness_ErrorsArePrecise : State.reset.err = .none ∧ ∃ t, exec .compress State.reset = .next t ∧ t.err ≠ .none :=
  ⟨rfl, by simpa using exists_next (p := fun t => t.err ≠ .none) (r := exec .compress State.reset) (by decide +kernel)⟩

/-- A failing command and an illegal word; the first and the last product register. -/
theorem witness_FailedCommandShowsNoProduct : State.reset.err = .none ∧
    (∃ t, exec .build State.reset = .next t ∧ t.err ≠ .none) ∧ IsIllegalWord 0x0E ∧
    (∃ t, transact { write := true, space := 0, index := 1, wdata := 0x0E } State.reset = .next t) ∧
    6 ≤ (6 : Word).toNat ∧ (12 : Word).toNat ≤ 12 :=
  ⟨rfl, by simpa using exists_next (p := fun t => t.err ≠ .none) (r := exec .build State.reset) (by decide +kernel),
    by unfold IsIllegalWord; decide +kernel,
    by simpa using exists_next (p := fun _ => true)
        (r := transact { write := true, space := 0, index := 1, wdata := 0x0E } State.reset) (by decide +kernel),
    by decide, by decide⟩

theorem witness_FaultedBlockHearsOnlySreset :
    faultedBlock.err ≠ .none ∧ (0x0000010F : Word) ≠ 0x0000000F ∧ Instr.nop ≠ .sreset ∧
    faultedBlock.phase = .faulted ∧ ProductsCleared faultedBlock ∧ hostRead faultedBlock 0 2 = 0xF3 ∧
    6 ≤ (6 : Word).toNat ∧ (12 : Word).toNat ≤ 12 ∧
    (∃ t, takeInput .rst faultedBlock = .next t ∧ t.err = .none) ∧
    ∃ t, takeInput (cmdWrite 0x0F) faultedBlock = .next t ∧ t.err = .none :=
  ⟨by decide, by decide, by decide, rfl, by unfold ProductsCleared; decide +kernel, by decide +kernel, by decide,
    by decide,
    by simpa using exists_next (p := fun t => t.err = .none) (r := takeInput .rst faultedBlock) (by decide +kernel),
    by simpa using exists_next (p := fun t => t.err = .none) (r := takeInput (cmdWrite 0x0F) faultedBlock)
        (by decide +kernel)⟩

theorem witness_WrongPhaseRaisesBadSequence :
    neededPhase .build = some .counted ∧ State.reset.err = .none ∧ State.reset.phase ≠ .counted ∧
    ∃ t, exec .build State.reset = .next t ∧ t.err = .badSequence :=
  ⟨rfl, rfl, by decide,
    by simpa using exists_next (p := fun t => t.err = .badSequence) (r := exec .build State.reset) (by decide +kernel)⟩

theorem witness_ErrorRecordsFollowTheTable :
    (State.reset.withFetchWord 32 0x02).err = .none ∧ (State.reset.withFetchWord 32 0x02).phase ≠ .faulted ∧
    ∃ t, step (State.reset.withFetchWord 32 0x02) = .next t ∧ t.err ≠ .none :=
  ⟨by decide +kernel, by decide +kernel,
    by simpa using exists_next (p := fun t => t.err ≠ .none) (r := step (State.reset.withFetchWord 32 0x02))
        (by decide +kernel)⟩

theorem witness_CodeTooLongIsNeverRaised : Inv countedA ∧ countedA.err ≠ .codeTooLong ∧ ∃ t, step countedA = .next t :=
  ⟨witness_countedA, by decide, countedA, rfl⟩

/-- A full and a nearly full input memory. -/
theorem witness_PushAppendsOrOverflows :
    ({ withInput [7] with cfg := { icap := 1, ocap := 1, bcap := 8 } } : State).ibuf.length =
      ({ withInput [7] with cfg := { icap := 1, ocap := 1, bcap := 8 } } : State).cfg.icap.toNat ∧
    ({ withInput [7] with cfg := { icap := 2, ocap := 1, bcap := 8 } } : State).ibuf.length ≠
      ({ withInput [7] with cfg := { icap := 2, ocap := 1, bcap := 8 } } : State).cfg.icap.toNat ∧
    (withInput [7]).err = .none := by decide +kernel

theorem witness_IclrEmptiesTheInput : serializedA.err = .none ∧ serializedA.stage = 0 ∧ serializedA.sub = 0 ∧
    serializedA.errpos = 0 := by decide +kernel

/-- An input of several symbols, the empty one, and one that fills its memory. -/
theorem witness_CountCountsEverySymbol :
    (withInput sixBytes).err = .none ∧ (withInput sixBytes).ibuf.length ≤ (withInput sixBytes).cfg.icap.toNat ∧
    State.reset.ibuf.length ≤ State.reset.cfg.icap.toNat ∧
    ({ withInput [7] with cfg := { icap := 1, ocap := 1, bcap := 8 } } : State).ibuf.length ≤
      ({ withInput [7] with cfg := { icap := 1, ocap := 1, bcap := 8 } } : State).cfg.icap.toNat := by decide +kernel

theorem witness_BuildRejectsTheEmptyMap :
    ({ State.reset with phase := .counted } : State).err = .none ∧
    ({ State.reset with phase := .counted } : State).nsym = 0 ∧
    (∃ t, exec .count State.reset = .next t ∧ t.nsym = 0) ∧ ∃ t, exec .count (withInput [7]) = .next t ∧ t.nsym ≠ 0 :=
  ⟨rfl, rfl,
    by simpa using exists_next (p := fun t => t.nsym = 0) (r := exec .count State.reset) (by decide +kernel),
    by simpa using exists_next (p := fun t => t.nsym ≠ 0) (r := exec .count (withInput [7])) (by decide +kernel)⟩

theorem witness_BuildMakesTheGreedyTree : Inv countedA ∧ countedA.phase = .counted ∧ countedA.nsym ≠ 0 :=
  ⟨witness_countedA, rfl, by decide⟩

theorem witness_GreedyTreeIsUnique : Inv countedA ∧ countedA.phase = .counted ∧ countedA.nsym ≠ 0 ∧
    TreeOk countedA.freq countedA.nsym.toNat [.leaf 0x61 1] 0 :=
  ⟨witness_countedA, rfl, by decide, treeA⟩

theorem witness_AssignGivesEachLeafItsPath : Inv builtA ∧ builtA.phase = .built := ⟨witness_builtA, rfl⟩

theorem witness_LoneLeafGetsCodeZero : builtA.err = .none ∧ builtA.phase = .built ∧ SymMap.wf [] builtA.code = true ∧
    builtA.nodes[builtA.root.toNat]? = some (.leaf 0x61 1) := by decide +kernel

/-- The total at BCAP + 1 and at BCAP. -/
theorem witness_EncodeConcatenatesTheCodes :
    State.reset.err = .none ∧ State.reset.phase ≠ .assigned ∧
    ({ assignedA with ibuf := sixBytes, code := sixCode, cfg := { icap := 8, ocap := 8, bcap := 8 } } : State).cfg.bcap.toNat <
      (sixBytes.map (clenAt sixCode)).sum ∧
    ({ assignedA with ibuf := [0x61, 0x61, 0x61, 0x61, 0x61, 0x61, 0x61, 0x61], cfg := { icap := 8, ocap := 8, bcap := 8 } } :
      State).cfg.bcap.toNat = (([0x61, 0x61, 0x61, 0x61, 0x61, 0x61, 0x61, 0x61] : List Byte).map (clenAt assignedA.code)).sum ∧
    assignedA.err = .none ∧ assignedA.phase = .assigned := by decide +kernel

theorem witness_EncodedLengthIsTheWeightedSum : Inv assignedA ∧ assignedA.phase = .assigned ∧ (0x61 : Byte) ∈ assignedA.ibuf ∧
    ∃ t, exec .encode assignedA = .next t ∧ t.err = .none :=
  ⟨witness_assignedA, rfl, by decide,
    by simpa using exists_next (p := fun t => t.err = .none) (r := exec .encode assignedA) (by decide +kernel)⟩

theorem witness_PackPacksMsbFirst : State.reset.err = .none ∧ State.reset.phase ≠ .encoded ∧ encodedA.err = .none ∧
    encodedA.phase = .encoded ∧ (packBytes sixBits)[1]? = some 0 ∧ 7 < 8 := by decide +kernel

/-- The container's 9 bytes against OCAP 8 and 9. -/
theorem witness_SerializeWritesTheContainer :
    State.reset.err = .none ∧ State.reset.phase ≠ .packed ∧ packedA.err = .none ∧ packedA.phase = .packed ∧
    ({ packedA with cfg := { icap := 8, ocap := 8, bcap := 8 } } : State).cfg.ocap.toNat <
      codesEnd packedA.code (codedSymbols packedA.code) + 1 + packedA.pbuf.length ∧
    codesEnd packedA.code (codedSymbols packedA.code) + 1 + packedA.pbuf.length =
      ({ packedA with cfg := { icap := 8, ocap := 9, bcap := 8 } } : State).cfg.ocap.toNat := by decide +kernel

theorem witness_SerializedContainersAreValid : Inv serializedA ∧ serializedA.phase = .serialized ∧
    8 * serializedA.pbuf.length - serializedA.pad.toNat ≤ 7 ∧ 7 < 8 * serializedA.pbuf.length :=
  ⟨witness_serializedA, rfl, by decide +kernel, by decide +kernel⟩

/-- The entries of 30_encoding.md R99, out of order and with unused code bits set (46_container_deserializer.md R186,
R195). -/
def threeEntries : List RawEntry := [⟨0x63, 2, [0xBF]⟩, ⟨0x61, 1, [0x7F]⟩, ⟨0x62, 2, [0xC0]⟩]

theorem threeEntries_ok : EntriesOk threeEntries := by
  unfold EntriesOk
  decide +kernel

theorem noEntries_ok : EntriesOk [] := by
  unfold EntriesOk
  decide +kernel

/-- The state that is to parse this container. -/
def toParse (count : Nat) (entries : List RawEntry) (rest : List Byte) : State := withInput (rawContainer count entries rest)

theorem witness_ParseReadsEveryValidContainer :
    (toParse 3 threeEntries [7, 0x1F, 0]).err = .none ∧ EntriesOk threeEntries ∧ threeEntries.length = 3 ∧
    (7 : Byte).toNat ≤ 7 ∧ ([0x1F, 0] : List Byte) ≠ [] ∧ 2 ≤ (toParse 3 threeEntries [7, 0x1F, 0]).cfg.pcap ∧
    (toParse 3 threeEntries [7, 0x1F, 0]).ibuf = rawContainer threeEntries.length threeEntries [7, 0x1F, 0] :=
  ⟨rfl, threeEntries_ok, rfl, by decide, by decide, by decide +kernel, rfl⟩

theorem witness_ParseReadsOnlyValidContainers : (withInput sixContainer).err = .none ∧
    ∃ t, exec .parse (withInput sixContainer) = .next t ∧ t.err = .none :=
  ⟨rfl, by simpa using exists_next (p := fun t => t.err = .none) (r := exec .parse (withInput sixContainer)) (by decide +kernel)⟩

/-- Three bytes; counts 0, 257 and 2 ^ 32 - 1. -/
theorem witness_ParseRejectsBadCounts :
    (withInput [1, 0, 0]).err = .none ∧ (withInput [1, 0, 0]).ibuf.length < 4 ∧
    (withInput [0, 0, 0, 0]).ibuf = 0 :: 0 :: 0 :: 0 :: [] ∧ (withInput [1, 1, 0, 0, 5]).ibuf = 1 :: 1 :: 0 :: 0 :: [5] ∧
    256 < (1 : Byte).toNat + 256 * (1 : Byte).toNat + 65536 * (0 : Byte).toNat + 16777216 * (0 : Byte).toNat ∧
    256 < (0xFF : Byte).toNat + 256 * (0xFF : Byte).toNat + 65536 * (0xFF : Byte).toNat + 16777216 * (0xFF : Byte).toNat := by
  decide +kernel

/-- One byte left; length 0; length 9 with one code byte; each also behind three good entries. -/
theorem witness_ParseRejectsMalformedEntries :
    EntriesOk [] ∧ EntriesOk threeEntries ∧ ([] : List RawEntry).length < 256 ∧ threeEntries.length < 4 ∧
    (toParse 4 threeEntries [0x61]).ibuf = rawContainer 4 threeEntries [0x61] ∧ ([0x61] : List Byte).length < 2 ∧
    (toParse 4 threeEntries [0x64, 0]).ibuf = rawContainer 4 threeEntries (0x64 :: 0 :: []) ∧
    (toParse 4 threeEntries [0x64, 9, 0xFF]).ibuf = rawContainer 4 threeEntries (0x64 :: 9 :: [0xFF]) ∧
    (9 : Byte) ≠ 0 ∧ ([0xFF] : List Byte).length < ceil8 (9 : Byte).toNat ∧
    (toParse 4 threeEntries [0x61]).err = .none :=
  ⟨noEntries_ok, threeEntries_ok, by decide, by decide, rfl, by decide, rfl, rfl, by decide, by decide +kernel, rfl⟩

/-- A symbol met before; codes that begin, equal and are begun by an earlier one. -/
theorem witness_ParseRejectsClashingEntries :
    EntriesOk threeEntries ∧ threeEntries.length < 4 ∧
    (∃ f ∈ threeEntries, f.sym = (⟨0x61, 3, [0xE0]⟩ : RawEntry).sym) ∧
    (∀ f ∈ threeEntries, f.sym ≠ 0x64) ∧
    (∃ f ∈ threeEntries, f.code <+: (⟨0x64, 2, [0x40]⟩ : RawEntry).code) ∧
    (∃ f ∈ threeEntries, f.code = (⟨0x64, 2, [0x80]⟩ : RawEntry).code) ∧
    (∃ f ∈ threeEntries, (⟨0x64, 1, [0x80]⟩ : RawEntry).code <+: f.code) ∧
    ([0x40] : List Byte).length = ceil8 (2 : Byte).toNat ∧ (2 : Byte) ≠ 0 ∧
    (toParse 4 (threeEntries ++ [⟨0x64, 2, [0x40]⟩]) []).err = .none :=
  ⟨threeEntries_ok, by decide, by decide +kernel, by decide +kernel, by decide +kernel, by decide +kernel,
    by decide +kernel, by decide +kernel, by decide, rfl⟩

/-- No padding count; padding count 8; no payload; a payload of PCAP + 1 bytes. -/
theorem witness_ParseRejectsBadTails :
    EntriesOk threeEntries ∧ threeEntries.length = 3 ∧ (toParse 3 threeEntries []).err = .none ∧
    (toParse 3 threeEntries []).ibuf = rawContainer 3 threeEntries [] ∧ 7 < (8 : Byte).toNat ∧ (7 : Byte).toNat ≤ 7 ∧
    ({ toParse 3 threeEntries [7, 1, 2] with cfg := { icap := 16, ocap := 8, bcap := 8 } } : State).cfg.pcap <
      ([1, 2] : List Byte).length :=
  ⟨threeEntries_ok, rfl, rfl, rfl, by decide, by decide, by decide +kernel⟩

/-- ICAP = PCAP + 8, with an input of ICAP bytes. -/
theorem witness_ParseOverflowNeedsCapacityGap :
    ∃ s : State, s = { withInput [1, 0, 0, 0, 0x41, 1, 0, 0, 0] with cfg := { icap := 9, ocap := 8, bcap := 8 } } ∧
      s.err = .none ∧ s.ibuf.length = s.cfg.icap.toNat ∧ s.cfg.icap.toNat = s.cfg.pcap + 8 ∧
      ∃ t, exec .parse s = .next t ∧ t.err = .none :=
  ⟨_, rfl, rfl, by decide +kernel, by decide +kernel,
    by simpa using exists_next (p := fun t => t.err = .none)
        (r := exec .parse { withInput [1, 0, 0, 0, 0x41, 1, 0, 0, 0] with cfg := { icap := 9, ocap := 8, bcap := 8 } })
        (by decide +kernel)⟩

theorem witness_ParseOverflowBoundAsPrinted : Inv countedA ∧ countedA.cfg.icap.toNat ≤ countedA.cfg.pcap + 9 ∧
    countedA.err = .none ∧ ∃ t, exec .parse countedA = .next t :=
  ⟨witness_countedA, by decide +kernel, rfl,
    by simpa using exists_next (p := fun _ => true) (r := exec .parse countedA) (by decide +kernel)⟩

/-- Any other phase; one payload byte with padding 7; the last bit of two bytes. -/
theorem witness_UnpackExpandsAndTrims :
    State.reset.err = .none ∧ State.reset.phase ≠ .parsed ∧
    ({ State.reset with phase := .parsed, pbuf := [0x80], pad := 7 } : State).phase = .parsed ∧
    1 ≤ ([0x80] : List Byte).length ∧ 8 < 8 * ([0x1F, 0] : List Byte).length - (7 : BitVec 3).toNat ∧
    ([0x1F, 0] : List Byte)[8 / 8]? = some 0 := by decide +kernel

theorem witness_UnpackUndoesPack : (7 : BitVec 3).toNat ≤ 8 * ([0x1F, 0] : List Byte).length ∧
    (0 : BitVec 3).toNat ≤ 8 * ([] : List Byte).length := by decide +kernel

theorem witness_ParseUndoesSerialize : Inv packedA ∧ packedA.phase = .packed ∧
    ∃ t, exec .serialize packedA = .next t ∧ t.err = .none ∧ (withInput serializedA.obuf).err = .none ∧
      (withInput serializedA.obuf).cfg = packedA.cfg ∧ (withInput serializedA.obuf).ibuf = t.obuf :=
  ⟨witness_packedA, rfl, by
    simpa using exists_next
      (p := fun t => t.err = .none ∧ (withInput serializedA.obuf).err = .none ∧
        (withInput serializedA.obuf).cfg = packedA.cfg ∧ (withInput serializedA.obuf).ibuf = t.obuf)
      (r := exec .serialize packedA) (by decide +kernel)⟩

/-- The cuts of the 9-byte container of "a": at 3; at 4 and 5 before its entry's code; at 6 inside its code; at 7 before
the padding count; at 8 before the payload; at 9 whole. -/
theorem witness_TruncatedContainersAreCorrupt :
    Inv serializedA ∧ serializedA.phase = .serialized ∧ (withInput (serializedA.obuf.take 4)).err = .none ∧
    (withInput (serializedA.obuf.take 4)).cfg = serializedA.cfg ∧ codedSymbols serializedA.code = [] ++ 0x61 :: [] ∧
    codesEnd serializedA.code [] = 4 ∧ 6 < codesEnd serializedA.code [] + 2 + ceil8 (clenAt serializedA.code 0x61) ∧
    7 + 1 = serializedA.obuf.length - serializedA.pbuf.length ∧ 8 = serializedA.obuf.length - serializedA.pbuf.length ∧
    serializedA.obuf.length - serializedA.pbuf.length < 9 :=
  ⟨witness_serializedA, rfl, rfl, rfl, by decide +kernel, by decide +kernel, by decide +kernel, by decide +kernel,
    by decide +kernel, by decide +kernel⟩

/-- The state that is to decode these bits with the table of "a" alone. -/
def toDecode (bits : BitString) : State :=
  { State.reset with phase := .unpacked, code := [(0x61, [false])], nsym := 1, bits := bits, cfg := { icap := 1, ocap := 2, bcap := 8 } }

theorem codedA (k : Nat) : Coded [(0x61, [false])] (List.replicate k 0x61) := by
  intro b hb
  obtain rfl := List.eq_of_mem_replicate hb
  decide +kernel

/-- A sequence of OCAP symbols. -/
theorem witness_DecodeScansTheCodes : (toDecode [false, false]).err = .none ∧ (toDecode [false, false]).phase = .unpacked ∧
    TableOk (toDecode [false, false]).code 1 ∧ Coded [(0x61, [false])] (List.replicate 2 0x61) ∧
    (toDecode [false, false]).bits = codesOf [(0x61, [false])] (List.replicate 2 0x61) ∧
    (List.replicate 2 (0x61 : Byte)).length ≤ (toDecode [false, false]).cfg.ocap.toNat :=
  ⟨rfl, rfl, tableA, codedA 2, by decide +kernel, by decide +kernel⟩

theorem noCodeA : ∀ b, codeAt [(0x61, [false])] b ≠ [] → ¬ codeAt [(0x61, [false])] b <+: [true] := by decide +kernel

/-- OCAP symbols and a bit that starts no code; OCAP + 1 symbols. -/
theorem witness_DecodeReportsLeftoversAndOverflow :
    TableOk (toDecode []).code 1 ∧ Coded [(0x61, [false])] (List.replicate 2 0x61) ∧
    (toDecode [false, false, true]).bits = codesOf [(0x61, [false])] (List.replicate 2 0x61) ++ [true] ∧
    ([true] : BitString) ≠ [] ∧ (∀ b, codeAt [(0x61, [false])] b ≠ [] → ¬ codeAt [(0x61, [false])] b <+: [true]) ∧
    (List.replicate 2 (0x61 : Byte)).length ≤ (toDecode [false, false, true]).cfg.ocap.toNat ∧
    Coded [(0x61, [false])] (List.replicate 3 0x61) ∧
    (toDecode [false, false, false]).bits = codesOf [(0x61, [false])] (List.replicate 3 0x61) ++ [] ∧
    (toDecode [false, false, false]).cfg.ocap.toNat < (List.replicate 3 (0x61 : Byte)).length :=
  ⟨tableA, codedA 2, by decide +kernel, by decide, noCodeA, by decide +kernel, codedA 3, by decide +kernel,
    by decide +kernel⟩

theorem witness_CompositesRunTheirStages : (withInput sixBytes).err = .none ∧ State.reset.err = .none := ⟨rfl, rfl⟩

theorem witness_CompressOfNothingIsInvalid : State.reset.err = .none ∧ State.reset.ibuf.length = 0 := ⟨rfl, rfl⟩

/-- The input "a", whole, and 9 times "a" where BITBUF holds 8 bits, and "a" where OBUF holds 8 bytes. -/
theorem witness_CompressMakesTheContainer :
    (withInput [0x61]).err = .none ∧ (withInput [0x61]).ibuf ≠ [] ∧
    (withInput [0x61]).ibuf.length ≤ (withInput [0x61]).cfg.icap.toNat ∧
    nextIs (fun t => t.err = .none ∧ t.obuf = serializedA.obuf) (exec .compress (withInput [0x61])) = true ∧
    nextIs (fun t => errinfoWord t = 0x04) (exec .compress
      { withInput (List.replicate 9 0x61) with cfg := { icap := 9, ocap := 99, bcap := 8 } }) = true ∧
    nextIs (fun t => errinfoWord t = 0x06) (exec .compress
      { withInput [0x61] with cfg := { icap := 9, ocap := 8, bcap := 8 } }) = true := by decide +kernel

theorem witness_CompressCompletes : (withInput [0x61]).err = .none ∧ (withInput [0x61]).ibuf ≠ [] ∧
    (withInput [0x61]).ibuf.length ≤ (withInput [0x61]).cfg.icap.toNat ∧
    255 * (withInput [0x61]).ibuf.length ≤ (withInput [0x61]).cfg.bcap.toNat ∧
    8709 + 32 * (withInput [0x61]).ibuf.length ≤ (withInput [0x61]).cfg.ocap.toNat := by decide +kernel

theorem witness_DecompressReadsEveryValidContainer :
    (toParse 3 threeEntries [7, 0x1F, 0]).err = .none ∧ EntriesOk threeEntries ∧ threeEntries.length = 3 ∧
    2 ≤ (toParse 3 threeEntries [7, 0x1F, 0]).cfg.pcap ∧
    (toParse 3 threeEntries [7, 0x1F, 0]).ibuf = rawContainer threeEntries.length threeEntries [7, 0x1F, 0] ∧
    (∀ b ∈ sixBytes, entryCode threeEntries b ≠ []) ∧
    unpackBits [0x1F, 0] ((7 : Byte).setWidth 3) = (sixBytes.map (entryCode threeEntries)).flatten ∧
    sixBytes.length ≤ (toParse 3 threeEntries [7, 0x1F, 0]).cfg.ocap.toNat :=
  ⟨rfl, threeEntries_ok, rfl, by decide +kernel, rfl, by decide +kernel, by decide +kernel, by decide +kernel⟩

/-- "a" compresses without overflow to a container that fits IBUF, and it decompresses without overflow. -/
theorem witness_RoundTrip : State.reset.err = .none ∧ State.reset.cfg.wellFormed = true ∧ 1 ≤ ([0x61] : List Byte).length ∧
    ([0x61] : List Byte).length ≤ State.reset.cfg.icap.toNat ∧
    nextIs (fun t => t.err ≠ .bufferOverflow ∧ t.obuf.length ≤ t.cfg.icap.toNat) (exec .compress (withInput [0x61])) =
      true ∧
    nextIs (fun v => v.err ≠ .bufferOverflow) (exec .decompress (withInput serializedA.obuf)) = true ∧
    ([0x61] : List Byte).length ≤ State.reset.cfg.ocap.toNat := by decide +kernel

theorem witness_PhaseMachine :
    State.reset.err = .none ∧ (∃ t, exec .build State.reset = .next t) ∧ neededPhase .build = some .counted ∧
    State.reset.phase ≠ .counted ∧ (∃ t, exec .build countedA = .next t) ∧ countedA.phase = .counted ∧
    IsIllegalWord 0x0E ∧ faultedBlock.err ≠ .none ∧ (∃ t, exec .sreset faultedBlock = .next t) ∧
    (∃ t, exec .nop faultedBlock = .next t) ∧
    (∃ t, transact { write := true, space := 0, index := 1, wdata := 0x0E } State.reset = .next t) ∧
    ∃ t, transact { write := true, space := 0, index := 1, wdata := 0x0E } faultedBlock = .next t :=
  have some {r : Result} (h : nextIs (fun _ => true) r = true) : ∃ t, r = .next t := by
    simpa using exists_next (p := fun _ => true) h
  ⟨rfl, some (by decide +kernel), rfl, by decide, some (by decide +kernel), rfl, by unfold IsIllegalWord; decide +kernel,
    by decide, some (by decide +kernel), some (by decide +kernel), some (by decide +kernel), some (by decide +kernel)⟩

/-- A command that writes each field: PUSH the input, COUNT the map, COMPRESS every product; and an error record that
stays. -/
theorem witness_WhoWritesWhat :
    Instr.push 7 ≠ .sreset ∧ faultedBlock.err ≠ .none ∧ nextIs (fun t => t.err ≠ .none) (exec (.push 7) faultedBlock) = true ∧
    nextIs (fun t => t.err = .none) (exec (.push 7) State.reset) = true ∧
    nextIs (fun t => t.ibuf ≠ []) (exec (.push 7) State.reset) = true ∧
    nextIs (fun t => t.freq ≠ [] ∧ t.nsym ≠ 0) (exec .count (withInput [7])) = true ∧
    nextIs (fun t => t.nodes ≠ [] ∧ t.code ≠ [] ∧ t.bits ≠ [] ∧ t.pbuf ≠ [] ∧ t.obuf ≠ [])
      (exec .compress (withInput [7])) = true := by decide +kernel

theorem witness_RepeatedCommands :
    nextIs (fun t => t.err = .none) (exec .count (withInput [7])) = true ∧ neededPhase .build = some .counted ∧
    nextIs (fun t => t.err = .none) (exec .build countedA) = true ∧
    nextIs (fun t => t.err ≠ .none) (exec .build State.reset) = true ∧ State.reset.err = .none ∧
    ({ State.reset with cfg := { icap := 2, ocap := 1, bcap := 8 } } : State).ibuf.length + 2 ≤
      ({ State.reset with cfg := { icap := 2, ocap := 1, bcap := 8 } } : State).cfg.icap.toNat := by decide +kernel

/-- Two blocks of different capacities and pasts with one input. -/
theorem witness_CompressIsDeterministic :
    (withInput [0x61]).err = .none ∧ ({ packedA with cfg := { icap := 9, ocap := 9, bcap := 8 } } : State).err = .none ∧
    (withInput [0x61]).ibuf = packedA.ibuf ∧
    nextIs (fun t => t.err = .none) (exec .compress (withInput [0x61])) = true ∧
    nextIs (fun t => t.err = .none) (exec .compress { packedA with cfg := { icap := 9, ocap := 9, bcap := 8 } }) =
      true := by decide +kernel

theorem witness_StopsOnlyOutsideTheInvariants :
    Inv serializedA ∧
    (∃ s : State, s.err = .none ∧ s.phase = .counted ∧ s.nsym ≠ 0 ∧ ∀ b, freqAt s.freq b = 0) ∧
    (∃ s : State, s.err = .none ∧ s.phase = .built ∧ s.nodes[s.root.toNat]? = none) ∧
    ∃ s : State, s.err = .none ∧ s.phase = .parsed ∧ s.pbuf = [] ∧ s.pad ≠ 0 :=
  ⟨witness_serializedA, ⟨{ State.reset with phase := .counted, nsym := 1 }, rfl, rfl, by decide, by decide +kernel⟩,
    ⟨{ State.reset with phase := .built }, rfl, rfl, rfl⟩,
    ⟨{ State.reset with phase := .parsed, pad := 1 }, rfl, rfl, rfl, by decide⟩⟩

/-- The reference and the smallest admissible configuration (00_scope.md R8). -/
theorem witness_InvariantsHoldAtReset : Config.reference.wellFormed = true ∧
    ({ icap := 1, ocap := 1, bcap := 8 } : Config).wellFormed = true := by decide

/-- ENCODE from the assigned state of "a", as the next host input. -/
theorem witness_InvariantsKeptByEveryStep : Inv assignedA ∧ ∃ t, step assignedA = .next t := ⟨witness_assignedA, assignedA, rfl⟩

theorem witness_MemoryStaysCanonical : Memory.wf (withInput sixBytes) = true ∧
    nextIs (fun t => t.freq = sixFreq) (step ((withInput sixBytes).withFetchWord 32 0x01)) = true := by decide +kernel

end Sys2Proof.Tests
end

section
/-! PROOFS. The scope of a step (00_scope.md): which input it takes, which command it runs, and which phase the unit
commands need. -/

namespace Sys2Proof.Machine

/-! A step by the shape of the pending host inputs -/

/-- With no input pending the block waits. -/
theorem step_of_port_nil {s : State} (hp : s.port = []) : step s = .next s := by
  rw [step, portStep, hp]

/-- The oldest input is carried out on the rest of the list. -/
theorem step_of_port_cons {s : State} {input : HostInput} {rest : List HostInput} (hp : s.port = input :: rest) :
    step s = takeInput input { s with port := rest } := by
  rw [step, portStep, hp]

/-- A write of CMD is the command port's meaning of its word, with no read data (20_memory.md R62). -/
theorem takeInput_cmdWrite (w : Word) (s : State) :
    takeInput (cmdWrite w) s = writeCmd w { s with rdata := none } := rfl

/-! What a host input leaves alone: the inputs behind it and the capacities -/

theorem writeCmd_keeps_port_cfg {w : Word} {s t : State} (h : writeCmd w s = .next t) :
    t.port = s.port ∧ t.cfg = s.cfg := by
  rcases writeCmd_cases _ h with ⟨-, hs⟩ | ⟨-, hs, -⟩ | ⟨i, -, hexec⟩
  · cases hs; exact ⟨rfl, rfl⟩
  · cases hs; exact ⟨rfl, rfl⟩
  · obtain ⟨hcfg, hport, -⟩ := exec_keeps hexec.symm
    exact ⟨hport, hcfg⟩

theorem hostWrite_keeps_port_cfg {space : BitVec 4} {index wdata : Word} {s t : State}
    (h : hostWrite space index wdata s = .next t) : t.port = s.port ∧ t.cfg = s.cfg := by
  rw [hostWrite] at h
  split at h
  · exact writeCmd_keeps_port_cfg h
  · cases h; exact ⟨rfl, rfl⟩

theorem transact_keeps_port_cfg {tr : Transaction} {s t : State} (h : transact tr s = .next t) :
    t.port = s.port ∧ t.cfg = s.cfg := by
  rw [transact] at h
  split at h
  · have hkeeps := hostWrite_keeps_port_cfg h
    exact hkeeps
  · cases h; exact ⟨rfl, rfl⟩

theorem takeInput_keeps_port_cfg {input : HostInput} {s t : State} (h : takeInput input s = .next t) :
    t.port = s.port ∧ t.cfg = s.cfg := by
  cases input with
  | transaction tr => exact transact_keeps_port_cfg h
  | rst => cases h; exact ⟨rfl, rfl⟩

/-- Every step that answers next drops the first input, if there is one, and keeps the capacities. -/
theorem step_port_tail_cfg {s t : State} (h : step s = .next t) : t.port = s.port.tail ∧ t.cfg = s.cfg := by
  cases hp : s.port with
  | nil =>
    rw [step_of_port_nil hp] at h
    cases h
    exact ⟨hp, rfl⟩
  | cons input rest =>
    rw [step_of_port_cons hp] at h
    exact takeInput_keeps_port_cfg h

/-! The phase a unit command needs -/

/-- A command outside the PHASE it needs ends in Fail() with BadSequence, its opcode and the PHASE found
(60_exceptions.md R244). -/
theorem exec_badPhase {i : Instr} {p : Phase} {s : State} (hneed : neededPhase i = some p) (he : s.err = .none)
    (hp : s.phase ≠ p) : exec i s = .next (fail (badSequence (opcodeByte i) s.phase) s) := by
  cases i with
  | build => cases hneed; exact execBuild_badPhase he hp
  | assign => cases hneed; exact execAssign_badPhase he hp
  | encode => cases hneed; exact execEncode_badPhase he hp
  | pack => cases hneed; exact execPack_badPhase he hp
  | serialize => cases hneed; exact execSerialize_badPhase he hp
  | unpack => cases hneed; exact execUnpack_badPhase he hp
  | decode => cases hneed; exact execDecode_badPhase he hp
  | nop | count | compress | parse | decompress | iclr | push _ | sreset => cases hneed

/-- Only a command outside the PHASE it needs leaves BadSequence: the errors of a command's own have other codes. -/
theorem badPhase_of_exec_badSequence {i : Instr} {s t : State} (he : s.err = .none) (h : exec i s = .next t)
    (ht : t.err = .badSequence) : ∃ p, neededPhase i = some p ∧ s.phase ≠ p := by
  rcases exec_next he h with ⟨p, hneed, hp, -⟩ | ⟨-, ⟨-, e, rfl, -, hcode, -⟩ | ⟨hnone, -⟩⟩
  · exact ⟨p, hneed, hp⟩
  · exact absurd ht hcode
  · rw [hnone] at ht; cases ht

/-! The obligations -/

/-- Settles O5, by the shape of the list of pending inputs; the last clause rests on what each host input keeps. -/
theorem stepTakesTheOldestInput : Obligations.StepTakesTheOldestInput :=
  ⟨fun _ hp => step_of_port_nil hp, fun _ _ _ hp => step_of_port_cons hp, fun _ _ hp => step_of_port_cons hp,
    fun _ _ h => step_port_tail_cfg h⟩

/-- Settles O15: one direction by the command, the other from everything a command can answer. -/
theorem wrongPhaseRaisesBadSequence : Obligations.WrongPhaseRaisesBadSequence :=
  ⟨fun _ _ _ hneed he hp => exec_badPhase hneed he hp, fun _ _ _ he h ht => badPhase_of_exec_badSequence he h ht⟩

/-- Settles O4: a word that decodes runs its command whether the block is faulted or not (`writeCmd_of_decode`). -/
theorem stepRunsTheDecodedCommand : Obligations.StepRunsTheDecodedCommand := by
  intro s w i rest hp hd
  rw [step_of_port_cons hp, takeInput_cmdWrite, writeCmd_of_decode _ hd]

end Sys2Proof.Machine
end

section
/-! PROOFS. The state (10_state.md): what a command leaves when it succeeds, which fields each command writes, what
keeps the symbol-indexed memories canonical, and what the host reads after a reset. -/

namespace Sys2Proof.Machine

/-! The outcomes of a command: ignored, failed, or completed -/

/-- The state each command leaves when it succeeds. -/
inductive Completes (s : State) : Instr → State → Prop
  | nop : Completes s .nop s
  | count : Completes s .count (countedState s)
  | build {nodes : List Node} {root : Nat} (hb : buildTree s.freq = some (nodes, root)) :
      Completes s .build { s with nodes := nodes, root := BitVec.ofNat 9 root, phase := .built }
  | assign {code : SymMap BitString} (hc : assignCodes s.nodes s.root.toNat s.code = .ok code) :
      Completes s .assign { s with code := code, phase := .assigned }
  | encode : Completes s .encode { s with bits := encodeBytes s.code s.ibuf, phase := .encoded }
  | pack : Completes s .pack { s with pbuf := packBytes s.bits, pad := padCount s.bits.length, phase := .packed }
  | serialize :
      Completes s .serialize
        { s with obuf := containerBytes s.nsym.toNat s.code s.pad s.pbuf, phase := .serialized }
  | compress {nodes : List Node} {root : Nat} {code : SymMap BitString}
      (hb : buildTree (countBytes s.ibuf) = some (nodes, root))
      (hc : assignCodes nodes (BitVec.ofNat 9 root).toNat [] = .ok code) :
      Completes s .compress (compressedState s nodes (BitVec.ofNat 9 root) code)
  | parse {r : Parsed} (hr : parseContainer s.cfg.pcap s.ibuf = .ok r) :
      Completes s .parse { clearProducts s with nsym := BitVec.ofNat 9 r.count, code := r.code, pad := r.pad,
                                                pbuf := r.payload, phase := .parsed }
  | unpack : Completes s .unpack { s with bits := unpackBits s.pbuf s.pad, phase := .unpacked }
  | decode {out : List Byte} (ho : decodeScan s.cfg.ocap.toNat s.code s.bits 0 [] [] 0 = .ok out) :
      Completes s .decode { s with obuf := out, phase := .decoded }
  | decompress {r : Parsed} {out : List Byte} (hr : parseContainer s.cfg.pcap s.ibuf = .ok r)
      (ho : decodeScan s.cfg.ocap.toNat r.code (unpackBits r.payload r.pad) 0 [] [] 0 = .ok out) :
      Completes s .decompress (decompressedState s r out)
  | iclr : Completes s .iclr { clearProducts s with ibuf := [], phase := .load }
  | push (b : Byte) : Completes s (.push b) { clearProducts s with ibuf := s.ibuf ++ [b], phase := .load }
  | sreset : Completes s .sreset (softReset s)

/-- A command whose next state records no error found its PHASE. -/
theorem phase_of_exec_ok {i : Instr} {p : Phase} {s t : State} (hneed : neededPhase i = some p) (he : s.err = .none)
    (h : exec i s = .next t) (ht : t.err = .none) : s.phase = p := by
  by_contra hp
  rw [exec_badPhase hneed he hp] at h
  cases h
  cases ht

/-- A command on a block that is not faulted completes when its next state records no error. -/
theorem completes_of_exec {i : Instr} {s t : State} (he : s.err = .none) (h : exec i s = .next t)
    (ht : t.err = .none) : Completes s i t := by
  have hphase : ∀ p, neededPhase i = some p → s.phase = p := fun _ hneed => phase_of_exec_ok hneed he h ht
  cases i <;> simp only [exec] at h
  case nop => rw [execNop_eq] at h; cases h; exact .nop
  case count => rw [execCount_eq he] at h; cases h; exact .count
  case build =>
    rcases execBuild_next he (hphase _ rfl) h with ⟨-, rfl⟩ | ⟨-, _, _, hb, rfl⟩
    · cases ht
    · exact .build hb
  case assign =>
    rcases execAssign_next he (hphase _ rfl) h with ⟨_, hc, rfl⟩ | ⟨_, hc, rfl⟩
    · rw [assignCodes_error hc] at ht; cases ht
    · exact .assign hc
  case encode =>
    rw [execEncode_eq he (hphase _ rfl)] at h; split at h <;> cases h
    · cases ht
    · exact .encode
  case pack => rw [execPack_eq he (hphase _ rfl)] at h; cases h; exact .pack
  case serialize =>
    rw [execSerialize_eq he (hphase _ rfl)] at h; split at h <;> cases h
    · cases ht
    · exact .serialize
  case compress =>
    rcases execCompress_next he h with ⟨e, rfl, hm⟩ | ⟨_, _, _, -, hb, hc, -, -, rfl⟩
    · simp only [List.mem_cons, List.not_mem_nil, or_false] at hm
      rcases hm with rfl | rfl | rfl | rfl <;> cases ht
    · exact .compress hb hc
  case parse =>
    rw [execParse_eq he] at h; split at h <;> cases h
    · exact .parse ‹_›
    · exact absurd ht (parseContainer_error ‹_›).code_ne
  case unpack => rw [execUnpack_eq he (hphase _ rfl)] at h; split at h <;> cases h; exact .unpack
  case decode =>
    rw [execDecode_eq he (hphase _ rfl)] at h; split at h <;> cases h
    · exact .decode ‹_›
    · rcases decodeScan_error _ ‹_› with rfl | ⟨_, rfl⟩ <;> cases ht
  case decompress =>
    rcases execDecompress_next he h with ⟨e, rfl, hm⟩ | ⟨_, _, hr, ho, rfl⟩
    · rcases hm with hm | rfl | ⟨_, rfl⟩
      · exact absurd ht hm.code_ne
      · cases ht
      · cases ht
    · exact .decompress hr ho
  case iclr => rw [execIclr_eq he] at h; cases h; exact .iclr
  case push b =>
    rw [execPush_eq he] at h; split at h <;> cases h
    · cases ht
    · exact .push b
  case sreset => cases h; exact .sreset

/-- Every next state of a command: a faulted block ignores it (60_exceptions.md R248), it ends in Fail() (R246), or it
completes. -/
theorem exec_outcome {i : Instr} {s t : State} (h : exec i s = .next t) :
    (s.err ≠ .none ∧ i ≠ .sreset ∧ t = s) ∨ (s.err = .none ∧ ∃ e, e.code ≠ .none ∧ t = fail e s) ∨
      Completes s i t := by
  by_cases he : s.err = .none
  · rcases exec_next he h with ⟨p, -, -, rfl⟩ | ⟨-, ⟨-, e, rfl, hcode, -⟩ | ⟨ht, -⟩⟩
    · exact .inr (.inl ⟨he, badSequence (opcodeByte i) s.phase, by simp [badSequence_code], rfl⟩)
    · exact .inr (.inl ⟨he, e, hcode, rfl⟩)
    · exact .inr (.inr (completes_of_exec he h ht))
  · by_cases hi : i = .sreset
    · subst hi
      cases h
      exact .inr (.inr .sreset)
    · rw [exec_faulted he hi] at h
      cases h
      exact .inl ⟨he, hi, rfl⟩

/-! Who writes what: one lemma for each field or group of fields a completed command may write (10_state.md R25) -/

section writers

variable {i : Instr} {s t : State}

theorem Completes.ibuf_writer (h : Completes s i t) (hne : t.ibuf ≠ s.ibuf) :
    (∃ b, i = .push b) ∨ i = .iclr ∨ i = .sreset := by
  cases h with
  | push b => exact .inl ⟨b, rfl⟩
  | iclr => exact .inr (.inl rfl)
  | sreset => exact .inr (.inr rfl)
  | _ => exact absurd rfl hne

theorem Completes.keeps_record (h : Completes s i t) (hi : i ≠ .sreset) :
    t.err = s.err ∧ t.stage = s.stage ∧ t.sub = s.sub ∧ t.errpos = s.errpos := by
  cases h with
  | sreset => exact absurd rfl hi
  | _ => exact ⟨rfl, rfl, rfl, rfl⟩

theorem Completes.freq_writer (h : Completes s i t) (hne : t.freq ≠ s.freq) :
    t.freq = [] ∨ i = .count ∨ i = .compress := by
  cases h with
  | count => exact .inr (.inl rfl)
  | compress => exact .inr (.inr rfl)
  | parse | decompress | iclr | push | sreset => exact .inl rfl
  | _ => exact absurd rfl hne

theorem Completes.nsym_writer (h : Completes s i t) (hne : t.nsym ≠ s.nsym) :
    t.nsym = 0 ∨ i ∈ [.count, .parse, .compress, .decompress] := by
  cases h with
  | count | parse | compress | decompress => exact .inr (by simp)
  | iclr | push | sreset => exact .inl rfl
  | _ => exact absurd rfl hne

theorem Completes.tree_writer (h : Completes s i t) (hne : t.nodes ≠ s.nodes ∨ t.root ≠ s.root) :
    (t.nodes = [] ∧ t.root = 0) ∨ i = .build ∨ i = .compress := by
  cases h with
  | build => exact .inr (.inl rfl)
  | compress => exact .inr (.inr rfl)
  | count | parse | decompress | iclr | push | sreset => exact .inl ⟨rfl, rfl⟩
  | _ => simp at hne

theorem Completes.code_writer (h : Completes s i t) (hne : t.code ≠ s.code) :
    t.code = [] ∨ i ∈ [.assign, .parse, .compress, .decompress] := by
  cases h with
  | assign | parse | compress | decompress => exact .inr (by simp)
  | count | iclr | push | sreset => exact .inl rfl
  | _ => exact absurd rfl hne

theorem Completes.bits_writer (h : Completes s i t) (hne : t.bits ≠ s.bits) :
    t.bits = [] ∨ i ∈ [.encode, .unpack, .compress, .decompress] := by
  cases h with
  | encode | unpack | compress | decompress => exact .inr (by simp)
  | count | parse | iclr | push | sreset => exact .inl rfl
  | _ => exact absurd rfl hne

theorem Completes.packed_writer (h : Completes s i t) (hne : t.pbuf ≠ s.pbuf ∨ t.pad ≠ s.pad) :
    (t.pbuf = [] ∧ t.pad = 0) ∨ i ∈ [.pack, .parse, .compress, .decompress] := by
  cases h with
  | pack | parse | compress | decompress => exact .inr (by simp)
  | count | iclr | push | sreset => exact .inl ⟨rfl, rfl⟩
  | _ => simp at hne

theorem Completes.obuf_writer (h : Completes s i t) (hne : t.obuf ≠ s.obuf) :
    t.obuf = [] ∨ i ∈ [.serialize, .decode, .compress, .decompress] := by
  cases h with
  | serialize | decode | compress | decompress => exact .inr (by simp)
  | count | parse | iclr | push | sreset => exact .inl rfl
  | _ => exact absurd rfl hne

/-- NOP keeps the whole state, PHASE with it, faulted or not (48_control.md R221). -/
theorem exec_phase_writer (h : exec i s = .next t) (hne : t.phase ≠ s.phase) : i ≠ .nop := by
  rintro rfl
  rw [exec, execNop_eq] at h
  cases h
  exact hne rfl

end writers

/-! The canonical form of the symbol-indexed memories -/

/-- A command that completes keeps the canonical form: what it writes is canonical and what it does not write stays. -/
theorem Completes.memory_wf {i : Instr} {s t : State} (h : Completes s i t) (hw : Memory.wf s = true) :
    Memory.wf t = true := by
  cases h with
  | count => exact countedState_memory_wf s
  | assign hc =>
    obtain ⟨hfreq, hcode⟩ := memory_wf_iff.1 hw
    exact memory_wf_iff.2 ⟨hfreq, assignCodes_wf hcode hc⟩
  | compress _ hc => exact compressedState_memory_wf hc
  | parse hr => exact memory_wf_iff.2 ⟨rfl, parseContainer_wf hr⟩
  | decompress hr _ => exact decompressedState_memory_wf hr
  | iclr | push | sreset => exact clearProducts_memory_wf s
  | nop | build | encode | pack | serialize | unpack | decode => exact hw

theorem exec_memory_wf {i : Instr} {s t : State} (hw : Memory.wf s = true) (h : exec i s = .next t) :
    Memory.wf t = true := by
  rcases exec_outcome h with ⟨-, -, rfl⟩ | ⟨-, e, -, rfl⟩ | hc
  · exact hw
  · exact fail_memory_wf e s
  · exact hc.memory_wf hw

theorem step_memory_wf {s t : State} (hw : Memory.wf s = true) (h : step s = .next t) : Memory.wf t = true := by
  rcases step_next h with ⟨-, rfl⟩ | ⟨rest, -, rfl⟩ | ⟨rest, r, rfl⟩ | ⟨rest, w, -, -, rfl⟩ | ⟨rest, i, hexec⟩
  · exact hw
  · exact resetWith_memory_wf s.cfg
  · exact hw
  · exact fail_memory_wf _ _
  · exact exec_memory_wf (s := { s with port := rest, rdata := none }) hw hexec

/-! What the host reads after a reset -/

/-- A host read does not look at the host port. -/
theorem SameBlock.hostRead_eq {s t : State} (h : SameBlock s t) (space : BitVec 4) (index : Word) :
    hostRead t space index = hostRead s space index := by
  rw [h]
  rfl

/-- SRESET and the reset signal leave the reset state under the block's own capacities, whatever the host port holds
(48_control.md R224, 70_reset_and_hazards.md R270). -/
theorem sameBlock_resetWith {s t : State} (h : exec .sreset s = .next t ∨ takeInput .rst s = .next t) :
    SameBlock (State.resetWith s.cfg) t := by
  rcases h with h | h
  · cases h; rfl
  · cases h; rfl

theorem resetWith_cleared (c : Config) : ProductsCleared (State.resetWith c) :=
  ⟨freqAt_nil, codeAt_nil, rfl, rfl, rfl, rfl, rfl, rfl, rfl⟩

/-- The sixteen registers of space 0 in the reset state (10_state.md R24, R41). -/
theorem resetWith_registers (c : Config) :
    (List.range 16).map (fun n => hostRead (State.resetWith c) 0 (BitVec.ofNat 32 n)) =
      [0x48464301, 0, 0, 0, 0, 0, 0, 0, 0, 0, 0, 0, 0, c.icap, c.ocap, c.bcap] := by
  simp [List.range_succ, hostRead, readCsr, lengthWord, statusWord_eq, errinfoWord_eq, Phase.toBits, ErrCode.toBits]

/-- Every other space reads 0 in the reset state: the input is empty and the products are cleared. -/
theorem hostRead_resetWith (c : Config) {space : BitVec 4} (index : Word) (hs : space ≠ 0) :
    hostRead (State.resetWith c) space index = 0 := by
  by_cases h1 : space = 1
  · subst h1
    rfl
  · exact hostRead_cleared (resetWith_cleared c) space index (by bv_omega)

/-! The obligations -/

/-- Settles O54: a command is ignored, ends in Fail(), or completes (`exec_outcome`); the first writes nothing, the
second clears every product, and the third writes what the `Completes` lemmas say. -/
theorem whoWritesWhat : Obligations.WhoWritesWhat := by
  intro i s t h
  obtain ⟨hcfg, hport, hrdata⟩ := exec_keeps h
  refine ⟨hcfg, hport, hrdata, ?_⟩
  have hphase := exec_phase_writer h
  rcases exec_outcome h with ⟨-, -, rfl⟩ | ⟨he, e, hcode, rfl⟩ | hc
  · simp
  · simpa [he, hcode] using hphase
  · exact ⟨hc.ibuf_writer, fun hi _ => hc.keeps_record hi, hc.freq_writer, hc.nsym_writer, hc.tree_writer,
      hc.code_writer, hc.bits_writer, hc.packed_writer, hc.obuf_writer, hphase⟩

/-- Settles O60, by everything a step can answer (`step_memory_wf`). -/
theorem memoryStaysCanonical : Obligations.MemoryStaysCanonical := fun _ _ hw h => step_memory_wf hw h

/-- Settles O9: both resets leave the reset state but for the host port, and a read does not look at the port. -/
theorem resetStateReads : Obligations.ResetStateReads := by
  intro s t h
  have hblock := sameBlock_resetWith h
  refine ⟨?_, ?_, ?_⟩
  · simp only [hblock.hostRead_eq]
    exact resetWith_registers s.cfg
  · rw [hblock]
    exact fun b => ⟨freqAt_nil b, by simp [clenAt]⟩
  · intro space index hs
    rw [hblock.hostRead_eq, hostRead_resetWith s.cfg index hs]

/-- Settles O10, by the field lemmas of `clearProducts`. -/
theorem clearProductsZeroesTheProducts : Obligations.ClearProductsZeroesTheProducts := by
  intro s
  simp [clenAt, errinfoWord]

end Sys2Proof.Machine
end

section
/-! PROOFS. The host port and the memory map (20_memory.md): what a write and a read of each space do, the words of a
tree node, and what a command does when it is written twice in a row. -/

namespace Sys2Proof.Machine

/-! The words of a tree node -/

theorem nodeLink_leaf_toNat (sym : Byte) (w : Word) :
    (nodeLink (.leaf sym w)).toNat = 2 ^ 31 + sym.toNat * 2 ^ 18 := by
  simp only [nodeLink, toNat_append_eq, BitVec.toNat_ofNat]
  omega

theorem nodeLink_internal_toNat (left right : BitVec 9) (w : Word) :
    (nodeLink (.internal left right w)).toNat = left.toNat + right.toNat * 2 ^ 9 := by
  simp only [nodeLink, toNat_append_eq, BitVec.toNat_ofNat]
  omega

/-! A write -/

/-- A write of space 0 index 1 is the command port's meaning of its data (20_memory.md R62). -/
theorem transact_write_cmd (wdata : Word) (s : State) :
    transact { write := true, space := 0, index := 1, wdata := wdata } s = writeCmd wdata { s with rdata := none } :=
  takeInput_cmdWrite wdata s

/-- A write of any other place only makes the read data meaningless (20_memory.md R60, R62). -/
theorem transact_write_elsewhere {space : BitVec 4} {index : Word} (h : ¬ (space = 0 ∧ index = 1)) (wdata : Word)
    (s : State) :
    transact { write := true, space := space, index := index, wdata := wdata } s = .next { s with rdata := none } :=
  if_neg h

/-! A read -/

/-- The sixteen registers of space 0, in the order of their indices (10_state.md R24). -/
def registers (s : State) : List Word :=
  [0x48464301, 0, statusWord s, errinfoWord s, s.errpos, lengthWord s.ibuf.length, s.nsym.setWidth 32,
    lengthWord s.nodes.length, s.root.setWidth 32, lengthWord s.bits.length, lengthWord s.pbuf.length,
    s.pad.setWidth 32, lengthWord s.obuf.length, s.cfg.icap, s.cfg.ocap, s.cfg.bcap]

theorem readCsr_eq (s : State) (index : Word) : readCsr s index = (registers s)[index.toNat]?.getD 0 := by
  unfold readCsr
  generalize index.toNat = n
  match n with
  | 0 | 1 | 2 | 3 | 4 | 5 | 6 | 7 | 8 | 9 | 10 | 11 | 12 | 13 | 14 | 15 => rfl
  | _ + 16 => rfl

/-- BITBUF reads as 0 or 1, and as 0 beyond BLEN. -/
theorem hostRead_bits (s : State) (index : Word) :
    hostRead s 8 index = if s.bits[index.toNat]? = some true then 1 else 0 := by
  show gated s.bits index _ = _
  rw [gated_eq]
  rcases s.bits[index.toNat]? with _ | _ | _ <;> rfl

/-- Spaces 10 to 15 hold nothing (20_memory.md R61). -/
theorem hostRead_unmapped (s : State) {space : BitVec 4} (index : Word) (hs : 10 ≤ space.toNat) :
    hostRead s space index = 0 := by
  unfold hostRead
  split
  case h_11 => rfl
  all_goals omega

/-! A command written twice in a row -/

/-- What is left of the block for a command that starts over from the input: no product, and PHASE 0. -/
def restart (s : State) : State := { clearProducts s with phase := .load }

theorem execCount_restart {s : State} (he : s.err = .none) : execCount (restart s) = execCount s := by
  rw [execCount_eq he, execCount_eq (s := restart s) he]
  rfl

theorem execParse_restart {s : State} (he : s.err = .none) : execParse (restart s) = execParse s := by
  rw [execParse_eq he, execParse_eq (s := restart s) he]
  rfl

/-- COUNT, PARSE and the composites that begin with them read no product and no PHASE. -/
theorem exec_restart {i : Instr} {s : State} (hi : i ∈ [.count, .parse, .compress, .decompress])
    (he : s.err = .none) : exec i (restart s) = exec i s := by
  simp only [List.mem_cons, List.not_mem_nil, or_false] at hi
  rcases hi with rfl | rfl | rfl | rfl
  · exact execCount_restart he
  · exact execParse_restart he
  · rw [exec, exec, execCompress, execCompress, execCount_restart he]
  · rw [exec, exec, execDecompress, execDecompress, execParse_restart he]

/-- Those four commands write nothing but products and PHASE. -/
theorem Completes.restart_eq {i : Instr} {s t : State} (h : Completes s i t)
    (hi : i ∈ [.count, .parse, .compress, .decompress]) : restart t = restart s := by
  cases h with
  | count | parse | compress | decompress => rfl
  | _ => simp at hi

/-- Only SRESET can leave a block without an error that had one before (60_exceptions.md R248). -/
theorem err_none_of_exec {i : Instr} {s t : State} (hi : i ≠ .sreset) (h : exec i s = .next t) (ht : t.err = .none) :
    s.err = .none := by
  by_contra he
  rw [exec_faulted he hi] at h
  cases h
  exact he ht

/-- Started over from the same input, those four commands do the same again; a block they left faulted ignores them. -/
theorem exec_again_of_restart {i : Instr} {s t : State} (hi : i ∈ [.count, .parse, .compress, .decompress])
    (h : exec i s = .next t) : exec i t = .next t := by
  have hne : i ≠ .sreset := by rintro rfl; simp at hi
  by_cases ht : t.err = .none
  · have he := err_none_of_exec hne h ht
    calc exec i t = exec i (restart t) := (exec_restart hi ht).symm
      _ = exec i (restart s) := by rw [(completes_of_exec he h ht).restart_eq hi]
      _ = exec i s := exec_restart hi he
      _ = .next t := h
  · exact exec_faulted ht hne

/-- ICLR, SRESET and NOP leave a state that they leave as it is. -/
theorem exec_again_of_control {i : Instr} {s t : State} (hi : i ∈ [.iclr, .sreset, .nop])
    (h : exec i s = .next t) : exec i t = .next t := by
  simp only [List.mem_cons, List.not_mem_nil, or_false] at hi
  rcases hi with rfl | rfl | rfl
  · by_cases he : s.err = .none
    · rw [exec, execIclr_eq he] at h
      cases h
      exact execIclr_eq he
    · rw [exec_faulted he (by decide)] at h
      cases h
      exact exec_faulted he (by decide)
  · cases h; rfl
  · exact execNop_eq t

/-- PUSH with room in IBUF appends its byte (48_control.md R222). -/
theorem execPush_of_room {s : State} (b : Byte) (he : s.err = .none) (hroom : s.ibuf.length < s.cfg.icap.toNat) :
    execPush b s = .next { clearProducts s with ibuf := s.ibuf ++ [b], phase := .load } := by
  rw [execPush_eq he, if_neg hroom.ne]

/-- The PHASE a unit command leaves is not the one it needs (70_reset_and_hazards.md R276). -/
theorem leftPhase_ne_needed {i : Instr} {p : Phase} (hneed : neededPhase i = some p) (found : Phase) :
    leftPhase i found ≠ p := by
  cases i with
  | build | assign | encode | pack | serialize | unpack | decode => cases hneed; simp [leftPhase]
  | _ => cases hneed

/-- A command whose next state records no error has left its PHASE (30_encoding.md R83). -/
theorem exec_leaves_phase {i : Instr} {s t : State} (he : s.err = .none) (h : exec i s = .next t)
    (ht : t.err = .none) : t.phase = leftPhase i s.phase := by
  rcases exec_next he h with ⟨p, -, -, rfl⟩ | ⟨-, ⟨-, e, rfl, hcode, -⟩ | ⟨-, hphase⟩⟩
  · cases ht
  · exact absurd ht hcode
  · exact hphase

/-! The obligations -/

/-- Settles O6: the two lemmas on writes, and a word that decodes runs its command (`writeCmd_of_decode`). -/
theorem onlyCmdWritesHaveAnEffect : Obligations.OnlyCmdWritesHaveAnEffect := by
  intro s space index wdata
  refine ⟨fun h => ⟨_, transact_write_elsewhere h wdata s, rfl⟩, ?_⟩
  rintro rfl rfl i hd
  exact ⟨none, by rw [transact_write_cmd, writeCmd_of_decode _ hd]⟩

/-- Settles O7, space by space: the registers as a table (`readCsr_eq`), the gated memories (`gated_eq`), the rest. -/
theorem hostReadsAreGated : Obligations.HostReadsAreGated := by
  intro s space index wdata
  refine ⟨hostRead s space index, rfl, ?_, ?_, ?_, ?_, ?_, ?_, ?_, ?_, ?_, ?_, hostRead_unmapped s index⟩
  · rintro rfl
    rw [← statusWord_eq, ← errinfoWord_eq]
    exact readCsr_eq s index
  · rintro rfl; exact gated_eq ..
  · rintro rfl; exact gated_eq ..
  · rintro rfl; rfl
  · rintro rfl; exact gated_eq ..
  · rintro rfl; exact gated_eq ..
  · rintro rfl; rfl
  · rintro rfl; rfl
  · rintro rfl; exact hostRead_bits s index
  · rintro rfl; exact gated_eq ..

/-- Settles O55: COUNT, PARSE and their composites start over from an input they do not write, the other unit commands
leave a PHASE they do not accept, a faulted block ignores both, and each PUSH appends its byte. -/
theorem repeatedCommands : Obligations.RepeatedCommands := by
  refine ⟨fun i s t hi h => ?_, fun i p s t hneed h => ?_, fun b s he hroom => ?_⟩
  · rcases List.mem_append (s := [Instr.count, .parse, .compress, .decompress]).1 hi with hi | hi
    · exact exec_again_of_restart hi h
    · exact exec_again_of_control hi h
  · have hi : i ≠ .sreset := by rintro rfl; cases hneed
    refine ⟨fun ht => ?_, fun ht => exec_faulted ht hi⟩
    have hphase := exec_leaves_phase (err_none_of_exec hi h ht) h ht
    exact ⟨_, exec_badPhase hneed ht (hphase ▸ leftPhase_ne_needed hneed s.phase), rfl⟩
  · exact ⟨_, _, execPush_of_room b he (by omega), execPush_of_room b he (by simp; omega), by simp⟩

/-- Settles O8: each field of NODEL as its multiple of a power of two. -/
theorem nodeWordsLayout : Obligations.NodeWordsLayout :=
  ⟨fun sym w => ⟨rfl, nodeLink_leaf_toNat sym w⟩,
    fun left right w => ⟨rfl, nodeLink_internal_toNat left right w⟩, by decide, by decide⟩

end Sys2Proof.Machine
end

section
/-! PROOFS. The encoding (30_encoding.md): what the decoder makes of every word, that the encoder undoes it, and what
writing an illegal word to CMD does. -/

namespace Sys2Proof.Machine

/-! What the decoder makes of a word -/

/-- PUSH in format B: bits [15:8] are its immediate and bits [31:16] are 0 (30_encoding.md R82). -/
theorem decode_formatB {w : Word} (hop : w.toNat % 256 = 0x0D) (hz : w.toNat / 65536 = 0) :
    decode w = .ok (.push (BitVec.ofNat 8 (w.toNat / 256))) := by
  rw [decode_arith, if_pos hop, if_neg (not_not.2 hz)]

theorem encode_push_of_formatB {w : Word} (hop : w.toNat % 256 = 0x0D) (hz : w.toNat / 65536 = 0) :
    encode (.push (BitVec.ofNat 8 (w.toNat / 256))) = w := by
  apply BitVec.eq_of_toNat_eq
  rw [encode_push_toNat, BitVec.toNat_ofNat]
  omega

/-- In format Z the opcode map decides (30_encoding.md R81, R83). -/
theorem decode_formatZ {w : Word} {i : Instr} (hop : w.toNat % 256 ≠ 0x0D) (hz : w.toNat / 256 = 0)
    (hi : opcodeZ (BitVec.ofNat 8 (w.toNat % 256)) = some i) : decode w = .ok i := by
  rw [decode_arith, if_neg hop, if_neg (not_not.2 hz), hi]

theorem eq_ofNat_of_formatZ {w : Word} (hz : w.toNat / 256 = 0) : w = BitVec.ofNat 32 (w.toNat % 256) := by
  apply BitVec.eq_of_toNat_eq
  rw [BitVec.toNat_ofNat]
  omega

/-- The opcode bytes that the map of 30_encoding.md R83 leaves out are no command's. -/
theorem opcodeByte_listed (i : Instr) : (opcodeByte i).toNat < 0x10 ∧ (opcodeByte i).toNat ≠ 0x0E := by
  cases i <;> simp [opcodeByte]

/-- Everything the decoder can answer: an error on the words that 30_encoding.md R86 lists, and on every other word a
command that encodes to it. -/
theorem decode_cases (w : Word) :
    (IsIllegalWord w ∧ ∃ e, decode w = .error e) ∨ (¬ IsIllegalWord w ∧ ∃ i, decode w = .ok i ∧ encode i = w) := by
  unfold IsIllegalWord
  by_cases hop : w.toNat % 256 = 0x0D
  · by_cases hz : w.toNat / 65536 = 0
    · exact .inr ⟨by omega, _, decode_formatB hop hz, encode_push_of_formatB hop hz⟩
    · exact .inl ⟨by omega, .zeroField, by rw [decode_arith, if_pos hop, if_pos hz]⟩
  · by_cases hz : w.toNat / 256 = 0
    · rcases opcodeZ_cases (w.toNat % 256) (by omega) with ⟨i, hi, hbyte, henc⟩ | ⟨hnone, hlisted⟩
      · have hmap := opcodeByte_listed i
        refine .inr ⟨by omega, i, decode_formatZ hop hz hi, ?_⟩
        apply BitVec.eq_of_toNat_eq
        rw [henc, encodeZ_toNat]
        omega
      · exact .inl ⟨by omega, .noSuchOpcode, by rw [decode_arith, if_neg hop, if_neg (not_not.2 hz), hnone]⟩
    · exact .inl ⟨by omega, .zeroField, by rw [decode_arith, if_neg hop, if_pos hz]⟩

/-! The encoder and the decoder undo each other -/

theorem encode_of_decode {w : Word} {i : Instr} (h : decode w = .ok i) : encode i = w := by
  rcases decode_cases w with ⟨-, e, he⟩ | ⟨-, j, hj, henc⟩
  · cases he.symm.trans h
  · cases hj.symm.trans h
    exact henc

/-- PUSH by its word as a number; each other command has one word, on which the decoder is run. -/
theorem decode_encode (i : Instr) : decode (encode i) = .ok i := by
  cases i with
  | push b =>
    have hw := encode_push_toNat b
    have hb := b.isLt
    have himm : BitVec.ofNat 8 ((encode (.push b)).toNat / 256) = b := by
      apply BitVec.eq_of_toNat_eq
      rw [BitVec.toNat_ofNat]
      omega
    rw [decode_formatB (by omega) (by omega), himm]
  | nop | count | build | assign | encode | pack | serialize | compress | parse | unpack | decode | decompress | iclr
  | sreset => rfl

/-! Illegal words -/

theorem isIllegalWord_iff_decode_error (w : Word) : IsIllegalWord w ↔ ∃ e, decode w = .error e := by
  rcases decode_cases w with ⟨hill, herr⟩ | ⟨hlegal, i, hi, -⟩
  · exact ⟨fun _ => herr, fun _ => hill⟩
  · exact ⟨fun hill => absurd hill hlegal, fun ⟨e, he⟩ => by cases hi.symm.trans he⟩

theorem illegalCommand_eq (w : Word) : illegalCommand w = ⟨.illegalCommand, w.setWidth 8, 0, w⟩ := by
  have hstage : opcodeField w = w.setWidth 8 := (BitVec.setWidth_eq_extractLsb' (by omega)).symm
  rw [illegalCommand, hstage]

/-- Writing an illegal word to CMD is Fail() with IllegalCommand, or nothing while faulted (30_encoding.md R86,
60_exceptions.md R248). -/
theorem writeCmd_of_illegal {w : Word} (hill : IsIllegalWord w) (s : State) :
    writeCmd w s = if s.err = .none then .next (fail (illegalCommand w) s) else .next s := by
  rcases writeCmd_cases (w := w) (s := s) _ rfl with ⟨he, h⟩ | ⟨he, h, -⟩ | ⟨i, hi, -⟩
  · rw [h, if_neg he]
  · rw [h, if_pos he]
  · obtain ⟨e, herr⟩ := (isIllegalWord_iff_decode_error w).1 hill
    cases hi.symm.trans herr

/-! The obligations -/

/-- Settles O2: the decoder answers only a command that encodes to the word (`decode_cases`), and it reads back the word
of every command. -/
theorem decodeAndEncodeAgree : Obligations.DecodeAndEncodeAgree := by
  intro w i
  exact ⟨encode_of_decode, fun h => h ▸ decode_encode i⟩

/-- Settles O3: the three error clauses are parts of R86's list, and a word of format Z is its opcode as a number. -/
theorem decodeFollowsItsListing : Obligations.DecodeFollowsItsListing := by
  intro w
  have herror : IsIllegalWord w → ∃ e, decode w = .error e := (isIllegalWord_iff_decode_error w).1
  refine ⟨fun hop hz => herror (.inr (.inr (.inr ⟨hop, hz⟩))), decode_formatB,
    fun hop hz => herror (.inr (.inr (.inl ⟨hop, hz⟩))), fun hz row hrow hop => ?_, fun _ hop => herror ?_⟩
  · rw [eq_ofNat_of_formatZ hz, hop]
    clear hop
    revert row
    decide
  · exact hop.imp_right .inl

/-- Settles O11: R86's list is where the decoder errs, and what CMD makes of such a word. -/
theorem illegalWordsRaiseIllegalCommand : Obligations.IllegalWordsRaiseIllegalCommand := by
  refine ⟨isIllegalWord_iff_decode_error, fun s w hill => ?_⟩
  rw [transact_write_cmd, writeCmd_of_illegal hill, illegalCommand_eq]
  by_cases he : s.err = .none
  · exact ⟨_, if_pos he, fun _ => rfl, fun hne => absurd he hne⟩
  · exact ⟨_, if_neg he, fun hnone => absurd hnone he, fun _ => rfl⟩

/-- Settles O1: each of the fifteen words is its command's by the encoder, which the decoder undoes. -/
theorem writtenOutWordsDecode : Obligations.WrittenOutWordsDecode :=
  ⟨decode_encode .nop, decode_encode .count, decode_encode .build, decode_encode .assign, decode_encode .encode,
    decode_encode .pack, decode_encode .serialize, decode_encode .compress, decode_encode .parse,
    decode_encode .unpack, decode_encode .decode, decode_encode .decompress, decode_encode .iclr,
    decode_encode (.push 0x61), decode_encode .sreset⟩

end Sys2Proof.Machine
end

section
/-! PROOFS. The frequency counter (40_frequency_counter.md): the bounds on the number of symbols COUNT finds. -/

namespace Sys2Proof.Machine

/-- An input inside ICAP is short enough that no counter wraps (R112). -/
theorem ibuf_length_lt_of_le_icap {s : State} (h : s.ibuf.length ≤ s.cfg.icap.toNat) : s.ibuf.length < 2 ^ 32 :=
  h.trans_lt s.cfg.icap.isLt

/-- The symbols counted are distinct members of the input. -/
theorem distinctCount_countBytes_le_length (l : List Byte) : distinctCount (countBytes l) ≤ l.length := by
  rw [distinctCount, List.countP_eq_length_filter]
  refine ((symbols_nodup.filter _).subperm fun b hb => ?_).length_le
  have hfreq : freqAt (countBytes l) b ≠ 0 := by simpa using hb
  by_contra hmem
  rw [freqAt_countBytes, List.count_eq_zero_of_not_mem hmem] at hfreq
  exact hfreq rfl

/-- NSYM is 0 exactly when the input is empty. -/
theorem nsym_eq_zero_iff {l : List Byte} (h : l.length < 2 ^ 32) :
    BitVec.ofNat 9 (distinctCount (countBytes l)) = 0 ↔ l.length = 0 := by
  constructor
  · intro hz
    by_contra hne
    exact nsym_ne_zero h (List.ne_nil_of_length_pos (Nat.pos_of_ne_zero hne)) hz
  · intro hlen
    have hzero : distinctCount (countBytes l) = 0 :=
      Nat.le_zero.1 ((distinctCount_countBytes_le_length l).trans_eq hlen)
    exact congrArg (BitVec.ofNat 9) hzero

/-! The obligation -/

/-- Settles O22: COUNT leaves `countedState`, and no counter wraps on an input inside ICAP. -/
theorem countCountsEverySymbol : Obligations.CountCountsEverySymbol := by
  refine ⟨rfl, fun s he hcap => ?_⟩
  have hlen := ibuf_length_lt_of_le_icap hcap
  refine ⟨_, _, execCount_eq he, freqAt_countBytes_toNat hlen, ?_, countTotal_countBytes hlen, ?_, nsym_eq_zero_iff hlen⟩
  · rw [nsym_toNat, distinctCount_countBytes hlen]
  · rw [nsym_toNat]
    exact le_min (distinctCount_countBytes_le_length _) (distinctCount_le _)

end Sys2Proof.Machine
end

section
/-! PROOFS. The tree builder (41_tree_builder.md): what BUILD makes of the empty map and of a map with a key, and that
the map determines the tree. -/

namespace Sys2Proof.Machine

/-! The Frequency Map and NSYM -/

/-- NSYM as COUNT computes it is 0 exactly when every counter is 0 (R122). -/
theorem nsym_eq_zero_iff_counters (freq : SymMap Word) :
    BitVec.ofNat 9 (distinctCount freq) = 0 ↔ ∀ b, freqAt freq b = 0 := by
  have hzero : BitVec.ofNat 9 (distinctCount freq) = 0 ↔ distinctCount freq = 0 := by
    rw [← BitVec.toNat_inj, nsym_toNat]
    rfl
  rw [hzero, ← not_iff_not, not_forall]
  exact Nat.pos_iff_ne_zero.symm.trans distinctCount_pos

section inv

variable {s : State} (h : Inv s)
include h

/-- A block in any phase but the faulted one holds no error (R277 (a)). -/
theorem Inv.err_eq_none (hp : s.phase ≠ .faulted) : s.err = .none := by
  by_contra he
  exact hp (h.faulted.2 he)

variable (hp : s.phase ∈ [.counted, .built, .assigned, .encoded, .packed, .serialized])
include hp

theorem Inv.nsym_toNat_eq : s.nsym.toNat = distinctCount s.freq := (h.counts hp).2

/-- Where NSYM is not 0 some counter is not 0. -/
theorem Inv.exists_key (hn : s.nsym ≠ 0) : ∃ b, freqAt s.freq b ≠ 0 := by
  rw [← distinctCount_pos, ← h.nsym_toNat_eq hp, Nat.pos_iff_ne_zero]
  exact fun hz => hn (BitVec.eq_of_toNat_eq hz)

/-- The counters sum to ILEN. -/
theorem Inv.countTotal_eq : countTotal s.freq = s.ibuf.length := by
  simp only [countTotal, (h.counts hp).1]
  exact sum_count_symbols s.ibuf

/-- The counters sum to a number of 32 bits, so that no sum of weights wraps (R127). -/
theorem Inv.countTotal_lt : countTotal s.freq < 2 ^ 32 :=
  (h.countTotal_eq hp).trans_lt (ibuf_length_lt_of_le_icap h.capacities.1)

end inv

/-! The greedy tree of a map is what BUILD answers -/

section tree

variable {freq : SymMap Word} {n root : Nat} {nodes : List Node}

/-- A tree of at most 256 leaves has at most 511 nodes. -/
theorem TreeOk.root_lt (h : TreeOk freq n nodes root) : root < 511 := by
  have hle := h.le
  have hpos := h.positive
  have hsize := h.size
  have hlast := h.rootLast
  omega

/-- The root's index fits its register. -/
theorem TreeOk.toNat_ofNat_root (h : TreeOk freq n nodes root) : (BitVec.ofNat 9 root).toNat = root := by
  rw [BitVec.toNat_ofNat]
  exact Nat.mod_eq_of_lt (h.root_lt.trans (by decide))

/-- R125: the algorithm answers a greedy tree (`buildTree_spec`), and there is only one (`TreeOk.unique`). -/
theorem TreeOk.buildTree_eq (h : TreeOk freq n nodes root) : buildTree freq = some (nodes, root) := by
  have hpos : 0 < distinctCount freq := h.count ▸ h.positive
  obtain ⟨nodes', root', hbuild, -, htree, -⟩ := buildTree_spec (distinctCount_pos.1 hpos)
  obtain ⟨rfl, rfl⟩ := htree.unique h
  exact hbuild

/-- BUILD of a map whose greedy tree this is. -/
theorem TreeOk.exec_build_eq {s : State} (h : TreeOk s.freq n nodes root) (he : s.err = .none)
    (hp : s.phase = .counted) (hn : s.nsym ≠ 0) :
    exec .build s = .next { s with nodes := nodes, root := BitVec.ofNat 9 root, phase := .built } := by
  rw [exec, execBuild_eq he hp, if_neg hn, h.buildTree_eq]

end tree

/-! The obligations -/

/-- Settles O23: the first check of BUILD in its phase, and NSYM as COUNT leaves it. -/
theorem buildRejectsTheEmptyMap : Obligations.BuildRejectsTheEmptyMap := by
  refine ⟨fun s he hp hn => ?_, fun s t he hcap hexec => ?_⟩
  · exact (execBuild_eq he hp).trans (if_pos hn)
  · obtain rfl : countedState s = t := Host.Outcome.next.inj ((execCount_eq he).symm.trans hexec)
    exact ⟨nsym_eq_zero_iff_counters (countBytes s.ibuf), nsym_eq_zero_iff (ibuf_length_lt_of_le_icap hcap)⟩

/-- Settles O24: the greedy tree exists (`buildTree_spec`), BUILD answers it, and no sum of its weights wraps. -/
theorem buildMakesTheGreedyTree : Obligations.BuildMakesTheGreedyTree := by
  intro s hinv hp hn
  have hcounts : s.phase ∈ [.counted, .built, .assigned, .encoded, .packed, .serialized] := by simp [hp]
  obtain ⟨nodes, root, -, -, htree, -⟩ := buildTree_spec (hinv.exists_key hcounts hn)
  rw [← hinv.nsym_toNat_eq hcounts] at htree
  have hsum := hinv.countTotal_lt hcounts
  refine ⟨nodes, BitVec.ofNat 9 root, htree.exec_build_eq (hinv.err_eq_none (by simp [hp])) hp hn, ?_⟩
  rw [htree.toNat_ofNat_root]
  refine ⟨htree, htree.size, ?_, fun k left right w hnode => ?_⟩
  · rw [htree.root_weight hsum, hinv.countTotal_eq hcounts]
  · obtain ⟨-, hleft, hright, -⟩ := htree.internal hnode
    exact ⟨hleft, hright, htree.weight_eq hsum hnode⟩

/-- Settles O25: any greedy tree of the counters is the one BUILD answers (`TreeOk.buildTree_eq`). -/
theorem greedyTreeIsUnique : Obligations.GreedyTreeIsUnique := by
  intro s hinv hp hn nodes root htree
  exact ⟨BitVec.ofNat 9 root, htree.toNat_ofNat_root, htree.exec_build_eq (hinv.err_eq_none (by simp [hp])) hp hn⟩

end Sys2Proof.Machine
end

section
/-! PROOFS. The code assigner (42_code_assigner.md): the table ASSIGN makes of a lone leaf and of a tree BUILD made, and
that no path from the root of such a tree is too long. -/

namespace Sys2Proof.Machine

/-! ASSIGN in its phase -/

/-- R138: a root that is a leaf adds one code to the table. -/
theorem assignCodes_of_leaf {nodes : List Node} {root : Nat} {b : Byte} {w : Word} (code : SymMap BitString)
    (hroot : nodes[root]? = some (.leaf b w)) : assignCodes nodes root code = .ok (setCode code b [false]) := by
  rw [assignCodes, hroot]

/-- ASSIGN answers the table of its traversal, and only the table and PHASE change. -/
theorem exec_assign_of_ok {s : State} {code : SymMap BitString} (he : s.err = .none) (hp : s.phase = .built)
    (hcode : assignCodes s.nodes s.root.toNat s.code = .ok code) :
    exec .assign s = .next { s with code := code, phase := .assigned } := by
  rw [exec, execAssign_eq he hp, hcode]

/-- Before ASSIGN the table is empty (R277 (n)); its canonical form is then the empty list. -/
theorem Inv.code_eq_nil {s : State} (h : Inv s) (hp : s.phase ∈ [.counted, .built]) : s.code = [] := by
  obtain ⟨-, hcanonical⟩ := memory_wf_iff.1 h.canonical
  obtain ⟨-, -, -, -, hempty⟩ := h.notYet
  exact SymMap.ext_of_get hcanonical rfl (hempty hp)

/-- ASSIGN on a tree BUILD made: it completes with the table of `assignCodes_spec`. -/
theorem Inv.exec_assign {s : State} (h : Inv s) (hp : s.phase = .built) :
    ∃ code, exec .assign s = .next { s with code := code, phase := .assigned } ∧ TableOk code s.nsym.toNat ∧
      (∀ b c, (codeAt code b = c ∧ c ≠ []) ↔ IsTreeCode s.nodes s.root.toNat b c) ∧
      ∀ b, codeAt code b ≠ [] ↔ freqAt s.freq b ≠ 0 := by
  obtain ⟨htree, -⟩ := h.tree (by simp [hp])
  obtain ⟨code, hassign, htable⟩ := assignCodes_spec htree
  rw [← h.code_eq_nil (by simp [hp])] at hassign
  exact ⟨code, exec_assign_of_ok (h.err_eq_none (by simp [hp])) hp hassign, htable⟩

/-! Which commands raise CodeTooLong -/

theorem IsParseError.code_ne_codeTooLong {e : ErrorRecord} (h : IsParseError e) : e.code ≠ .codeTooLong := by
  rcases h with rfl | ⟨sub, pos, -, -, -, rfl⟩
  · simp [bufferOverflow_code]
  · simp [parseError, corruptContainer_code]

/-- Of the commands, only ASSIGN in its phase and COMPRESS, which runs it, have CodeTooLong among their errors
(R140). -/
theorem exec_raises_codeTooLong {i : Instr} {s t : State} (he : s.err = .none) (h : exec i s = .next t)
    (ht : t.err = .codeTooLong) : (i = .assign ∧ s.phase = .built) ∨ i = .compress := by
  have hsucceeds : s.err ≠ .codeTooLong := by simp [he]
  rcases exec_next he h with ⟨p, -, -, rfl⟩ | ⟨hphase, ⟨hmay, -⟩ | ⟨hnone, -⟩⟩
  · cases ht
  · cases i with
    | assign => exact .inl ⟨rfl, hphase _ rfl⟩
    | compress => exact .inr rfl
    | build =>
      rcases execBuild_next he (hphase _ rfl) h with ⟨-, rfl⟩ | ⟨-, _, _, -, rfl⟩
      · cases ht
      · exact absurd ht hsucceeds
    | encode =>
      rw [exec, execEncode_eq he (hphase _ rfl)] at h
      split at h <;> cases h
      · cases ht
      · exact absurd ht hsucceeds
    | serialize =>
      rw [exec, execSerialize_eq he (hphase _ rfl)] at h
      split at h <;> cases h
      · cases ht
      · exact absurd ht hsucceeds
    | push b =>
      rw [exec, execPush_eq he] at h
      split at h <;> cases h
      · cases ht
      · exact absurd ht hsucceeds
    | parse =>
      rw [exec, execParse_eq he] at h
      split at h <;> cases h
      · exact absurd ht hsucceeds
      · next e hparse => exact absurd ht (parseContainer_error hparse).code_ne_codeTooLong
    | decode =>
      rw [exec, execDecode_eq he (hphase _ rfl)] at h
      split at h <;> cases h
      · exact absurd ht hsucceeds
      · next e hscan => rcases decodeScan_error _ hscan with rfl | ⟨_, rfl⟩ <;> cases ht
    | decompress =>
      rcases execDecompress_next he h with ⟨e, rfl, hparse | rfl | ⟨_, rfl⟩⟩ | ⟨_, _, -, -, rfl⟩
      · exact absurd ht hparse.code_ne_codeTooLong
      · cases ht
      · cases ht
      · exact absurd ht hsucceeds
    | nop | count | pack | unpack | iclr | sreset => cases hmay
  · rw [hnone] at ht
    cases ht

/-! No tree BUILD makes has a path of more than 255 bits (R141) -/

/-- COMPRESS answers the error of the empty input, an overflow, or no new error. -/
theorem exec_compress_err_ne_codeTooLong {s t : State} (he : s.err = .none) (hlen : s.ibuf.length < 2 ^ 32)
    (h : exec .compress s = .next t) : t.err ≠ .codeTooLong := by
  rw [exec] at h
  by_cases hempty : s.ibuf = []
  · rw [execCompress_eq he, if_pos ((nsym_eq_zero_iff hlen).2 (by simp [hempty]))] at h
    cases h
    simp [emptyMapError]
  · obtain ⟨nodes, root, code, -, -, -, -, -, hcompress⟩ := execCompress_spec he hempty hlen
    rw [hcompress] at h
    split at h
    · cases h; simp [bufferOverflow_code]
    split at h
    · cases h; simp [bufferOverflow_code]
    cases h
    simp [compressedState, he]

/-- The invariants do not speak of the host port. -/
theorem Inv.of_port {s : State} (h : Inv s) (port : List HostInput) (rdata : Option Word) :
    Inv { s with port := port, rdata := rdata } := { h with }

/-- The two commands that could raise CodeTooLong run on a tree BUILD made. -/
theorem Inv.exec_err_ne_codeTooLong {i : Instr} {s t : State} (hinv : Inv s) (hs : s.err ≠ .codeTooLong)
    (h : exec i s = .next t) : t.err ≠ .codeTooLong := by
  rcases exec_outcome h with ⟨-, -, rfl⟩ | ⟨he, -⟩ | hcompletes
  · exact hs
  · intro ht
    rcases exec_raises_codeTooLong he h ht with ⟨rfl, hp⟩ | rfl
    · obtain ⟨code, hassign, -⟩ := hinv.exec_assign hp
      rw [hassign] at h
      cases h
      exact hs ht
    · exact exec_compress_err_ne_codeTooLong he (ibuf_length_lt_of_le_icap hinv.capacities.1) h ht
  · cases hcompletes with
    | sreset => simp
    | _ => exact hs

/-! The obligations -/

/-- Settles O26: the tree of R277 (f) and the empty table of R277 (n) are what `assignCodes_spec` needs. -/
theorem assignGivesEachLeafItsPath : Obligations.AssignGivesEachLeafItsPath :=
  fun _ hinv hp => hinv.exec_assign hp

/-- Settles O17, by everything a step can answer: what is not a command raises IllegalCommand or nothing, and from the
invariants no command raises CodeTooLong. -/
theorem codeTooLongIsNeverRaised : Obligations.CodeTooLongIsNeverRaised := by
  intro s t hinv h hs
  rcases step_next h with ⟨-, rfl⟩ | ⟨rest, -, rfl⟩ | ⟨rest, r, rfl⟩ | ⟨rest, w, -, -, rfl⟩ | ⟨rest, i, hexec⟩
  · exact hs
  · simp
  · exact hs
  · simp [illegalCommand]
  · exact (hinv.of_port rest none).exec_err_ne_codeTooLong hs hexec

/-- Settles O27: a table in canonical form reads the code written for its symbol and keeps the others. -/
theorem loneLeafGetsCodeZero : Obligations.LoneLeafGetsCodeZero := by
  intro s b w he hp hwf hroot
  have hcode : codeAt (setCode s.code b [false]) b = [false] := by simp [codeAt_setCode hwf]
  refine ⟨_, exec_assign_of_ok he hp (assignCodes_of_leaf s.code hroot), hcode, ?_, ?_, fun a hab => ?_⟩
  · rw [clenAt, hcode]
    rfl
  · rw [hcode]
    decide
  · rw [codeAt_setCode hwf, if_neg (Ne.symm hab)]

end Sys2Proof.Machine
end

section
/-! PROOFS. The bit packer (43_bit_packer.md): the bytes PACK makes, bit by bit, and how many padding bits complete the
last one. -/

namespace Sys2Proof.Machine

/-- `|bytes| = (n + pad)/8` without the division: the padding bits complete the last byte (R150). -/
theorem eight_mul_ceil8_eq_add_padCount (n : Nat) : 8 * ceil8 n = n + (padCount n).toNat := by
  rw [padCount_toNat, ceil8]
  omega

/-- R150, the most significant bit first: bit `7 - k` of packed byte j is bit `8j + k` of the bit-string, or 0 past its
end. -/
theorem packBytes_getElem?_bit {b : BitString} {j k : Nat} {byte : Byte} (hbyte : (packBytes b)[j]? = some byte)
    (hk : k < 8) : byte.getLsbD (7 - k) = b[8 * j + k]?.getD false := by
  obtain ⟨-, rfl⟩ : j < ceil8 b.length ∧ packByte b j = byte := by simpa [packBytes_getElem?] using hbyte
  exact packByte_bit b j k hk

/-! The obligation -/

/-- Settles O30: PACK outside and in its phase (`exec_badPhase`, `execPack_eq`), and what `packBytes` and `padCount`
answer. -/
theorem packPacksMsbFirst : Obligations.PackPacksMsbFirst := by
  refine ⟨by decide, fun s he => ⟨fun hp => exec_badPhase (i := .pack) rfl he hp, fun hp => ?_⟩⟩
  refine ⟨packBytes s.bits, padCount s.bits.length, execPack_eq he hp, packBytes_length _, padCount_toNat _, ?_,
    fun _ _ _ hbyte hk => packBytes_getElem?_bit hbyte hk⟩
  rw [packBytes_length]
  exact eight_mul_ceil8_eq_add_padCount _

end Sys2Proof.Machine
end

section
/-! PROOFS. The bit unpacker (44_bit_unpacker.md): the bits UNPACK makes, and Unpack and Pack as inverses of each other
up to padding bits. -/

namespace Sys2Proof.Machine

/-! One bit of packed and of unpacked data -/

/-- Past the last byte every bit reads 0. -/
theorem unpackBit_of_length_le {bytes : List Byte} {k : Nat} (h : 8 * bytes.length ≤ k) :
    unpackBit bytes k = false := by
  have hbyte : bytes[k / 8]? = none := List.getElem?_eq_none (by omega)
  simp [unpackBit, hbyte]

/-- Past the end of a bit-string every bit is 0 (20_memory.md R66). -/
theorem bitAt_of_length_le {b : BitString} {k : Nat} (h : b.length ≤ k) : bitAt b k = false := by
  rw [bitAt, List.getElem?_eq_none h, Option.getD_none]

/-- Packing keeps the bit at every position, in the padding and past the last byte too. -/
theorem unpackBit_packBytes_eq_bitAt (b : BitString) (k : Nat) : unpackBit (packBytes b) k = bitAt b k := by
  by_cases hk : k < 8 * ceil8 b.length
  · exact unpackBit_packBytes b k hk
  · have hlen := ceil8_le b.length
    rw [unpackBit_of_length_le (by rw [packBytes_length]; omega), bitAt_of_length_le (by omega)]

/-- Unpack keeps the bits before the trimmed ones. -/
theorem bitAt_unpackBits (bytes : List Byte) (p : BitVec 3) (k : Nat) :
    bitAt (unpackBits bytes p) k = if k < 8 * bytes.length - p.toNat then unpackBit bytes k else false := by
  rw [bitAt, unpackBits_getElem?]
  split <;> rfl

/-- R160, the most significant bit first: bit k of Unpack is bit `7 - k mod 8` of byte `k div 8`. -/
theorem unpackBits_getElem?_of_byte {bytes : List Byte} {p : BitVec 3} {k : Nat} {byte : Byte}
    (hk : k < (unpackBits bytes p).length) (hbyte : bytes[k / 8]? = some byte) :
    (unpackBits bytes p)[k]? = some (byte.getLsbD (7 - k % 8)) := by
  rw [unpackBits_length] at hk
  rw [unpackBits_getElem?, if_pos hk, unpackBit, hbyte, Option.getD_some]

/-! The sizes of what Unpack trimmed: fewer than 8 bits go, so the byte count and the padding count come back -/

theorem ceil8_sub_pad {m : Nat} {p : BitVec 3} (h : p.toNat ≤ 8 * m) : ceil8 (8 * m - p.toNat) = m := by
  have hp := p.isLt
  rw [ceil8]
  omega

theorem padCount_sub_pad {m : Nat} {p : BitVec 3} (h : p.toNat ≤ 8 * m) : padCount (8 * m - p.toNat) = p := by
  have hp := p.isLt
  apply BitVec.eq_of_toNat_eq
  rw [padCount_toNat]
  omega

/-! The obligations -/

/-- Settles O42: `unpackBits_packBytes` one way; the other way the two sizes, then bit by bit, since packing keeps the
bit at every position. -/
theorem unpackUndoesPack : Obligations.UnpackUndoesPack := by
  refine ⟨unpackBits_packBytes, fun bytes p hp => ⟨?_, ?_, fun k => ?_⟩⟩
  · rw [packBits, unpackBits_length, padCount_sub_pad hp]
  · rw [packBits, packBytes_length, unpackBits_length, ceil8_sub_pad hp]
  · rw [packBits, unpackBit_packBytes_eq_bitAt, bitAt_unpackBits]

/-- Settles O41: UNPACK outside and in its phase (`exec_badPhase`, `execUnpack_eq`); a payload of at least one byte has
more bits than the at most 7 trimmed. -/
theorem unpackExpandsAndTrims : Obligations.UnpackExpandsAndTrims := by
  refine ⟨by decide, fun s he => ⟨fun hp => exec_badPhase (i := .unpack) rfl he hp, fun hp hlen => ?_⟩⟩
  have hpad : s.pad.toNat < 8 := s.pad.isLt
  have hexec : exec .unpack s = .next { s with bits := unpackBits s.pbuf s.pad, phase := .unpacked } := by
    rw [exec, execUnpack_eq he hp, if_pos (by omega)]
  refine ⟨unpackBits s.pbuf s.pad, hexec, unpackBits_length _ _, ?_,
    fun _ _ hk hbyte => unpackBits_getElem?_of_byte hk hbyte⟩
  rw [unpackBits_length]
  omega

end Sys2Proof.Machine
end

section
/-! PROOFS. The container serializer (45_container_serializer.md): the bytes SERIALIZE writes and their number, and that
they meet every constraint of the container format. -/

namespace Sys2Proof.Machine

/-! The layout of the container -/

/-- The count, a number below 65536, in four little-endian bytes (30_encoding.md R91). -/
theorem memWrite_four_of_lt {n : Nat} (h : n < 65536) :
    memWrite 4 n = [BitVec.ofNat 8 n, BitVec.ofNat 8 (n / 256), 0, 0] := by
  have hthird : n / 256 / 256 = 0 := by omega
  simp [memWrite, hthird]

/-- The size computed before any byte is written (R173) is the offset behind the last entry, one byte for the padding
count, and the payload. -/
theorem containerSize_eq_codesEnd (code : SymMap BitString) (plen : Nat) :
    containerSize code plen = codesEnd code (codedSymbols code) + 1 + plen := rfl

/-- An entry byte by byte: the symbol, the length of its code, and the packed code (R92, R93). -/
theorem entryBytes_codeAt (code : SymMap BitString) (b : Byte) :
    entryBytes b (codeAt code b) =
      [b, BitVec.ofNat 8 (clenAt code b)] ++ (List.range (ceil8 (clenAt code b))).map (packByte (codeAt code b)) := rfl

/-! SERIALIZE in its phase -/

section serialize

variable {s : State} (he : s.err = .none) (hp : s.phase = .packed)
include he hp

/-- A container larger than OCAP ends in Fail() with BufferOverflow (R173). -/
theorem exec_serialize_of_overflow (h : s.cfg.ocap.toNat < containerSize s.code s.pbuf.length) :
    exec .serialize s = .next (fail (bufferOverflow 0x06) s) := by
  rw [exec, execSerialize_eq he hp, if_pos h]

/-- A container that fits is written to OBUF, and nothing else but PHASE changes (R171). -/
theorem exec_serialize_of_fits (h : containerSize s.code s.pbuf.length ≤ s.cfg.ocap.toNat) :
    exec .serialize s =
      .next { s with obuf := containerBytes s.nsym.toNat s.code s.pad s.pbuf, phase := .serialized } := by
  rw [exec, execSerialize_eq he hp, if_neg h.not_gt]

end serialize

/-! The entries of a table SERIALIZE writes -/

theorem tableEntries_pairwise_sym (code : SymMap BitString) :
    (tableEntries code).Pairwise fun e f => e.sym.toNat < f.sym.toNat := by
  rw [tableEntries, List.pairwise_map]
  exact symbols_pairwise.filter _

/-- The unused low bits of an entry's last code byte are 0: its bytes are its code packed (R93). -/
theorem tableEntries_bytes_eq {code : SymMap BitString} {n : Nat} (h : TableOk code n) :
    ∀ e ∈ tableEntries code, e.bytes = packBytes e.code := by
  intro e he
  obtain ⟨b, -, rfl⟩ := List.mem_map.1 he
  rw [tableEntry_code h]

/-! The payload PACK made -/

/-- The padding bits of packed bytes are 0 (43_bit_packer.md R150). -/
theorem unpackBit_packBytes_padding {b : BitString} {k : Nat}
    (hk : 8 * (packBytes b).length - (padCount b.length).toNat ≤ k) : unpackBit (packBytes b) k = false := by
  rw [packBytes_length, eight_mul_ceil8] at hk
  rw [unpackBit_packBytes_eq_bitAt, bitAt_of_length_le hk]

section inv

variable {s : State} (h : Inv s) (hp : s.phase ∈ [.packed, .serialized])
include h hp

/-- The payload is at least one byte: the input behind it has at least one code (R277 (h), (i)). -/
theorem Inv.one_le_pbuf_length : 1 ≤ s.pbuf.length := by
  have hmem : s.phase ∈ [.encoded, .packed, .serialized] := List.mem_cons_of_mem _ hp
  have hbits := (h.encoded hmem).2
  have hpbuf : s.pbuf = packBytes s.bits := congrArg Prod.fst (h.packed hp)
  have hceil := ceil8_le s.bits.length
  rw [hpbuf, packBytes_length]
  omega

/-- The last PAD bits of the payload are 0. -/
theorem Inv.unpackBit_pbuf_padding {k : Nat} (hk : 8 * s.pbuf.length - s.pad.toNat ≤ k) :
    unpackBit s.pbuf k = false := by
  obtain ⟨hpbuf, hpad⟩ : s.pbuf = packBytes s.bits ∧ s.pad = padCount s.bits.length := Prod.mk.inj (h.packed hp)
  rw [hpbuf, hpad] at hk
  rw [hpbuf]
  exact unpackBit_packBytes_padding hk

end inv

/-! The obligations -/

/-- Settles O31: SERIALIZE outside its phase (`exec_badPhase`), and in it by whether the container fits; the bytes are
those of `containerBytes` with NSYM and the entries written out. -/
theorem serializeWritesTheContainer : Obligations.SerializeWritesTheContainer := by
  refine ⟨by decide, fun s he => ⟨fun hp => exec_badPhase (i := .serialize) rfl he hp,
    fun hp hsize => exec_serialize_of_overflow he hp hsize, fun hp hsize => ?_⟩⟩
  refine ⟨containerBytes s.nsym.toNat s.code s.pad s.pbuf, exec_serialize_of_fits he hp hsize, ?_, ?_⟩
  · rw [containerSize_eq, containerSize_eq_codesEnd]
  · have hnsym := s.nsym.isLt
    rw [containerBytes, memWrite_four_of_lt (by omega)]
    simp only [entryBytes_codeAt, codedSymbols]

/-- Settles O32: the entries are those of the code table (`containerBytes_eq`). R277 (f) and (g) make the table
well-formed and not empty, (h) and (i) make the payload the packed bits of at least one code, and (j) is OBUF. -/
theorem serializedContainersAreValid : Obligations.SerializedContainersAreValid := by
  intro s h hp
  have htable : TableOk s.code s.nsym.toNat := h.table (by simp [hp])
  have hpos : 1 ≤ s.nsym.toNat := (h.tree (by simp [hp])).1.positive
  have hpacked : s.phase ∈ [.packed, .serialized] := by simp [hp]
  have hlen := tableEntries_length htable
  refine ⟨tableEntries s.code, ?_, hlen, hlen ▸ hpos, hlen ▸ htable.le, tableEntries_ok htable,
    tableEntries_pairwise_sym s.code, tableEntries_bytes_eq htable, h.one_le_pbuf_length hpacked,
    fun k hk _ => h.unpackBit_pbuf_padding hpacked hk⟩
  rw [hlen, h.serialized hp, containerBytes_eq]

end Sys2Proof.Machine
end

section
/-! PROOFS. The container deserializer (46_container_deserializer.md): what PARSE answers on a valid container, on one
broken at any place, on one SERIALIZE made and on its cuts, and when the payload can overflow PBUF. -/

namespace Sys2Proof.Machine

/-! PARSE by what it reads in IBUF -/

section parse

variable {s : State} (he : s.err = .none)
include he

theorem exec_parse_of_ok {r : Parsed} (h : parseContainer s.cfg.pcap s.ibuf = .ok r) :
    exec .parse s = .next { clearProducts s with nsym := BitVec.ofNat 9 r.count, code := r.code, pad := r.pad,
                                                 pbuf := r.payload, phase := .parsed } := by
  rw [exec, execParse_eq he, h]

theorem exec_parse_of_error {e : ErrorRecord} (h : parseContainer s.cfg.pcap s.ibuf = .error e) :
    exec .parse s = .next (fail e s) := by
  rw [exec, execParse_eq he, h]

/-- An error PARSE leaves is the one its reading of IBUF raised. -/
theorem parseContainer_error_of_exec {t : State} (h : exec .parse s = .next t) (ht : t.err ≠ .none) :
    ∃ e, parseContainer s.cfg.pcap s.ibuf = .error e ∧ t.err = e.code := by
  cases hread : parseContainer s.cfg.pcap s.ibuf with
  | ok r =>
    rw [exec_parse_of_ok he hread] at h
    cases h
    exact absurd he ht
  | error e =>
    rw [exec_parse_of_error he hread] at h
    cases h
    exact ⟨e, rfl, rfl⟩

/-- An input too short for the count (R183). -/
theorem exec_parse_of_short (h : s.ibuf.length < 4) :
    exec .parse s = .next (fail ⟨.corruptContainer, 0x08, 1, 0⟩ s) := by
  refine exec_parse_of_error he ?_
  rw [parseContainer, if_pos h]
  rfl

end parse

/-! Sizes and offsets in a container -/

/-- The offset behind good entries, counted from their lengths, is where their bytes end. -/
theorem entriesEnd_eq {entries : List RawEntry} (h : ∀ e ∈ entries, EntryShape e) :
    entriesEnd entries = 4 + entriesSize entries := by
  rw [entriesEnd]
  congr 1
  induction entries with
  | nil => rfl
  | cons e es ih =>
    rw [entriesSize_cons e es (h e List.mem_cons_self), List.map_cons, List.sum_cons,
      ih fun f hf => h f (List.mem_cons_of_mem e hf)]

/-- A last entry may as well be counted to the bytes behind the others. -/
theorem rawContainer_concat (count : Nat) (entries : List RawEntry) (e : RawEntry) (rest : List Byte) :
    rawContainer count (entries ++ [e]) rest = rawContainer count entries (e.layout ++ rest) := by
  simp [rawContainer]

/-- A cut behind good entries cuts the bytes that follow them. -/
theorem take_rawContainer {entries : List RawEntry} (h : ∀ e ∈ entries, EntryShape e) {k : Nat}
    (hk : entriesEnd entries ≤ k) (count : Nat) (rest : List Byte) :
    (rawContainer count entries rest).take k = rawContainer count entries (rest.take (k - entriesEnd entries)) := by
  have hlen : (memWrite 4 count ++ entries.flatMap RawEntry.layout).length = entriesEnd entries := by
    rw [List.length_append, memWrite_length, entriesEnd_eq h, entriesSize]
  rw [rawContainer, List.take_append, hlen, List.take_of_length_le (by omega)]
  rfl

/-! One entry of a container: R187 to R189 -/

section entry

variable (pcap count n p : Nat) (code : SymMap BitString)

theorem parseEntries_of_short {rest : List Byte} (h : rest.length < 2) :
    parseEntries pcap count (n + 1) p code rest = .error (parseError 3 p) := by
  match rest, h with
  | [], _ => rfl
  | [_], _ => rfl

theorem parseEntries_of_zero_len (b : Byte) (more : List Byte) :
    parseEntries pcap count (n + 1) p code (b :: 0 :: more) = .error (parseError 4 p) := by
  rw [parseEntries, if_pos rfl]

theorem parseEntries_of_missing_code {len : Byte} (hlen : len ≠ 0) (b : Byte) {more : List Byte}
    (h : more.length < ceil8 len.toNat) :
    parseEntries pcap count (n + 1) p code (b :: len :: more) = .error (parseError 5 p) := by
  rw [parseEntries, if_neg hlen, if_pos h]

/-- On an entry of the right shape it is the two clash checks that decide. -/
theorem parseEntries_of_shape {e : RawEntry} (h : EntryShape e) (rest : List Byte) :
    parseEntries pcap count (n + 1) p code (e.layout ++ rest) =
      if clenAt code e.sym ≠ 0 then .error (parseError 6 p)
      else if conflicts code e.code then .error (parseError 7 p)
      else parseEntries pcap count n (p + 2 + ceil8 e.len.toNat) (setCode code e.sym e.code) rest := by
  obtain ⟨hlen, hbytes⟩ := h
  have hcode : codeOf (e.bytes ++ rest) e.len.toNat = e.code := codeOf_append _ _ _ hbytes
  have hdrop : (e.bytes ++ rest).drop (ceil8 e.len.toNat) = rest := List.drop_left' hbytes
  have hroom : ¬ (e.bytes ++ rest).length < ceil8 e.len.toNat := by rw [List.length_append, hbytes]; omega
  rw [RawEntry.layout, List.cons_append, List.cons_append, parseEntries, if_neg hlen, if_neg hroom]
  simp only [hcode, hdrop]

end entry

/-! The table filled by good entries -/

section table

variable {entries : List RawEntry} (h : EntriesOk entries)
include h

/-- A symbol has a code in the table exactly when an entry has named it. -/
theorem clenAt_addEntries_ne_zero_iff (b : Byte) :
    clenAt (addEntries [] entries) b ≠ 0 ↔ ∃ f ∈ entries, f.sym = b := by
  rw [clenAt, codeAt_addEntries_nil h, Ne, List.length_eq_zero_iff]
  constructor
  · intro hne
    obtain ⟨f, hf, hsym, -⟩ := entryCode_ne hne
    exact ⟨f, hf, hsym⟩
  · rintro ⟨f, hf, rfl⟩
    rw [entryCode_of_mem h hf]
    exact EntryShape.code_ne (h.1 f hf)

/-- The code of an entry met before clashes with every code it begins, equals or is begun by. -/
theorem conflicts_addEntries {c : BitString} {f : RawEntry} (hf : f ∈ entries) (hc : f.code <+: c ∨ c <+: f.code) :
    conflicts (addEntries [] entries) c = true := by
  have hcode : codeAt (addEntries [] entries) f.sym = f.code := by
    rw [codeAt_addEntries_nil h, entryCode_of_mem h hf]
  rw [conflicts_iff (addEntries_wf entries rfl)]
  exact ⟨f.sym, by rw [hcode]; exact EntryShape.code_ne (h.1 f hf), by rwa [hcode]⟩

end table

/-! PARSE behind any number of good entries -/

section run

variable {s : State} {count : Nat} {entries : List RawEntry} {rest : List Byte} {e : ErrorRecord}
  (he : s.err = .none) (h : EntriesOk entries)
include he h

/-- Where one more entry is due, PARSE ends as the reading of that entry does. -/
theorem exec_parse_of_entry_error (hlt : entries.length < count) (hc : count ≤ 256)
    (hi : s.ibuf = rawContainer count entries rest)
    (hentry : ∀ n, parseEntries s.cfg.pcap count (n + 1) (entriesEnd entries) (addEntries [] entries) rest = .error e) :
    exec .parse s = .next (fail e s) := by
  have hmore : count - entries.length = count - entries.length - 1 + 1 := by omega
  refine exec_parse_of_error he ?_
  rw [hi, parseContainer_run _ rest h (by omega) hc hlt.le, ← entriesEnd_eq h.1, hmore]
  exact hentry _

/-- Behind the last entry, PARSE ends as the reading of the tail does. -/
theorem exec_parse_of_tail_error (h1 : 1 ≤ entries.length) (h2 : entries.length ≤ 256)
    (hi : s.ibuf = rawContainer entries.length entries rest)
    (htail : parseTail s.cfg.pcap entries.length (entriesEnd entries) (addEntries [] entries) rest = .error e) :
    exec .parse s = .next (fail e s) := by
  refine exec_parse_of_error he ?_
  rw [hi, parseContainer_run _ rest h h1 h2 le_rfl, ← entriesEnd_eq h.1, Nat.sub_self, parseEntries]
  exact htail

end run

/-! How much of its input PARSE has read when it raises BufferOverflow -/

section overflow

variable {pcap count : Nat} {e : ErrorRecord} (hcode : e.code = .bufferOverflow)
include hcode

/-- A padding count and more than PCAP bytes (R191). -/
theorem parseTail_overflow_length {p : Nat} {code : SymMap BitString} {rest : List Byte}
    (h : parseTail pcap count p code rest = .error e) : pcap + 1 < rest.length := by
  rw [parseTail.eq_def] at h
  split at h
  · cases h; cases hcode
  split at h
  · cases h; cases hcode
  split at h
  · cases h; cases hcode
  split at h
  · rw [List.length_cons]; omega
  · cases h

/-- Besides the tail, at least three bytes for each entry still to come: a symbol, a length above 0 and a code byte. -/
theorem parseEntries_overflow_length (n : Nat) {p : Nat} {code : SymMap BitString} {rest : List Byte}
    (h : parseEntries pcap count n p code rest = .error e) : pcap + 1 + 3 * n < rest.length := by
  induction n generalizing p code rest with
  | zero => exact parseTail_overflow_length hcode h
  | succ n ih =>
    rcases rest with _ | ⟨b, _ | ⟨len, more⟩⟩
    · cases h; cases hcode
    · cases h; cases hcode
    simp only [parseEntries] at h
    split at h
    · cases h; cases hcode
    split at h
    · cases h; cases hcode
    split at h
    · cases h; cases hcode
    split at h
    · cases h; cases hcode
    rename_i hlen hroom _ _
    have hbehind := ih h
    have hpos : len.toNat ≠ 0 := fun hz => hlen (BitVec.eq_of_toNat_eq hz)
    have hceil := ceil8_le len.toNat
    rw [List.length_drop] at hbehind
    rw [List.length_cons, List.length_cons]
    omega

/-- A container that overflows PBUF has at least 4 bytes of count, 3 of an entry, a padding count, and its payload. -/
theorem parseContainer_overflow_length {bytes : List Byte} (h : parseContainer pcap bytes = .error e) :
    pcap + 8 < bytes.length := by
  rw [parseContainer] at h
  split at h
  · cases h; cases hcode
  simp only at h
  split at h
  · cases h; cases hcode
  have hlen := parseEntries_overflow_length hcode _ h
  rw [List.length_drop] at hlen
  omega

end overflow

/-- With BCAP = 8 and ICAP = 10: one entry with a one-byte code and two payload bytes, one more than PCAP. -/
def overflowState : State :=
  { State.resetWith { icap := 10, ocap := 8, bcap := 8 } with ibuf := [1, 0, 0, 0, 0x41, 1, 0, 0, 0, 0] }

theorem overflowState_inv : Inv overflowState where
  config := by decide
  canonical := rfl
  faulted := by decide
  noRecord := fun _ => ⟨rfl, rfl, rfl⟩
  capacities := by decide
  cleared := fun _ => resetWith_cleared overflowState.cfg
  counts := fun h => absurd h (by decide)
  tree := fun h => absurd h (by decide)
  table := fun h => absurd h (by decide)
  tableTotal := fun h => absurd h (by decide)
  encoded := fun h => absurd h (by decide)
  packed := fun h => absurd h (by decide)
  serialized := fun h => absurd h (by decide)
  parsed := fun h => absurd h (by decide)
  unpacked := fun h => absurd h (by decide)
  decoded := fun h => absurd h (by decide)
  notYet := by decide

/-! The entries of a container SERIALIZE made -/

/-- The entry SERIALIZE writes for a symbol. -/
def tableEntry (code : SymMap BitString) (b : Byte) : RawEntry :=
  { sym := b, len := BitVec.ofNat 8 (codeAt code b).length, bytes := packBytes (codeAt code b) }

theorem tableEntries_eq_map (code : SymMap BitString) :
    tableEntries code = (codedSymbols code).map (tableEntry code) := rfl

section table

variable {code : SymMap BitString} {n : Nat} (h : TableOk code n)
include h

theorem tableEntry_len_toNat (b : Byte) : (tableEntry code b).len.toNat = clenAt code b := by
  have hlen := h.lengths b
  rw [tableEntry, BitVec.toNat_ofNat, Nat.mod_eq_of_lt (by omega), clenAt]

/-- The offset behind entries of the table is the one computed from its code lengths (R194). -/
theorem entriesEnd_map_tableEntry (syms : List Byte) :
    entriesEnd (syms.map (tableEntry code)) = codesEnd code syms := by
  rw [entriesEnd, codesEnd, List.map_map]
  simp only [Function.comp_def, tableEntry_len_toNat h]

/-- The entries before any one of a table's are good by themselves. -/
theorem entriesOk_before {before after : List Byte} (hsplit : codedSymbols code = before ++ after) :
    EntriesOk (before.map (tableEntry code)) := by
  obtain ⟨hshape, hdistinct⟩ := tableEntries_ok h
  have hsub : before.map (tableEntry code) <+: tableEntries code := by
    rw [tableEntries_eq_map, hsplit, List.map_append]
    exact List.prefix_append _ _
  exact ⟨fun e he => hshape e (hsub.subset he), hdistinct.sublist hsub.sublist⟩

/-- A cut of SERIALIZE's container behind some of its entries. -/
theorem take_containerBytes {before after : List Byte} (hsplit : codedSymbols code = before ++ after) {k : Nat}
    (hk : codesEnd code before ≤ k) (pad : BitVec 3) (payload : List Byte) :
    (containerBytes n code pad payload).take k =
      rawContainer n (before.map (tableEntry code))
        (((after.map (tableEntry code)).flatMap RawEntry.layout ++ pad.setWidth 8 :: payload).take
          (k - codesEnd code before)) := by
  have hcut := take_rawContainer (entriesOk_before h hsplit).1 (k := k) (by rwa [entriesEnd_map_tableEntry h]) n
    ((after.map (tableEntry code)).flatMap RawEntry.layout ++ pad.setWidth 8 :: payload)
  rw [entriesEnd_map_tableEntry h] at hcut
  rw [← hcut, containerBytes_eq, tableEntries_eq_map, hsplit]
  simp [rawContainer]

end table

/-! The obligations but the one on cuts -/

/-- Settles O33: the reading of a valid container (`parseContainer_ok`) fills a well-formed table (`addEntries_tableOk`)
in which each symbol has its entry's code. -/
theorem parseReadsEveryValidContainer : Obligations.ParseReadsEveryValidContainer := by
  intro s entries pad payload he hok h1 h2 hpad hne hcap hi
  have hread := parseContainer_ok hok h1 h2 hpad hne hcap
  rw [← hi] at hread
  refine ⟨addEntries [] entries, BitVec.ofNat 9 entries.length, pad.setWidth 3, exec_parse_of_ok he hread, ?_, ?_,
    addEntries_tableOk hok, codeAt_addEntries_nil hok⟩
  · rw [BitVec.toNat_ofNat, Nat.mod_eq_of_lt (by omega)]
  · rw [BitVec.toNat_setWidth, Nat.mod_eq_of_lt (by omega)]

/-- Settles O43: SERIALIZE completed, so OBUF is `containerBytes` of the table R277 (g) calls well-formed, and
`parseContainer_containerBytes` reads it back. -/
theorem parseUndoesSerialize : Obligations.ParseUndoesSerialize := by
  intro s t u hinv hp h ht hu hcfg hi
  have he : s.err = .none := hinv.err_eq_none (by simp [hp])
  have htable : TableOk s.code s.nsym.toNat := hinv.table (by simp [hp])
  have hpos : 1 ≤ s.nsym.toNat := (hinv.tree (by simp [hp])).1.positive
  have hne : s.pbuf ≠ [] := List.length_pos_iff.1 (hinv.one_le_pbuf_length (by simp [hp]))
  have hcap : s.pbuf.length ≤ u.cfg.pcap := by rw [hcfg]; exact hinv.capacities.2.2.2.1
  have hobuf : t.obuf = containerBytes s.nsym.toNat s.code s.pad s.pbuf := by
    cases completes_of_exec he h ht
    rfl
  have hread := parseContainer_containerBytes htable hpos s.pad hne hcap
  rw [← hobuf, ← hi] at hread
  simpa using exec_parse_of_ok hu hread

/-- Settles O34: a completed PARSE has read IBUF (`completes_of_exec`), and only valid containers are read
(`parseContainer_inv`). -/
theorem parseReadsOnlyValidContainers : Obligations.ParseReadsOnlyValidContainers := by
  intro s t he h ht
  cases completes_of_exec he h ht with
  | parse hr =>
    obtain ⟨entries, pad, hok, h1, h2, hpad, hne, hcap, -, -, -, hbytes⟩ := parseContainer_inv hr
    exact ⟨entries, pad, _, hok, h1, h2, hpad, hne, hcap, hbytes⟩

/-- Settles O35: the input is too short for a count, or the count it holds is out of range. -/
theorem parseRejectsBadCounts : Obligations.ParseRejectsBadCounts := by
  refine ⟨fun s he hshort => exec_parse_of_short he hshort, fun s b0 b1 b2 b3 rest he hi hcount => ?_⟩
  have hread : memRead (s.ibuf.take 4) = b0.toNat + 256 * b1.toNat + 65536 * b2.toNat + 16777216 * b3.toNat := by
    simp [hi, memRead]
    omega
  refine exec_parse_of_error he ?_
  rw [parseContainer, if_neg (by simp [hi])]
  simp only [hread]
  rw [if_pos hcount]
  rfl

/-- Settles O36: the three shapes an entry can lack, behind any number of good entries. -/
theorem parseRejectsMalformedEntries : Obligations.ParseRejectsMalformedEntries := by
  intro s count entries rest he hok hlt hc hi
  refine ⟨fun hshort => ?_, ?_, ?_⟩
  · exact exec_parse_of_entry_error he hok hlt hc hi fun _ => parseEntries_of_short _ _ _ _ _ hshort
  · rintro b more rfl
    exact exec_parse_of_entry_error he hok hlt hc hi fun _ => parseEntries_of_zero_len _ _ _ _ _ b more
  · rintro b len more rfl hlen hbytes
    exact exec_parse_of_entry_error he hok hlt hc hi fun _ => parseEntries_of_missing_code _ _ _ _ _ hlen b hbytes

/-- Settles O37: on an entry of the right shape the symbol is looked up first, and then its code is compared with those
of the earlier entries (`parseEntries_of_shape`). -/
theorem parseRejectsClashingEntries : Obligations.ParseRejectsClashingEntries := by
  intro s count entries e rest he hok hlt hc hlen hbytes hi
  have hshape : EntryShape e := ⟨hlen, hbytes⟩
  rw [rawContainer_concat] at hi
  refine ⟨fun hsame => ?_, fun hnew hclash => ?_⟩
  · refine exec_parse_of_entry_error he hok hlt hc hi fun n => ?_
    rw [parseEntries_of_shape _ _ _ _ _ hshape, if_pos ((clenAt_addEntries_ne_zero_iff hok e.sym).2 hsame)]
    rfl
  · obtain ⟨f, hf, hpre⟩ := hclash
    have hfree : ¬ clenAt (addEntries [] entries) e.sym ≠ 0 := by
      rw [clenAt_addEntries_ne_zero_iff hok]
      exact fun ⟨g, hg, hsym⟩ => hnew g hg hsym
    refine exec_parse_of_entry_error he hok hlt hc hi fun n => ?_
    rw [parseEntries_of_shape _ _ _ _ _ hshape, if_neg hfree, if_pos (conflicts_addEntries hok hf hpre)]
    rfl

/-- Settles O38: behind the last entry the checks of `parseTail`, in their order. -/
theorem parseRejectsBadTails : Obligations.ParseRejectsBadTails := by
  intro s entries rest he hok h1 h2 hi
  refine ⟨?_, ?_, ?_, ?_⟩
  · rintro rfl
    exact exec_parse_of_tail_error he hok h1 h2 hi rfl
  · rintro pad payload rfl hpad
    refine exec_parse_of_tail_error he hok h1 h2 hi ?_
    rw [parseTail, if_pos hpad]
    rfl
  · rintro pad rfl hpad
    refine exec_parse_of_tail_error he hok h1 h2 hi ?_
    rw [parseTail, if_neg (by omega), List.length_nil, if_pos rfl]
    rfl
  · rintro pad payload rfl hpad hlong
    refine exec_parse_of_tail_error he hok h1 h2 hi ?_
    rw [parseTail, if_neg (by omega), if_neg (by omega), if_pos hlong]
    rfl

/-- Settles O39: BufferOverflow needs more than PCAP + 8 bytes (`parseContainer_overflow_length`). -/
theorem parseOverflowNeedsCapacityGap : Obligations.ParseOverflowNeedsCapacityGap := by
  intro s t he hi hgap h hover
  obtain ⟨e, hread, hcode⟩ := parseContainer_error_of_exec he h (by simp [hover])
  have hlen := parseContainer_overflow_length (hcode.symm.trans hover) hread
  omega

/-- Refutes O40: `overflowState` meets the invariants with ICAP = PCAP + 9, and PARSE of its ten bytes overflows. -/
theorem not_parseOverflowBoundAsPrinted : ¬ Obligations.ParseOverflowBoundAsPrinted := by
  intro h
  have hread : parseContainer overflowState.cfg.pcap overflowState.ibuf = .error (bufferOverflow 0x08) := by decide
  exact h overflowState _ overflowState_inv (by decide) rfl (exec_parse_of_error rfl hread) rfl

/-! The cuts of a container SERIALIZE made: each leaves the entries before it whole (R194) -/

section cut

variable {u : State} {code : SymMap BitString} {n k : Nat} {pad : BitVec 3} {payload : List Byte}
  (hu : u.err = .none) (h : TableOk code n) (hi : u.ibuf = (containerBytes n code pad payload).take k)
include hu h hi

/-- Inside an entry: its length byte is missing, or a byte of its code. -/
theorem exec_parse_of_cut_entry {before after : List Byte} {b : Byte}
    (hsplit : codedSymbols code = before ++ b :: after) :
    (codesEnd code before ≤ k → k ≤ codesEnd code before + 1 →
      exec .parse u = .next (fail ⟨.corruptContainer, 0x08, 3, BitVec.ofNat 32 (codesEnd code before)⟩ u)) ∧
    (codesEnd code before + 2 ≤ k → k < codesEnd code before + 2 + ceil8 (clenAt code b) →
      exec .parse u = .next (fail ⟨.corruptContainer, 0x08, 5, BitVec.ofNat 32 (codesEnd code before)⟩ u)) := by
  have hlt : (before.map (tableEntry code)).length < n := by
    rw [← tableEntries_length h, tableEntries_eq_map, hsplit]
    simp
  have hcut := fun hk => parseRejectsMalformedEntries u n _ _ hu (entriesOk_before h hsplit) hlt h.le
    (hi.trans (take_containerBytes h hsplit hk pad payload))
  rw [entriesEnd_map_tableEntry h] at hcut
  refine ⟨fun hk hk' => (hcut hk).1 ?_, fun hk hk' => ?_⟩
  · rw [List.length_take]
    omega
  · obtain ⟨m, rfl⟩ : ∃ m, k = codesEnd code before + (m + 2) := ⟨k - codesEnd code before - 2, by omega⟩
    have hlen : (tableEntry code b).len ≠ 0 := by
      refine ((tableEntries_ok h).1 (tableEntry code b) ?_).1
      rw [tableEntries_eq_map, hsplit]
      simp
    refine (hcut (by omega)).2.2 b (tableEntry code b).len _ (by rw [Nat.add_sub_cancel_left]; rfl) hlen ?_
    rw [List.length_take, tableEntry_len_toNat h]
    omega

/-- Behind the last entry: the padding count is missing, the payload is missing, or only its end. -/
theorem exec_parse_of_cut_tail (hn : 1 ≤ n) :
    (k = codesEnd code (codedSymbols code) →
      exec .parse u = .next (fail ⟨.corruptContainer, 0x08, 8, BitVec.ofNat 32 k⟩ u)) ∧
    (k = codesEnd code (codedSymbols code) + 1 →
      exec .parse u = .next (fail ⟨.corruptContainer, 0x08, 10, BitVec.ofNat 32 k⟩ u)) ∧
    (payload ≠ [] → payload.length ≤ u.cfg.pcap → codesEnd code (codedSymbols code) + 1 < k →
      ∃ t, exec .parse u = .next t ∧ t.err = .none) := by
  have hlen : (tableEntries code).length = n := tableEntries_length h
  have hend : entriesEnd (tableEntries code) = codesEnd code (codedSymbols code) := entriesEnd_map_tableEntry h _
  have hok : EntriesOk (tableEntries code) := tableEntries_ok h
  have h1 : 1 ≤ (tableEntries code).length := hlen.symm ▸ hn
  have h2 : (tableEntries code).length ≤ 256 := hlen.symm ▸ h.le
  have hpad : (pad.setWidth 8).toNat ≤ 7 := by
    have hlt := pad.isLt
    rw [BitVec.toNat_setWidth]
    omega
  have hcut : ∀ m, k = codesEnd code (codedSymbols code) + m →
      u.ibuf = rawContainer (tableEntries code).length (tableEntries code) ((pad.setWidth 8 :: payload).take m) := by
    rintro m rfl
    rw [hi, take_containerBytes h (List.append_nil _).symm (Nat.le_add_right _ _), hlen, Nat.add_sub_cancel_left]
    rfl
  refine ⟨fun hk => ?_, fun hk => ?_, fun hne hcap hk => ?_⟩
  · rw [hk, ← hend]
    exact (parseRejectsBadTails u _ _ hu hok h1 h2 (hcut 0 hk)).1 rfl
  · rw [hk, ← hend]
    exact (parseRejectsBadTails u _ _ hu hok h1 h2 (hcut 1 hk)).2.2.1 _ rfl hpad
  · obtain ⟨m, hm⟩ : ∃ m, k = codesEnd code (codedSymbols code) + (m + 1 + 1) :=
      ⟨k - codesEnd code (codedSymbols code) - 2, by omega⟩
    obtain ⟨_, _, _, hexec, -⟩ := parseReadsEveryValidContainer u _ _ (payload.take (m + 1)) hu hok h1 h2 hpad
      (by simpa using hne) ((List.length_take_le' _ _).trans hcap) (hcut _ hm)
    exact ⟨_, hexec, hu⟩

end cut

/-- Settles O44: a cut inside the count (`exec_parse_of_short`), inside an entry (`exec_parse_of_cut_entry`) or behind the
last entry (`exec_parse_of_cut_tail`). -/
theorem truncatedContainersAreCorrupt : Obligations.TruncatedContainersAreCorrupt := by
  intro s u k hinv hp hu hcfg hi
  have htable : TableOk s.code s.nsym.toNat := hinv.table (by simp [hp])
  have hpos : 1 ≤ s.nsym.toNat := (hinv.tree (by simp [hp])).1.positive
  have hne : s.pbuf ≠ [] := List.length_pos_iff.1 (hinv.one_le_pbuf_length (by simp [hp]))
  have hcap : s.pbuf.length ≤ u.cfg.pcap := by rw [hcfg]; exact hinv.capacities.2.2.2.1
  have hhead : s.obuf.length - s.pbuf.length = codesEnd s.code (codedSymbols s.code) + 1 := by
    rw [hinv.serialized hp, containerSize_eq, containerSize_eq_codesEnd]
    omega
  rw [hhead]
  rw [hinv.serialized hp] at hi
  obtain ⟨hnoPad, hnoPayload, hlonger⟩ := exec_parse_of_cut_tail hu htable hi hpos
  exact ⟨fun hk => exec_parse_of_short hu (by rw [hi, List.length_take]; omega),
    fun _ _ _ hsplit => exec_parse_of_cut_entry hu htable hi hsplit,
    fun hk => hnoPad (Nat.succ.inj hk), hnoPayload, hlonger hne hcap⟩

end Sys2Proof.Machine
end

section
/-! PROOFS. ENCODE and DECODE (47_pipeline.md): the bits of an input and their number, and what the scan makes of any
bit-string. -/

namespace Sys2Proof.Machine

/-! ENCODE in its phase -/

section encode

variable {s : State} (he : s.err = .none) (hp : s.phase = .assigned)
include he hp

/-- More bits than BCAP end in Fail() with BufferOverflow (R201). -/
theorem exec_encode_of_overflow (h : s.cfg.bcap.toNat < encodedLength s.code s.ibuf) :
    exec .encode s = .next (fail (bufferOverflow 0x04) s) := by
  rw [exec, execEncode_eq he hp, if_pos h]

/-- Bits that fit are written to BITBUF, and nothing else but PHASE changes (R201). -/
theorem exec_encode_of_fits (h : encodedLength s.code s.ibuf ≤ s.cfg.bcap.toNat) :
    exec .encode s = .next { s with bits := codesOf s.code s.ibuf, phase := .encoded } := by
  rw [exec, execEncode_eq he hp, if_neg h.not_gt, encodeBytes_eq_codesOf]

end encode

/-- A sum over a byte sequence, symbol by symbol. -/
theorem sum_map_eq_sum_count (bytes : List Byte) (f : Byte → Nat) :
    (bytes.map f).sum = (symbols.map fun b => bytes.count b * f b).sum := by
  have hall : bytes.toFinset ⊆ symbols.toFinset := fun b _ => by simp
  rw [Finset.sum_list_map_count, Finset.sum_subset hall, List.sum_toFinset _ symbols_nodup]
  · rfl
  · intro b _ hb
    rw [List.count_eq_zero_of_not_mem (by simpa using hb), zero_smul]

/-! The scan on whole codes, and on what may follow them -/

section scan

variable {code : SymMap BitString} {n ocap : Nat} {out : List Byte} (h : TableOk code n) (hcoded : Coded code out)
include h hcoded

/-- DECODE's scan from the first bit emits whole codes and goes on behind them (R206). -/
theorem TableOk.decodeScan_whole_append (hcap : out.length ≤ ocap) (rest : BitString) :
    decodeScan ocap code (codesOf code out ++ rest) 0 [] [] 0 =
      decodeScan ocap code rest (codesOf code out).length out [] 0 := by
  simpa using decodeScan_codesOf h.canonical h.prefixFree out hcoded (out := []) (k := 0) (by simpa using hcap)

/-- Whole codes and nothing behind them are the sequence (R206). -/
theorem TableOk.decodeScan_whole (hcap : out.length ≤ ocap) :
    decodeScan ocap code (codesOf code out) 0 [] [] 0 = .ok out := by
  simpa [decodeScan] using h.decodeScan_whole_append hcoded hcap []

/-- Bits behind whole codes that begin with no code are left over (R208). -/
theorem TableOk.decodeScan_whole_leftover {left : BitString} (hcap : out.length ≤ ocap) (hne : left ≠ [])
    (hleft : ∀ b, codeAt code b ≠ [] → ¬ codeAt code b <+: left) :
    decodeScan ocap code (codesOf code out ++ left) 0 [] [] 0 =
      .error (corruptContainer 0x0A 11 (codesOf code out).length) := by
  rw [h.decodeScan_whole_append hcoded hcap, decodeScan_leftover h.canonical left ?_ (by simpa using hne)]
  · rfl
  · intro q hq hpre b hb
    rw [List.nil_append] at hb
    exact hleft b (hb ▸ hq) (hb ▸ hpre)

/-- With OBUF full, one more code is an overflow, whatever follows it (R208). -/
theorem TableOk.decodeScan_whole_overflow (hcap : ocap < out.length) (more : BitString) :
    decodeScan ocap code (codesOf code out ++ more) 0 [] [] 0 = .error (bufferOverflow 0x0A) := by
  obtain ⟨full, x, rest, rfl, hfull⟩ : ∃ full x rest, out = full ++ x :: rest ∧ full.length = ocap :=
    ⟨out.take ocap, out[ocap], out.drop (ocap + 1), by simp, by simp; omega⟩
  have hx : codeAt code x ≠ [] := hcoded x (by simp)
  rw [codesOf_append, codesOf_cons, List.append_assoc, List.append_assoc,
    h.decodeScan_whole_append (fun b hb => hcoded b (List.mem_append_left _ hb)) hfull.le,
    decodeScan_code h.canonical h.prefixFree (s := x) _ (List.nil_append _).symm hx, if_pos hfull]

end scan

/-- Every bit-string is whole codes and then bits that begin with no code. -/
theorem exists_codes_and_rest (code : SymMap BitString) (bits : BitString) :
    ∃ out left, Coded code out ∧ bits = codesOf code out ++ left ∧
      ∀ b, codeAt code b ≠ [] → ¬ codeAt code b <+: left := by
  induction hlen : bits.length using Nat.strong_induction_on generalizing bits with
  | _ m ih =>
    by_cases hcode : ∃ b, codeAt code b ≠ [] ∧ codeAt code b <+: bits
    · obtain ⟨b, hne, rest, rfl⟩ := hcode
      have hpos := List.length_pos_iff.2 hne
      rw [List.length_append] at hlen
      obtain ⟨out, left, hcoded, rfl, hleft⟩ := ih rest.length (by omega) rest rfl
      refine ⟨b :: out, left, ?_, by rw [codesOf_cons, List.append_assoc], hleft⟩
      exact List.forall_mem_cons.2 ⟨hne, hcoded⟩
    · exact ⟨[], bits, by simp [Coded], rfl, fun b hne hpre => hcode ⟨b, hne, hpre⟩⟩

/-! DECODE in its phase -/

section decode

variable {s : State} (he : s.err = .none) (hp : s.phase = .unpacked)
include he hp

theorem exec_decode_of_ok {out : List Byte}
    (h : decodeScan s.cfg.ocap.toNat s.code s.bits 0 [] [] 0 = .ok out) :
    exec .decode s = .next { s with obuf := out, phase := .decoded } := by
  rw [exec, execDecode_eq he hp, h]

theorem exec_decode_of_error {e : ErrorRecord}
    (h : decodeScan s.cfg.ocap.toNat s.code s.bits 0 [] [] 0 = .error e) :
    exec .decode s = .next (fail e s) := by
  rw [exec, execDecode_eq he hp, h]

end decode

/-! The obligations -/

/-- Settles O45: the scan of whole codes and nothing behind them (`TableOk.decodeScan_whole`). -/
theorem decodeScansTheCodes : Obligations.DecodeScansTheCodes := by
  intro s n out he hp htable hcoded hbits hcap
  exact exec_decode_of_ok he hp (hbits ▸ htable.decodeScan_whole hcoded hcap)

/-- Settles O46: the scan on bits left over and on one code too many; a bit-string is split at its codes as long as one
begins it. -/
theorem decodeReportsLeftoversAndOverflow : Obligations.DecodeReportsLeftoversAndOverflow := by
  refine ⟨?_, ?_, fun code _ bits _ => exists_codes_and_rest code bits⟩
  · intro s n out left he hp htable hcoded hbits hne hleft hcap
    exact exec_decode_of_error he hp (hbits ▸ htable.decodeScan_whole_leftover hcoded hcap hne hleft)
  · intro s n out more he hp htable hcoded hbits hcap
    exact exec_decode_of_error he hp (hbits ▸ htable.decodeScan_whole_overflow hcoded hcap more)

/-- Settles O28: ENCODE outside its phase (`exec_badPhase`), and in it by whether the bits fit. -/
theorem encodeConcatenatesTheCodes : Obligations.EncodeConcatenatesTheCodes := by
  refine ⟨by decide, fun s he => ⟨fun hp => exec_badPhase (i := .encode) rfl he hp,
    fun hp hlen => exec_encode_of_overflow he hp hlen, fun hp hlen => ?_⟩⟩
  exact ⟨codesOf s.code s.ibuf, exec_encode_of_fits he hp hlen, rfl, codesOf_length s.code s.ibuf⟩

/-- Settles O29: the input's code lengths are summed symbol by symbol, FREQ counts the input (R277 (e)), and every symbol
counted has a code (42_code_assigner.md R139 (a)). -/
theorem encodedLengthIsTheWeightedSum : Obligations.EncodedLengthIsTheWeightedSum := by
  refine ⟨fun s t h hp hexec ht => ?_, fun s h hp b hb => ?_⟩
  · cases completes_of_exec (h.err_eq_none (by simp [hp])) hexec ht
    have hcounts := (h.counts (by simp [hp])).1
    refine ⟨encodeBytes_eq_codesOf s.code s.ibuf, ?_⟩
    simp only [hcounts]
    rw [encodeBytes_eq_codesOf, codesOf_length, encodedLength, sum_map_eq_sum_count]
  · have hcounts := (h.counts (by simp [hp])).1
    have hfreq : freqAt s.freq b ≠ 0 := by
      intro hz
      have hcount := hcounts b
      rw [hz] at hcount
      exact (List.count_pos_iff.2 hb).ne hcount
    exact List.length_pos_iff.2 ((h.tableTotal (by simp [hp]) b).2 hfreq)

end Sys2Proof.Machine
end

section
/-! PROOFS. The composites and COMPRESS (47_pipeline.md): a composite is its stages, issued as one command or one by one,
and what COMPRESS makes of an input. -/

namespace Sys2Proof.Machine

/-! Commands run as the stages of one command: each begins when the one before it left no error -/

/-- The stages in order, stopping at the first error (47_pipeline.md R210, R212). -/
def stages : List Instr → State → Result
  | [], s => .next s
  | i :: is, s => thenStage (exec i s) (stages is)

/-- A last stage ends the composite as it ends itself. -/
theorem thenStage_next_eq (r : Result) : thenStage r .next = r := by
  cases r with
  | next s => simp [thenStage]
  | fault f => rfl
  | refused f => rfl

/-- The stages of COMPRESS (R210). -/
def compressStages : List Instr := [.count, .build, .assign, .encode, .pack, .serialize]

/-- The stages of DECOMPRESS (R212). -/
def decompressStages : List Instr := [.parse, .unpack, .decode]

theorem exec_compress_eq_stages (s : State) : exec .compress s = stages compressStages s := by
  simp only [compressStages, stages, funext (fun t : State => thenStage_next_eq (exec .serialize t))]
  rfl

theorem exec_decompress_eq_stages (s : State) : exec .decompress s = stages decompressStages s := by
  simp only [decompressStages, stages, funext (fun t : State => thenStage_next_eq (exec .decode t))]
  rfl

/-- A faulted block hears none of the stages. -/
theorem stages_of_faulted {is : List Instr} {s : State} (hi : .sreset ∉ is) (he : s.err ≠ .none) :
    stages is s = .next s := by
  cases is with
  | nil => rfl
  | cons i is => rw [stages, exec_faulted he (fun h => hi (by simp [h])), thenStage_stop he]

/-! Commands the host issues one by one -/

/-- The host's write of a command takes one step. -/
theorem step_cmdWrite_encode {s : State} {i : Instr} {rest : List HostInput}
    (hp : s.port = cmdWrite (encode i) :: rest) : step s = exec i { s with port := rest, rdata := none } :=
  stepRunsTheDecodedCommand s (encode i) i rest hp (decode_encode i)

theorem run_succ_of_next {s t : State} (h : step s = .next t) (k : Nat) : core.run (k + 1) s = core.run k t := by
  simp only [Host.Core.run, core, h]

theorem run_succ_of_fault {s : State} {f : Fault} (h : step s = .fault f) (k : Nat) :
    core.run (k + 1) s = .fault f := by
  simp only [Host.Core.run, core, h]

theorem run_succ_of_refused {s : State} {f : Refusal} (h : step s = .refused f) (k : Nat) :
    core.run (k + 1) s = .refused f := by
  simp only [Host.Core.run, core, h]

/-- The host's writes of these commands, and what it issues after them. -/
def issue (is : List Instr) (rest : List HostInput) : List HostInput := is.map (fun i => cmdWrite (encode i)) ++ rest

/-- The stages one by one, from a block that holds no read data. -/
theorem run_stages {is : List Instr} (hi : .sreset ∉ is) (rest : List HostInput) (s : State) :
    core.run is.length ({ s with port := issue is rest, rdata := none } : State) =
      stages is { s with port := rest, rdata := none } := by
  induction is generalizing s with
  | nil => rfl
  | cons i is ih =>
    have his : .sreset ∉ is := fun h => hi (by simp [h])
    have hstep : step { s with port := issue (i :: is) rest, rdata := none } =
        relabel (issue is rest) (exec i { s with rdata := none }) :=
      (step_cmdWrite_encode rfl).trans (exec_port i { s with rdata := none } (issue is rest))
    have hfirst : exec i { s with port := rest, rdata := none } = relabel rest (exec i { s with rdata := none }) :=
      exec_port i { s with rdata := none } rest
    rw [stages, hfirst]
    cases hexec : exec i { s with rdata := none } with
    | next t =>
      rw [hexec] at hstep
      obtain ⟨-, -, hrdata : t.rdata = none⟩ := exec_keeps hexec
      have ht : t = { t with rdata := none } := by rw [← hrdata]
      rw [ht] at hstep ⊢
      rw [List.length_cons, run_succ_of_next hstep]
      refine (ih his t).trans ?_
      by_cases he : t.err = .none
      · exact (thenStage_ok (by exact he)).symm
      · exact (stages_of_faulted his (by exact he)).trans (thenStage_stop (by exact he)).symm
    | fault f =>
      rw [hexec] at hstep
      exact run_succ_of_fault hstep _
    | refused f =>
      rw [hexec] at hstep
      exact run_succ_of_refused hstep _

/-- One command and its stages one by one leave the same block; the first write makes the read data meaningless, whatever
it was (20_memory.md R60). -/
theorem step_composite_eq_run {i j : Instr} {is : List Instr} (hstages : ∀ s, exec i s = stages (j :: is) s)
    (hi : .sreset ∉ j :: is) (s : State) (rest : List HostInput) :
    step { s with port := issue [i] rest } =
      core.run (is.length + 1) ({ s with port := issue (j :: is) rest } : State) := by
  have hrdata : core.run (is.length + 1) ({ s with port := issue (j :: is) rest } : State) =
      core.run (is.length + 1) ({ s with port := issue (j :: is) rest, rdata := none } : State) := rfl
  have hcomposite : step { s with port := issue [i] rest } =
      stages (j :: is) { s with port := rest, rdata := none } := (step_cmdWrite_encode rfl).trans (hstages _)
  exact (hcomposite.trans (run_stages hi rest s).symm).trans hrdata.symm

/-! What COMPRESS makes of an input -/

/-- R211: the map of the empty input has no symbol, and BUILD raises the error. -/
theorem exec_compress_of_nil {s : State} (he : s.err = .none) (hempty : s.ibuf = []) :
    exec .compress s = .next (fail emptyMapError s) := by
  rw [exec, execCompress_eq he, if_pos ((nsym_eq_zero_iff (by simp [hempty])).2 (by simp [hempty]))]

/-- An input compresses to the codes of at most 255 bits of its bytes (42_code_assigner.md R141). -/
theorem TableOk.codesOf_length_le {code : SymMap BitString} {n : Nat} (h : TableOk code n) (bytes : List Byte) :
    (codesOf code bytes).length ≤ 255 * bytes.length := by
  rw [codesOf_length, encodedLength, Nat.mul_comm]
  have hsum := List.sum_le_card_nsmul (bytes.map (clenAt code)) 255 (by
    intro len hlen
    obtain ⟨b, -, rfl⟩ := List.mem_map.1 hlen
    exact h.lengths b)
  simpa using hsum

/-- A container has at most 256 entries of at most 34 bytes: with the count and the padding count, 8709 bytes beside its
payload (45_container_serializer.md R173). -/
theorem TableOk.containerSize_le {code : SymMap BitString} {n : Nat} (h : TableOk code n) (plen : Nat) :
    containerSize code plen ≤ 8709 + plen := by
  have hcount : (codedSymbols code).length ≤ 256 := by
    rw [codedSymbols_length, h.size]
    exact h.le
  have hsum := List.sum_le_card_nsmul ((codedSymbols code).map fun b => 2 + ceil8 (clenAt code b)) 34 (by
    intro size hsize
    obtain ⟨b, -, rfl⟩ := List.mem_map.1 hsize
    have hlen : clenAt code b ≤ 255 := h.lengths b
    simp only [ceil8]
    omega)
  rw [List.length_map, smul_eq_mul] at hsum
  rw [containerSize]
  omega

/-! The obligations -/

/-- Settles O47: the stages of each composite, one by one (`step_composite_eq_run`). -/
theorem compositesRunTheirStages : Obligations.CompositesRunTheirStages :=
  fun s rest _ => ⟨step_composite_eq_run exec_compress_eq_stages (by decide) s rest,
    step_composite_eq_run exec_decompress_eq_stages (by decide) s rest⟩

/-- Settles O48: the record of `exec_compress_of_nil` as the host reads it. -/
theorem compressOfNothingIsInvalid : Obligations.CompressOfNothingIsInvalid := by
  intro s he hempty
  exact ⟨_, exec_compress_of_nil he (List.length_eq_zero_iff.1 hempty), rfl, statusWord_eq _, errinfoWord_eq _, rfl, rfl⟩

/-- Settles O49, by `execCompress_spec`: the tree and the table, and which of the three outcomes they give. -/
theorem compressMakesTheContainer : Obligations.CompressMakesTheContainer := by
  intro s he hne hcap
  have hlen := ibuf_length_lt_of_le_icap hcap
  obtain ⟨nodes, root, code, htree, -, htable, hcode, -, hexec⟩ := execCompress_spec he hne hlen
  refine ⟨countBytes s.ibuf, BitVec.ofNat 9 (distinctCount (countBytes s.ibuf)), nodes, BitVec.ofNat 9 root, code,
    freqAt_countBytes_toNat hlen, ?_⟩
  rw [nsym_toNat, htree.toNat_ofNat_root]
  refine ⟨htree, htable, hcode, fun hbits => ?_, fun hbits hsize => ?_, fun hbits hsize => ?_⟩
  · rw [exec, hexec, if_pos hbits]
    rfl
  · rw [exec, hexec, if_neg hbits.not_gt, if_pos hsize]
    rfl
  · rw [exec, hexec, if_neg hbits.not_gt, if_neg hsize.not_gt, compressedState, encodeBytes_eq_codesOf, nsym_toNat]

/-- Settles O50: within the bounds neither the bits nor the container overflow (`TableOk.codesOf_length_le`,
`TableOk.containerSize_le`), so COMPRESS makes the container of `compressMakesTheContainer`. -/
theorem compressCompletes : Obligations.CompressCompletes := by
  intro s he hne hcap hbcap hocap
  obtain ⟨freq, nsym, nodes, root, code, hfreq, -, htable, -, -, -, hok⟩ := compressMakesTheContainer s he hne hcap
  have hbits := htable.codesOf_length_le s.ibuf
  have hsize := htable.containerSize_le (packBytes (codesOf code s.ibuf)).length
  have hpacked := ceil8_lt (codesOf code s.ibuf).length
  rw [packBytes_length] at hsize
  refine ⟨_, hok (by omega) (by rw [packBytes_length]; omega), he, rfl, hfreq, htable, rfl, rfl, rfl, rfl, rfl, rfl, rfl⟩

/-- Settles O56: a completed COMPRESS ran on the tree and the table of its input (`completes_of_exec`), and both are
functions of the input. -/
theorem compressIsDeterministic : Obligations.CompressIsDeterministic := by
  intro s t u v hs hu hibuf hexec hexec' ht hv
  cases completes_of_exec hs hexec ht with
  | compress hbuild hassign =>
    cases completes_of_exec hu hexec' hv with
    | compress hbuild' hassign' =>
      rw [hibuf, hbuild'] at hbuild
      cases hbuild
      rw [hassign'] at hassign
      cases hassign
      rw [compressedState, compressedState, hibuf]

end Sys2Proof.Machine
end

section
/-! PROOFS. DECOMPRESS and the round trip (47_pipeline.md): what DECOMPRESS makes of a container, the host's LOAD script,
and that what COMPRESS made comes back. -/

namespace Sys2Proof.Machine

/-! DECOMPRESS by what it reads in IBUF -/

section decompress

variable {s : State} {r : Parsed} (he : s.err = .none) (hread : parseContainer s.cfg.pcap s.ibuf = .ok r)
include he hread

omit he in
/-- PARSE only accepts a payload of at least one byte, which the at most 7 padding bits do not use up (44_bit_unpacker.md
R161). -/
theorem pad_le_of_parsed : r.pad.toNat ≤ 8 * r.payload.length := by
  obtain ⟨-, -, -, -, -, -, hne, -⟩ := parseContainer_inv hread
  have hlen := List.length_pos_iff.2 hne
  have hpad := r.pad.isLt
  omega

theorem exec_decompress_of_ok {out : List Byte}
    (hscan : decodeScan s.cfg.ocap.toNat r.code (unpackBits r.payload r.pad) 0 [] [] 0 = .ok out) :
    exec .decompress s = .next (decompressedState s r out) := by
  rw [exec, execDecompress_eq he, hread]
  simp only [if_pos (pad_le_of_parsed hread), hscan]

theorem exec_decompress_of_error {e : ErrorRecord}
    (hscan : decodeScan s.cfg.ocap.toNat r.code (unpackBits r.payload r.pad) 0 [] [] 0 = .error e) :
    exec .decompress s = .next (fail e s) := by
  rw [exec, execDecompress_eq he, hread]
  simp only [if_pos (pad_le_of_parsed hread), hscan]

end decompress

/-- The codes of a sequence in the table that entries fill are the codes of the entries. -/
theorem codesOf_addEntries {entries : List RawEntry} (h : EntriesOk entries) (out : List Byte) :
    codesOf (addEntries [] entries) out = (out.map (entryCode entries)).flatten := by
  rw [codesOf, funext (codeAt_addEntries_nil h)]

/-- Bits that fit BITBUF fit PBUF when they are packed: BCAP is whole bytes (R8). -/
theorem packBytes_length_le_pcap {c : Config} (hc : c.wellFormed = true) {bits : BitString}
    (hbits : bits.length ≤ c.bcap.toNat) : (packBytes bits).length ≤ c.pcap := by
  have hwhole : c.bcap.toNat % 8 = 0 := by
    simp only [Config.wellFormed, Bool.and_eq_true, beq_iff_eq] at hc
    exact hc.2
  rw [packBytes_length, ceil8, Config.pcap]
  omega

/-! DECOMPRESS of the container of an input -/

section container

variable {u : State} {code : SymMap BitString} {n : Nat} {input : List Byte} (he : u.err = .none)
  (hc : u.cfg.wellFormed = true) (htable : TableOk code n) (hn : 1 ≤ n) (hne : input ≠ [])
  (hcoded : Coded code input) (hbits : (codesOf code input).length ≤ u.cfg.bcap.toNat)
  (hi : u.ibuf = containerBytes n code (padCount (codesOf code input).length) (packBytes (codesOf code input)))
include hc htable hn hne hcoded hbits hi

theorem parseContainer_of_codes :
    parseContainer u.cfg.pcap u.ibuf =
      .ok { count := n, code := code, pad := padCount (codesOf code input).length,
            payload := packBytes (codesOf code input) } := by
  have hlen := length_le_codesOf hcoded
  have hceil := ceil8_le (codesOf code input).length
  have hpos := List.length_pos_iff.2 hne
  rw [hi]
  refine parseContainer_containerBytes htable hn _ ?_ (packBytes_length_le_pcap hc hbits)
  exact List.ne_nil_of_length_pos (by rw [packBytes_length]; omega)

include he

/-- The input comes back when it fits OBUF. -/
theorem exec_decompress_container (hcap : input.length ≤ u.cfg.ocap.toNat) :
    ∃ v, exec .decompress u = .next v ∧ v.err = .none ∧ v.obuf = input := by
  refine ⟨_, exec_decompress_of_ok he (parseContainer_of_codes hc htable hn hne hcoded hbits hi) (out := input) ?_,
    he, rfl⟩
  rw [unpackBits_packBytes]
  exact htable.decodeScan_whole hcoded hcap

/-- Otherwise DECOMPRESS ends in Fail() with DECODE's BufferOverflow. -/
theorem exec_decompress_container_overflow (hcap : u.cfg.ocap.toNat < input.length) :
    exec .decompress u = .next (fail (bufferOverflow 0x0A) u) := by
  refine exec_decompress_of_error he (parseContainer_of_codes hc htable hn hne hcoded hbits hi) ?_
  rw [unpackBits_packBytes]
  simpa using htable.decodeScan_whole_overflow hcoded hcap []

end container

/-! The script LOAD and one command after it -/

/-- A run of one more step. -/
theorem run_succ_of_run {k : Nat} {s t u : State} (hrun : core.run k s = .next t) (hstep : step t = .next u) :
    core.run (k + 1) s = .next u := by
  induction k generalizing s with
  | zero =>
    cases hrun
    exact run_succ_of_next hstep 0
  | succ k ih =>
    cases hs : step s with
    | next s' =>
      rw [run_succ_of_next hs] at hrun
      rw [run_succ_of_next hs, ih hrun]
    | fault f => cases (run_succ_of_fault hs k).symm.trans hrun
    | refused f => cases (run_succ_of_refused hs k).symm.trans hrun

/-- The block after LOAD of these bytes, with these inputs still to come. -/
def loadedState (s : State) (bytes : List Byte) (rest : List HostInput) : State :=
  { clearProducts s with ibuf := bytes, phase := .load, port := rest, rdata := none }

section load

variable {s : State} (he : s.err = .none)
include he

/-- Each PUSH appends its byte while IBUF has room (48_control.md R222). -/
theorem run_pushes (bytes before : List Byte) (rest : List HostInput)
    (hcap : before.length + bytes.length ≤ s.cfg.icap.toNat) :
    core.run bytes.length (loadedState s before (issue (bytes.map .push) rest)) =
      .next (loadedState s (before ++ bytes) rest) := by
  induction bytes generalizing before with
  | nil => simp [issue, Host.Core.run]
  | cons b bytes ih =>
    rw [List.length_cons] at hcap ⊢
    have hroom : before.length < s.cfg.icap.toNat := by omega
    have hpush : exec (.push b) (loadedState s before (issue (bytes.map .push) rest)) =
        .next (loadedState s (before ++ [b]) (issue (bytes.map .push) rest)) := execPush_of_room b he hroom
    have hstep : step (loadedState s before (issue ((b :: bytes).map .push) rest)) =
        .next (loadedState s (before ++ [b]) (issue (bytes.map .push) rest)) := (step_cmdWrite_encode rfl).trans hpush
    rw [run_succ_of_next hstep, ih (before ++ [b]) (by simp; omega), List.append_assoc]
    rfl

/-- ICLR, then PUSH of each byte (30_encoding.md R88). -/
theorem run_loadScript {bytes : List Byte} (hcap : bytes.length ≤ s.cfg.icap.toNat) (rest : List HostInput) :
    core.run (bytes.length + 1) ({ s with port := loadScript bytes ++ rest } : State) =
      .next (loadedState s bytes rest) := by
  have hscript : loadScript bytes ++ rest = cmdWrite (encode .iclr) :: issue (bytes.map .push) rest := by
    rw [loadScript, issue, List.map_map]
    rfl
  have hiclr : exec .iclr { s with port := issue (bytes.map .push) rest, rdata := none } =
      .next (loadedState s [] (issue (bytes.map .push) rest)) := execIclr_eq (by exact he)
  have hstep : step { s with port := loadScript bytes ++ rest } =
      .next (loadedState s [] (issue (bytes.map .push) rest)) := by
    rw [hscript]
    exact (step_cmdWrite_encode rfl).trans hiclr
  rw [run_succ_of_next hstep]
  exact run_pushes he bytes [] rest (by simpa using hcap)

/-- LOAD, and one command on what it loaded. -/
theorem run_load_command {bytes : List Byte} (hcap : bytes.length ≤ s.cfg.icap.toNat) {i : Instr} {t : State}
    (hexec : exec i (loadedState s bytes []) = .next t) :
    core.run (bytes.length + 2) ({ s with port := loadScript bytes ++ [cmdWrite (encode i)] } : State) = .next t :=
  run_succ_of_run (run_loadScript he hcap _) ((step_cmdWrite_encode rfl).trans hexec)

end load

/-- The second half of R214: the host loads back the container a block holds, and DECOMPRESS gives the input or
overflows OBUF. -/
theorem run_load_decompress {t : State} {code : SymMap BitString} {n : Nat} {input : List Byte} (he : t.err = .none)
    (hc : t.cfg.wellFormed = true) (htable : TableOk code n) (hn : 1 ≤ n) (hne : input ≠ []) (hcoded : Coded code input)
    (hbits : (codesOf code input).length ≤ t.cfg.bcap.toNat)
    (hobuf : t.obuf = containerBytes n code (padCount (codesOf code input).length) (packBytes (codesOf code input)))
    (hfits : t.obuf.length ≤ t.cfg.icap.toNat) :
    ∃ v : State, core.run (t.obuf.length + 2)
        ({ t with port := loadScript t.obuf ++ [cmdWrite (encode .decompress)] } : State) = .next v ∧
      (v.err ≠ .bufferOverflow → v.err = .none ∧ v.obuf.length = input.length ∧ v.obuf = input) ∧
      (input.length ≤ t.cfg.ocap.toNat → v.err = .none) := by
  have hu : (loadedState t t.obuf []).err = .none := he
  by_cases hroom : input.length ≤ t.cfg.ocap.toNat
  · obtain ⟨v, hv, herr, rfl⟩ := exec_decompress_container hu hc htable hn hne hcoded hbits hobuf hroom
    exact ⟨v, run_load_command he hfits hv, fun _ => ⟨herr, rfl, rfl⟩, fun _ => herr⟩
  · have hv := exec_decompress_container_overflow hu hc htable hn hne hcoded hbits hobuf (not_le.1 hroom)
    exact ⟨_, run_load_command he hfits hv, fun h => absurd rfl h, fun h => absurd h hroom⟩

/-! The obligations -/

/-- Settles O51: the container is read (`parseContainer_ok`), its table is well-formed (`addEntries_tableOk`), and the
scan of whole codes gives the sequence. -/
theorem decompressReadsEveryValidContainer : Obligations.DecompressReadsEveryValidContainer := by
  intro s entries pad payload out he hok h1 h2 hpad hne hcap hi hcoded hbits hout
  have hread := parseContainer_ok hok h1 h2 hpad hne hcap
  rw [← hi] at hread
  have htable := addEntries_tableOk hok
  have hcode := codeAt_addEntries_nil hok
  refine ⟨addEntries [] entries, BitVec.ofNat 9 entries.length, exec_decompress_of_ok he hread ?_, ?_, hcode⟩
  · rw [hbits, ← codesOf_addEntries hok]
    exact htable.decodeScan_whole (fun b hb => by rw [hcode]; exact hcoded b hb) hout
  · rw [BitVec.toNat_ofNat, Nat.mod_eq_of_lt (by omega)]

/-- Settles O52: LOAD leaves the input in IBUF (`run_load_command`); COMPRESS makes the container of its codes
(`execCompress_spec`) or overflows; and DECOMPRESS of that container gives the input, or overflows when OBUF is too
small. -/
theorem roundTrip : Obligations.RoundTrip := by
  intro s input he hc hlen hcap
  have hne : input ≠ [] := List.ne_nil_of_length_pos hlen
  have hlt : input.length < 2 ^ 32 := hcap.trans_lt s.cfg.icap.isLt
  obtain ⟨nodes, root, code, htree, -, htable, -, htotal, hexec⟩ :=
    execCompress_spec (s := loadedState s input []) he hne hlt
  split at hexec
  · exact ⟨_, run_load_command he hcap (i := .compress) hexec, fun h => absurd rfl h⟩
  split at hexec
  · exact ⟨_, run_load_command he hcap (i := .compress) hexec, fun h => absurd rfl h⟩
  rename_i hbits _
  have hcoded : Coded code input := fun b hb =>
    (htotal b).2 ((freqAt_countBytes_ne hlt b).2 (List.count_pos_iff.2 hb).ne')
  refine ⟨_, run_load_command he hcap (i := .compress) hexec, fun _ => ⟨he, fun hfits => ?_⟩⟩
  refine run_load_decompress (t := compressedState (loadedState s input []) nodes (BitVec.ofNat 9 root) code) he hc htable
    htree.positive hne hcoded (not_lt.1 hbits) ?_ hfits
  rw [← encodeBytes_eq_codesOf, ← nsym_toNat]
  rfl

end Sys2Proof.Machine
end

section
/-! PROOFS. The control commands (48_control.md): NOP, PUSH, ICLR and SRESET. -/

namespace Sys2Proof.Machine

/-- PUSH in format B: the immediate in bits [15:8] and the opcode in bits [7:0] (30_encoding.md R82). -/
theorem encode_push_eq (b : Byte) : encode (.push b) = (b.setWidth 32 <<< 8) ||| 0x0D := by
  have hb := b.isLt
  have hfield : (b.setWidth 32 <<< 8 : Word).toNat = b.toNat <<< 8 := by
    simp only [BitVec.toNat_shiftLeft, BitVec.toNat_setWidth, Nat.shiftLeft_eq]
    omega
  apply BitVec.eq_of_toNat_eq
  rw [encode_push_toNat, BitVec.toNat_or, hfield, ← Nat.shiftLeft_add_eq_or_of_lt (by decide), Nat.shiftLeft_eq]
  rfl

/-- Without products and input, in PHASE 0 and with no record, the block is the reset state but for the host port
(10_state.md R41). -/
theorem sameBlock_resetWith_of_emptied {s : State} (he : s.err = .none) (hstage : s.stage = 0) (hsub : s.sub = 0)
    (hpos : s.errpos = 0) :
    SameBlock (State.resetWith s.cfg) { clearProducts s with ibuf := [], phase := .load } := by
  simp [SameBlock, State.resetWith, he, hstage, hsub, hpos]

/-! The obligations -/

/-- Settles O18, by `execNop_eq`. -/
theorem nopChangesNothing : Obligations.NopChangesNothing := ⟨by decide, execNop_eq⟩

/-- Settles O19: the capacity check of PUSH decides (`execPush_eq`). -/
theorem pushAppendsOrOverflows : Obligations.PushAppendsOrOverflows := by
  refine fun b s => ⟨encode_push_eq b, fun he hfull => ?_, fun he hroom => ?_⟩
  · exact (execPush_eq he b).trans (if_pos hfull)
  · exact (execPush_eq he b).trans (if_neg hroom)

/-- Settles O20, by `execIclr_eq`; with no record the emptied block is the reset state. -/
theorem iclrEmptiesTheInput : Obligations.IclrEmptiesTheInput := by
  refine ⟨by decide, fun s he => ⟨execIclr_eq he, fun hstage hsub hpos => ?_⟩⟩
  exact ⟨_, execIclr_eq he, sameBlock_resetWith_of_emptied he hstage hsub hpos⟩

/-- Settles O21: SRESET is `softReset` in every state, and leaves the reset state (`sameBlock_resetWith`). -/
theorem sresetLeavesTheResetState : Obligations.SresetLeavesTheResetState :=
  ⟨by decide, fun s => ⟨rfl, softReset s, rfl, sameBlock_resetWith (.inl rfl)⟩⟩

end Sys2Proof.Machine
end

section
/-! PROOFS. The exceptions (60_exceptions.md): what a failing command leaves, which records there are, and what a faulted
block hears and shows. -/

namespace Sys2Proof.Machine

/-! A failing command -/

/-- R246: a command that leaves an error where there was none has no other effect than Fail(). -/
theorem failed_of_exec {i : Instr} {s t : State} (he : s.err = .none) (h : exec i s = .next t) (ht : t.err ≠ .none) :
    ∃ e, t = fail e s := by
  rcases exec_next he h with ⟨p, -, -, hfail⟩ | ⟨-, ⟨-, e, hfail, -⟩ | ⟨hnone, -⟩⟩
  · exact ⟨_, hfail⟩
  · exact ⟨e, hfail⟩
  · exact absurd hnone ht

/-! What the host reads of cleared products -/

/-- The product registers, indices 6 to 12 of space 0, read 0 (10_state.md R24). -/
theorem readCsr_cleared {t : State} (h : ProductsCleared t) {index : Word} (h6 : 6 ≤ index.toNat)
    (h12 : index.toNat ≤ 12) : hostRead t 0 index = 0 := by
  obtain ⟨-, -, hnsym, hnodes, hroot, hbits, hpbuf, hpad, hobuf⟩ := h
  show readCsr t index = 0
  rw [readCsr_eq]
  generalize index.toNat = n at h6 h12
  interval_cases n <;> simp [registers, lengthWord, *]

/-- Product registers and product spaces alike. -/
theorem reads_zero_of_cleared {t : State} (h : ProductsCleared t) :
    (∀ index : Word, 6 ≤ index.toNat → index.toNat ≤ 12 → hostRead t 0 index = 0) ∧
      ∀ (space : BitVec 4) (index : Word), 2 ≤ space.toNat → hostRead t space index = 0 :=
  ⟨fun _ h6 h12 => readCsr_cleared h h6 h12, fun space index hs => hostRead_cleared h space index hs⟩

/-! The records -/

/-- PHASE numbers other than 15 are at most 10 (70_reset_and_hazards.md R276). -/
theorem Phase.toBits_le_ten {p : Phase} (h : p ≠ .faulted) : p.toBits.toNat ≤ 10 := by
  cases p with
  | faulted => exact absurd rfl h
  | _ => decide

/-- The opcodes of the commands that need a PHASE. -/
theorem opcodeByte_of_neededPhase {i : Instr} {p : Phase} (h : neededPhase i = some p) :
    opcodeByte i ∈ [0x02, 0x03, 0x04, 0x05, 0x06, 0x09, 0x0A] := by
  cases i with
  | build | assign | encode | pack | serialize | unpack | decode => simp [opcodeByte]
  | _ => cases h

section records

variable (s : State)

theorem isErrorRecord_badSequence {i : Instr} {p found : Phase} (h : neededPhase i = some p) (hf : found ≠ .faulted) :
    IsErrorRecord (fail (badSequence (opcodeByte i) found) s) := by
  have hsub : (found.toBits.setWidth 8).toNat ≤ 10 :=
    (BitVec.toNat_setWidth_of_le (by decide)).trans_le (Phase.toBits_le_ten hf)
  exact .inr (.inr (.inr (.inr (.inr (.inl ⟨rfl, opcodeByte_of_neededPhase h, hsub, rfl⟩)))))

theorem isErrorRecord_bufferOverflow {stage : Byte} (h : stage ∈ [0x0D, 0x04, 0x06, 0x08, 0x0A]) :
    IsErrorRecord (fail (bufferOverflow stage) s) := .inr (.inr (.inr (.inr (.inl ⟨rfl, h, rfl, rfl⟩))))

theorem isErrorRecord_parse {e : ErrorRecord} (h : IsParseError e) : IsErrorRecord (fail e s) := by
  rcases h with rfl | ⟨sub, pos, h1, h10, hpos, rfl⟩
  · exact isErrorRecord_bufferOverflow s (by simp)
  · exact .inr (.inr (.inl ⟨rfl, rfl, h1, h10, fun h2 => congrArg (BitVec.ofNat 32) (hpos h2)⟩))

theorem isErrorRecord_illegalCommand (w : Word) : IsErrorRecord (fail (illegalCommand w) s) := by
  rw [illegalCommand_eq]
  exact .inr (.inr (.inr (.inr (.inr (.inr ⟨rfl, rfl, rfl⟩)))))

end records

/-- The records a command leaves on a block that is not faulted, one row of R241 each. -/
theorem isErrorRecord_of_exec {i : Instr} {s t : State} (he : s.err = .none) (hp : s.phase ≠ .faulted)
    (h : exec i s = .next t) (ht : t.err ≠ .none) : IsErrorRecord t := by
  rcases exec_next he h with ⟨p, hneed, -, rfl⟩ | ⟨-, ⟨-, e, rfl, -, -, hrecord⟩ | ⟨hnone, -⟩⟩
  · exact isErrorRecord_badSequence s hneed hp
  · rcases hrecord with rfl | rfl | hparse | ⟨pos, rfl⟩ | hover
    · exact .inl ⟨rfl, rfl, rfl, rfl⟩
    · exact .inr (.inl ⟨rfl, rfl, rfl, rfl⟩)
    · exact isErrorRecord_parse s hparse
    · exact .inr (.inr (.inr (.inl ⟨rfl, rfl, rfl⟩)))
    · have hover : e ∈ [0x0D, 0x04, 0x06, 0x08, 0x0A].map bufferOverflow := hover
      obtain ⟨stage, hstage, rfl⟩ := List.mem_map.1 hover
      exact isErrorRecord_bufferOverflow s hstage
  · exact absurd hnone ht

/-! A faulted block -/

section faulted

variable {s : State} (he : s.err ≠ .none)
include he

/-- R248: every word but SRESET's is ignored. -/
theorem writeCmd_of_faulted {w : Word} (hw : w ≠ 0x0000000F) : writeCmd w s = .next s := by
  rw [writeCmd, if_pos he, if_neg hw]

/-- A write of CMD that ends without an error was SRESET's word. -/
theorem sreset_of_writeCmd {w : Word} {t : State} (h : writeCmd w s = .next t) (ht : t.err = .none) :
    w = 0x0000000F := by
  by_contra hw
  rw [writeCmd_of_faulted he hw] at h
  cases h
  exact he ht

/-- The two ways out of the faulted state (R248, R252). -/
theorem exit_of_takeInput {input : HostInput} {t : State} (h : takeInput input s = .next t) (ht : t.err = .none) :
    input = .rst ∨ input = cmdWrite 0x0000000F := by
  cases input with
  | rst => exact .inl rfl
  | transaction tr =>
    obtain ⟨write, space, index, wdata⟩ := tr
    cases write with
    | false =>
      cases h
      exact absurd ht he
    | true =>
      by_cases hcmd : space = 0 ∧ index = 1
      · obtain ⟨rfl, rfl⟩ := hcmd
        rw [takeInput, transact_write_cmd] at h
        exact .inr (congrArg cmdWrite (sreset_of_writeCmd (s := { s with rdata := none }) he h ht))
      · rw [takeInput, transact_write_elsewhere hcmd] at h
        cases h
        exact absurd ht he

end faulted

/-! The obligations -/

/-- Settles O12: the fields of Fail(), and `failed_of_exec`. -/
theorem errorsArePrecise : Obligations.ErrorsArePrecise :=
  ⟨fun e s => ⟨rfl, errinfoWord_toNat _, rfl, rfl, fail_cleared e s, rfl, rfl⟩, fun _ _ _ => failed_of_exec⟩

/-- Settles O13: both end in Fail(), which clears the products, and cleared products read 0. -/
theorem failedCommandShowsNoProduct : Obligations.FailedCommandShowsNoProduct := by
  refine ⟨fun i s t he h ht => ?_, fun w s t he hill h => ?_⟩
  · obtain ⟨e, rfl⟩ := failed_of_exec he h ht
    exact reads_zero_of_cleared (fail_cleared e s)
  · rw [transact_write_cmd, writeCmd_of_illegal hill, if_pos (by exact he)] at h
    cases h
    exact reads_zero_of_cleared (fail_cleared _ _)

/-- Settles O14: words by `writeCmd_of_faulted`, commands by `exec_faulted`, reads by the registers and the cleared
products, and the ways out by `exit_of_takeInput`. -/
theorem faultedBlockHearsOnlySreset : Obligations.FaultedBlockHearsOnlySreset := by
  refine ⟨fun s w he hw => ?_, fun _ _ he hi => exec_faulted he hi, ?_, fun _ _ _ he h ht => exit_of_takeInput he h ht⟩
  · exact ⟨_, (transact_write_cmd w s).trans (writeCmd_of_faulted (by exact he) hw), rfl⟩
  · intro s space index wdata he hp hcleared
    refine ⟨hostRead s space index, rfl, ?_, ?_, ?_, ?_, ?_, ?_, hostRead_cleared hcleared space index⟩
    · rintro rfl rfl
      refine (statusWord_eq s).trans ?_
      rw [hp]
      rfl
    · rintro rfl rfl; rfl
    · rintro rfl rfl; rfl
    · rintro rfl rfl; rfl
    · rintro rfl; exact readCsr_cleared hcleared
    · rintro rfl; exact gated_eq ..

/-- Settles O16, by everything a step can answer: an illegal word, or a command (`isErrorRecord_of_exec`). -/
theorem errorRecordsFollowTheTable : Obligations.ErrorRecordsFollowTheTable := by
  intro s t he hp h ht
  rcases step_next h with ⟨-, rfl⟩ | ⟨rest, -, rfl⟩ | ⟨rest, r, rfl⟩ | ⟨rest, w, -, -, rfl⟩ | ⟨rest, i, hexec⟩
  · exact absurd he ht
  · exact absurd rfl ht
  · exact absurd he ht
  · exact isErrorRecord_illegalCommand _ w
  · exact isErrorRecord_of_exec (by exact he) (by exact hp) hexec ht

end Sys2Proof.Machine
end

section
/-! PROOFS. The invariants (70_reset_and_hazards.md R277): what they ask in each phase, that they hold after reset, and
that every step keeps them. -/

namespace Sys2Proof.Machine

/-! What the invariants ask, phase by phase -/

/-- R277 (c). -/
def Fits (s : State) : Prop :=
  s.ibuf.length ≤ s.cfg.icap.toNat ∧ s.obuf.length ≤ s.cfg.ocap.toNat ∧ s.bits.length ≤ s.cfg.bcap.toNat ∧
    s.pbuf.length ≤ s.cfg.pcap ∧ s.nsym.toNat ≤ 256 ∧ s.nodes.length ≤ 511

/-- R277 (e). -/
def CountsInput (s : State) : Prop :=
  (∀ b, (freqAt s.freq b).toNat = s.ibuf.count b) ∧ s.nsym.toNat = symbols.countP fun b => freqAt s.freq b ≠ 0

/-- R277 (f). -/
def TreeOfCounts (s : State) : Prop :=
  TreeOk s.freq s.nsym.toNat s.nodes s.root.toNat ∧ (weightAt s.nodes s.root.toNat).toNat = s.ibuf.length

/-- R277 (g), with 42_code_assigner.md R139 (a). -/
def TableOfCounts (s : State) : Prop :=
  TableOk s.code s.nsym.toNat ∧ ∀ b, codeAt s.code b ≠ [] ↔ freqAt s.freq b ≠ 0

/-- R277 (h). -/
def BitsOfInput (s : State) : Prop := s.bits = codesOf s.code s.ibuf ∧ 1 ≤ s.bits.length

/-- R277 (g), (k). -/
def ReadFromInput (s : State) : Prop :=
  TableOk s.code s.nsym.toNat ∧ (∀ b, freqAt s.freq b = 0) ∧ s.nodes = [] ∧ s.root = 0 ∧ 1 ≤ s.pbuf.length ∧
    parseContainer s.cfg.pcap s.ibuf =
      .ok { count := s.nsym.toNat, code := s.code, pad := s.pad, payload := s.pbuf }

/-- R277 (l). -/
def BitsOfPayload (s : State) : Prop :=
  s.bits = unpackBits s.pbuf s.pad ∧ s.bits.length = 8 * s.pbuf.length - s.pad.toNat ∧ 1 ≤ s.bits.length

/-- R277 (m). -/
def SymbolsOfBits (s : State) : Prop :=
  1 ≤ s.obuf.length ∧ s.obuf.length ≤ s.bits.length ∧ codesOf s.code s.obuf = s.bits

/-- R277 (d) to (n), read by the phase: what each phase has made and what it has not made yet. -/
inductive PhaseOk (s : State) : Prop
  | load (hp : s.phase = .load) (products : ProductsCleared s)
  | faulted (hp : s.phase = .faulted) (products : ProductsCleared s)
  | counted (hp : s.phase = .counted) (counts : CountsInput s) (tree : s.nodes = [] ∧ s.root = 0)
      (table : ∀ b, codeAt s.code b = []) (bits : s.bits = []) (payload : s.pbuf = [] ∧ s.pad = 0) (obuf : s.obuf = [])
  | built (hp : s.phase = .built) (counts : CountsInput s) (tree : TreeOfCounts s)
      (table : ∀ b, codeAt s.code b = []) (bits : s.bits = []) (payload : s.pbuf = [] ∧ s.pad = 0) (obuf : s.obuf = [])
  | assigned (hp : s.phase = .assigned) (counts : CountsInput s) (tree : TreeOfCounts s) (table : TableOfCounts s)
      (bits : s.bits = []) (payload : s.pbuf = [] ∧ s.pad = 0) (obuf : s.obuf = [])
  | encoded (hp : s.phase = .encoded) (counts : CountsInput s) (tree : TreeOfCounts s) (table : TableOfCounts s)
      (bits : BitsOfInput s) (payload : s.pbuf = [] ∧ s.pad = 0) (obuf : s.obuf = [])
  | packed (hp : s.phase = .packed) (counts : CountsInput s) (tree : TreeOfCounts s) (table : TableOfCounts s)
      (bits : BitsOfInput s) (payload : (s.pbuf, s.pad) = packBits s.bits) (obuf : s.obuf = [])
  | serialized (hp : s.phase = .serialized) (counts : CountsInput s) (tree : TreeOfCounts s) (table : TableOfCounts s)
      (bits : BitsOfInput s) (payload : (s.pbuf, s.pad) = packBits s.bits)
      (obuf : s.obuf = containerBytes s.nsym.toNat s.code s.pad s.pbuf)
  | parsed (hp : s.phase = .parsed) (read : ReadFromInput s) (bits : s.bits = []) (obuf : s.obuf = [])
  | unpacked (hp : s.phase = .unpacked) (read : ReadFromInput s) (bits : BitsOfPayload s) (obuf : s.obuf = [])
  | decoded (hp : s.phase = .decoded) (read : ReadFromInput s) (bits : BitsOfPayload s) (obuf : SymbolsOfBits s)

/-! The clauses of R277 from what the phase asks: a clause that does not speak of the phase asks nothing -/

section clauses

variable {s : State} (h : PhaseOk s)
include h

theorem PhaseOk.productsCleared (hm : s.phase ∈ [.load, .faulted]) : ProductsCleared s := by
  cases h with
  | load _ products | faulted _ products => exact products
  | _ => simp_all

theorem PhaseOk.countsInput
    (hm : s.phase ∈ [.counted, .built, .assigned, .encoded, .packed, .serialized]) : CountsInput s := by
  cases h with
  | counted _ counts | built _ counts | assigned _ counts | encoded _ counts | packed _ counts | serialized _ counts =>
    exact counts
  | _ => simp_all

theorem PhaseOk.treeOfCounts (hm : s.phase ∈ [.built, .assigned, .encoded, .packed, .serialized]) :
    TreeOfCounts s := by
  cases h with
  | built _ _ tree | assigned _ _ tree | encoded _ _ tree | packed _ _ tree | serialized _ _ tree => exact tree
  | _ => simp_all

theorem PhaseOk.tableOfCounts (hm : s.phase ∈ [.assigned, .encoded, .packed, .serialized]) : TableOfCounts s := by
  cases h with
  | assigned _ _ _ table | encoded _ _ _ table | packed _ _ _ table | serialized _ _ _ table => exact table
  | _ => simp_all

theorem PhaseOk.readFromInput (hm : s.phase ∈ [.parsed, .unpacked, .decoded]) : ReadFromInput s := by
  cases h with
  | parsed _ read | unpacked _ read | decoded _ read => exact read
  | _ => simp_all

theorem PhaseOk.tableOk
    (hm : s.phase ∈ [.assigned, .encoded, .packed, .serialized, .parsed, .unpacked, .decoded]) :
    TableOk s.code s.nsym.toNat := by
  rcases List.mem_append (s := [Phase.assigned, .encoded, .packed, .serialized]).1 hm with hm | hm
  · exact (h.tableOfCounts hm).1
  · exact (h.readFromInput hm).1

theorem PhaseOk.bitsOfInput (hm : s.phase ∈ [.encoded, .packed, .serialized]) : BitsOfInput s := by
  cases h with
  | encoded _ _ _ _ bits | packed _ _ _ _ bits | serialized _ _ _ _ bits => exact bits
  | _ => simp_all

theorem PhaseOk.payload (hm : s.phase ∈ [.packed, .serialized]) : (s.pbuf, s.pad) = packBits s.bits := by
  cases h with
  | packed _ _ _ _ _ payload | serialized _ _ _ _ _ payload => exact payload
  | _ => simp_all

theorem PhaseOk.container (hm : s.phase = .serialized) : s.obuf = containerBytes s.nsym.toNat s.code s.pad s.pbuf := by
  cases h with
  | serialized _ _ _ _ _ _ obuf => exact obuf
  | _ => simp_all

theorem PhaseOk.bitsOfPayload (hm : s.phase ∈ [.unpacked, .decoded]) : BitsOfPayload s := by
  cases h with
  | unpacked _ _ bits | decoded _ _ bits => exact bits
  | _ => simp_all

theorem PhaseOk.symbolsOfBits (hm : s.phase = .decoded) : SymbolsOfBits s := by
  cases h with
  | decoded _ _ _ obuf => exact obuf
  | _ => simp_all

theorem PhaseOk.noObuf (hm : s.phase ∈ [.counted, .built, .assigned, .encoded, .packed, .parsed, .unpacked]) :
    s.obuf = [] := by
  cases h <;> simp_all

theorem PhaseOk.noBits (hm : s.phase ∈ [.counted, .built, .assigned, .parsed]) : s.bits = [] := by
  cases h <;> simp_all

theorem PhaseOk.noPayload (hm : s.phase ∈ [.counted, .built, .assigned, .encoded]) : s.pbuf = [] ∧ s.pad = 0 := by
  cases h <;> simp_all

theorem PhaseOk.noTree (hm : s.phase = .counted) : s.nodes = [] ∧ s.root = 0 := by
  cases h with
  | counted _ _ tree => exact tree
  | _ => simp_all

theorem PhaseOk.noTable (hm : s.phase ∈ [.counted, .built]) : ∀ b, codeAt s.code b = [] := by
  cases h with
  | counted _ _ _ table | built _ _ _ table => exact table
  | _ => simp_all

end clauses

/-- A state whose phase has what it asks, beside what R277 asks in every phase, meets the invariants. -/
theorem Inv.of_phaseOk {s : State} (config : s.cfg.wellFormed = true) (canonical : Memory.wf s = true)
    (faulted : s.phase = .faulted ↔ s.err ≠ .none)
    (noRecord : s.err = .none → s.stage = 0 ∧ s.sub = 0 ∧ s.errpos = 0) (fits : Fits s) (h : PhaseOk s) : Inv s where
  config := config
  canonical := canonical
  faulted := faulted
  noRecord := noRecord
  capacities := fits
  cleared := h.productsCleared
  counts := h.countsInput
  tree := h.treeOfCounts
  table := h.tableOk
  tableTotal := fun hm => (h.tableOfCounts hm).2
  encoded := h.bitsOfInput
  packed := h.payload
  serialized := h.container
  parsed := fun hm => (h.readFromInput hm).2
  unpacked := h.bitsOfPayload
  decoded := h.symbolsOfBits
  notYet := ⟨h.noObuf, h.noBits, h.noPayload, h.noTree, h.noTable⟩

/-! Reset, and the states a failure leaves -/

/-- R270: nothing is held, which every admissible configuration has room for. -/
theorem resetWith_inv {c : Config} (hc : c.wellFormed = true) : Inv (State.resetWith c) :=
  .of_phaseOk hc (resetWith_memory_wf c) (by simp) (fun _ => ⟨rfl, rfl, rfl⟩) (by simp [Fits])
    (.load rfl (resetWith_cleared c))

/-- Fail() leaves the invariants: it keeps IBUF and clears the products (60_exceptions.md R246). -/
theorem Inv.of_fail {s : State} (h : Inv s) {e : ErrorRecord} (he : e.code ≠ .none) : Inv (fail e s) :=
  .of_phaseOk h.config (fail_memory_wf e s) (by simp [he]) (fun hnone => absurd hnone he)
    (by simpa [Fits] using h.capacities.1) (.faulted rfl (fail_cleared e s))

/-- In phase ASSIGNED the input is not empty, since its tree has a leaf, and each of its bytes has a code. -/
theorem Inv.one_le_codesOf_length {s : State} (h : Inv s) (hp : s.phase = .assigned) :
    1 ≤ (codesOf s.code s.ibuf).length := by
  have hcoded : ∀ b ∈ s.ibuf, codeAt s.code b ≠ [] := fun b hb =>
    List.length_pos_iff.1 (encodedLengthIsTheWeightedSum.2 s h hp b hb)
  obtain ⟨htree, -⟩ := h.tree (by simp [hp])
  obtain ⟨b, hb⟩ : ∃ b, freqAt s.freq b ≠ 0 := distinctCount_pos.1 (htree.count ▸ htree.positive)
  have hmem : b ∈ s.ibuf := by
    rw [← List.count_pos_iff, ← (h.counts (by simp [hp])).1, Nat.pos_iff_ne_zero]
    exact fun hz => hb (BitVec.eq_of_toNat_eq hz)
  exact (List.length_pos_of_mem hmem).trans_le (length_le_codesOf hcoded)

/-! What each command leaves when it completes -/

/-- The clauses of every phase hold after a command that completes: it writes no capacity, no error and, but for SRESET,
no record. -/
theorem Inv.of_completed {i : Instr} {s t : State} (h : Inv s) (he : s.err = .none) (hexec : exec i s = .next t)
    (ht : t.err = .none) (hok : Fits t ∧ PhaseOk t) : Inv t := by
  obtain ⟨hcfg, -, -⟩ := exec_keeps hexec
  have hphase : t.phase ≠ .faulted := by
    rw [exec_leaves_phase he hexec ht]
    cases i with
    | nop => exact fun hp => h.faulted.1 hp he
    | _ => simp [leftPhase]
  have hrecord : t.stage = 0 ∧ t.sub = 0 ∧ t.errpos = 0 := by
    by_cases hi : i = .sreset
    · subst hi
      cases hexec
      exact ⟨rfl, rfl, rfl⟩
    · obtain ⟨-, hstage, hsub, hpos⟩ := (completes_of_exec he hexec ht).keeps_record hi
      rw [hstage, hsub, hpos]
      exact h.noRecord he
  exact .of_phaseOk (hcfg ▸ h.config) (exec_memory_wf h.canonical hexec) (by simp [hphase, ht]) (fun _ => hrecord) hok.1
    hok.2

section completed

variable {s t : State} (h : Inv s) (he : s.err = .none) (ht : t.err = .none)
include h he ht

theorem Inv.count_ok (hexec : exec .count s = .next t) : Fits t ∧ PhaseOk t := by
  obtain ⟨hibuf, -⟩ := h.capacities
  have hnsym := nsym_toNat (countBytes s.ibuf)
  cases (execCount_eq he).symm.trans hexec
  refine ⟨⟨hibuf, Nat.zero_le _, Nat.zero_le _, Nat.zero_le _, hnsym.trans_le (distinctCount_le _), Nat.zero_le _⟩, ?_⟩
  exact .counted rfl ⟨freqAt_countBytes_toNat (ibuf_length_lt_of_le_icap hibuf), hnsym⟩ ⟨rfl, rfl⟩ codeAt_nil rfl
    ⟨rfl, rfl⟩ rfl

theorem Inv.build_ok (hexec : exec .build s = .next t) : Fits t ∧ PhaseOk t := by
  have hp : s.phase = .counted := phase_of_exec_ok rfl he hexec ht
  obtain ⟨hibuf, hobuf, hbits, hpbuf, hnsym, -⟩ := h.capacities
  obtain ⟨noObuf, noBits, noPayload, -, noTable⟩ := h.notYet
  have hn : s.nsym ≠ 0 := by
    intro hz
    rw [buildRejectsTheEmptyMap.1 s he hp hz] at hexec
    cases hexec
    cases ht
  obtain ⟨nodes, root, hbuild, htree, hsize, hweight, -⟩ := buildMakesTheGreedyTree s h hp hn
  cases hbuild.symm.trans hexec
  have hnodes : nodes.length ≤ 511 := by omega
  refine ⟨⟨hibuf, hobuf, hbits, hpbuf, hnsym, hnodes⟩, ?_⟩
  exact .built rfl (h.counts (by simp [hp])) ⟨htree, hweight⟩ (noTable (by simp [hp])) (noBits (by simp [hp]))
    (noPayload (by simp [hp])) (noObuf (by simp [hp]))

theorem Inv.assign_ok (hexec : exec .assign s = .next t) : Fits t ∧ PhaseOk t := by
  have hp : s.phase = .built := phase_of_exec_ok rfl he hexec ht
  obtain ⟨noObuf, noBits, noPayload, -, -⟩ := h.notYet
  obtain ⟨code, hassign, htable, -, htotal⟩ := h.exec_assign hp
  cases hassign.symm.trans hexec
  exact ⟨h.capacities, .assigned rfl (h.counts (by simp [hp])) (h.tree (by simp [hp])) ⟨htable, htotal⟩
    (noBits (by simp [hp])) (noPayload (by simp [hp])) (noObuf (by simp [hp]))⟩

theorem Inv.encode_ok (hexec : exec .encode s = .next t) : Fits t ∧ PhaseOk t := by
  have hp : s.phase = .assigned := phase_of_exec_ok rfl he hexec ht
  obtain ⟨hibuf, hobuf, -, hpbuf, hnsym, hnodes⟩ := h.capacities
  obtain ⟨noObuf, -, noPayload, -, -⟩ := h.notYet
  have hlen : encodedLength s.code s.ibuf ≤ s.cfg.bcap.toNat := by
    by_contra hlong
    rw [exec_encode_of_overflow he hp (not_le.1 hlong)] at hexec
    cases hexec
    cases ht
  rw [exec_encode_of_fits he hp hlen] at hexec
  cases hexec
  rw [← codesOf_length] at hlen
  refine ⟨⟨hibuf, hobuf, hlen, hpbuf, hnsym, hnodes⟩, ?_⟩
  exact .encoded rfl (h.counts (by simp [hp])) (h.tree (by simp [hp]))
    ⟨h.table (by simp [hp]), h.tableTotal (by simp [hp])⟩ ⟨rfl, h.one_le_codesOf_length hp⟩ (noPayload (by simp [hp]))
    (noObuf (by simp [hp]))

theorem Inv.pack_ok (hexec : exec .pack s = .next t) : Fits t ∧ PhaseOk t := by
  have hp : s.phase = .encoded := phase_of_exec_ok rfl he hexec ht
  obtain ⟨hibuf, hobuf, hbits, -, hnsym, hnodes⟩ := h.capacities
  obtain ⟨noObuf, -⟩ := h.notYet
  cases (execPack_eq he hp).symm.trans hexec
  refine ⟨⟨hibuf, hobuf, hbits, packBytes_length_le_pcap h.config hbits, hnsym, hnodes⟩, ?_⟩
  exact .packed rfl (h.counts (by simp [hp])) (h.tree (by simp [hp]))
    ⟨h.table (by simp [hp]), h.tableTotal (by simp [hp])⟩ (h.encoded (by simp [hp])) rfl (noObuf (by simp [hp]))

theorem Inv.serialize_ok (hexec : exec .serialize s = .next t) : Fits t ∧ PhaseOk t := by
  have hp : s.phase = .packed := phase_of_exec_ok rfl he hexec ht
  obtain ⟨hibuf, -, hbits, hpbuf, hnsym, hnodes⟩ := h.capacities
  have hsize : containerSize s.code s.pbuf.length ≤ s.cfg.ocap.toNat := by
    by_contra hlong
    rw [exec_serialize_of_overflow he hp (not_le.1 hlong)] at hexec
    cases hexec
    cases ht
  rw [exec_serialize_of_fits he hp hsize] at hexec
  cases hexec
  refine ⟨⟨hibuf, (containerSize_eq ..).trans_le hsize, hbits, hpbuf, hnsym, hnodes⟩, ?_⟩
  exact .serialized rfl (h.counts (by simp [hp])) (h.tree (by simp [hp]))
    ⟨h.table (by simp [hp]), h.tableTotal (by simp [hp])⟩ (h.encoded (by simp [hp])) (h.packed (by simp [hp])) rfl

theorem Inv.parse_ok (hexec : exec .parse s = .next t) : Fits t ∧ PhaseOk t := by
  obtain ⟨hibuf, -⟩ := h.capacities
  cases completes_of_exec he hexec ht with
  | @parse r hr =>
    obtain ⟨entries, pad, hok, -, hcount, -, hne, hpbuf, hr1, -, hr2, -⟩ := parseContainer_inv hr
    have hnsym : (BitVec.ofNat 9 r.count).toNat = r.count := by
      rw [BitVec.toNat_ofNat, Nat.mod_eq_of_lt (by omega)]
    have htable : TableOk r.code r.count := hr1 ▸ hr2 ▸ addEntries_tableOk hok
    refine ⟨⟨hibuf, Nat.zero_le _, Nat.zero_le _, hpbuf, by rw [hnsym]; omega, Nat.zero_le _⟩, .parsed rfl ?_ rfl rfl⟩
    refine ⟨?_, freqAt_nil, rfl, rfl, List.length_pos_iff.2 hne, ?_⟩
    · exact hnsym.symm ▸ htable
    · exact hnsym.symm ▸ hr

theorem Inv.unpack_ok (hexec : exec .unpack s = .next t) : Fits t ∧ PhaseOk t := by
  have hp : s.phase = .parsed := phase_of_exec_ok rfl he hexec ht
  obtain ⟨hibuf, hobuf, -, hpbuf, hnsym, hnodes⟩ := h.capacities
  obtain ⟨noObuf, -⟩ := h.notYet
  have hread : ReadFromInput s := ⟨h.table (by simp [hp]), h.parsed (by simp [hp])⟩
  obtain ⟨-, -, -, hpos, -⟩ := h.parsed (by simp [hp])
  have hpad := s.pad.isLt
  have hbits : (unpackBits s.pbuf s.pad).length ≤ s.cfg.bcap.toNat := by
    rw [Config.pcap] at hpbuf
    rw [unpackBits_length]
    omega
  cases completes_of_exec he hexec ht
  refine ⟨⟨hibuf, hobuf, hbits, hpbuf, hnsym, hnodes⟩, .unpacked rfl hread ⟨rfl, unpackBits_length .., ?_⟩ ?_⟩
  · show 1 ≤ (unpackBits s.pbuf s.pad).length
    rw [unpackBits_length]
    omega
  · exact noObuf (by simp [hp])

theorem Inv.decode_ok (hexec : exec .decode s = .next t) : Fits t ∧ PhaseOk t := by
  have hp : s.phase = .unpacked := phase_of_exec_ok rfl he hexec ht
  obtain ⟨hibuf, -, hbits, hpbuf, hnsym, hnodes⟩ := h.capacities
  have htable := h.table (by simp [hp])
  obtain ⟨-, -, hpos⟩ := h.unpacked (by simp [hp])
  cases completes_of_exec he hexec ht with
  | @decode out hscan =>
    obtain ⟨_, rfl, hcodes, hcoded, hcap⟩ := decodeScan_ok htable.canonical _ hscan
    rw [List.nil_append] at hcodes
    have hle := length_le_codesOf hcoded
    have hne : out ≠ [] := by
      rintro rfl
      rw [← hcodes] at hpos
      exact absurd hpos (by simp)
    refine ⟨⟨hibuf, hcap (Nat.zero_le _), hbits, hpbuf, hnsym, hnodes⟩, ?_⟩
    exact .decoded rfl ⟨htable, h.parsed (by simp [hp])⟩ (h.unpacked (by simp [hp]))
      ⟨List.length_pos_iff.2 hne, hcodes ▸ hle, hcodes⟩

end completed

/-- An input that fits IBUF, and no product: what ICLR and PUSH leave. -/
theorem loaded_ok {s : State} {l : List Byte} (hl : l.length ≤ s.cfg.icap.toNat) :
    Fits { clearProducts s with ibuf := l, phase := .load } ∧
      PhaseOk { clearProducts s with ibuf := l, phase := .load } :=
  ⟨⟨hl, Nat.zero_le _, Nat.zero_le _, Nat.zero_le _, Nat.zero_le _, Nat.zero_le _⟩,
    .load rfl ⟨freqAt_nil, codeAt_nil, rfl, rfl, rfl, rfl, rfl, rfl, rfl⟩⟩

theorem iclr_ok {s t : State} (he : s.err = .none) (hexec : exec .iclr s = .next t) : Fits t ∧ PhaseOk t := by
  cases (execIclr_eq he).symm.trans hexec
  exact loaded_ok (Nat.zero_le _)

theorem Inv.push_ok {s t : State} (h : Inv s) (he : s.err = .none) (ht : t.err = .none) {b : Byte}
    (hexec : exec (.push b) s = .next t) : Fits t ∧ PhaseOk t := by
  obtain ⟨hibuf, -⟩ := h.capacities
  by_cases hfull : s.ibuf.length = s.cfg.icap.toNat
  · cases ((execPush_eq he b).trans (if_pos hfull)).symm.trans hexec
    cases ht
  · cases ((execPush_eq he b).trans (if_neg hfull)).symm.trans hexec
    exact loaded_ok (by rw [List.length_append, List.length_singleton]; omega)

theorem Inv.of_softReset {s : State} (h : Inv s) : Inv (softReset s) :=
  .of_phaseOk h.config rfl (by simp) (fun _ => ⟨rfl, rfl, rfl⟩) (by simp [Fits])
    (.load rfl ⟨freqAt_nil, codeAt_nil, rfl, rfl, rfl, rfl, rfl, rfl, rfl⟩)

/-! One command from the invariants: it answers a next state, which meets them -/

/-- The commands that are no composites. -/
def IsUnitCommand (i : Instr) : Prop := i ≠ .compress ∧ i ≠ .decompress

section units

variable {i : Instr} {s : State} (h : Inv s) (hi : IsUnitCommand i)
include h hi

theorem Inv.of_exec_unit {t : State} (hexec : exec i s = .next t) : Inv t := by
  obtain ⟨hcompress, hdecompress⟩ := hi
  by_cases hs : i = .sreset
  · subst hs
    cases hexec
    exact h.of_softReset
  by_cases he : s.err = .none
  swap
  · rw [exec_faulted he hs] at hexec
    cases hexec
    exact h
  by_cases ht : t.err = .none
  swap
  · obtain ⟨e, rfl⟩ := failed_of_exec he hexec ht
    exact h.of_fail ht
  cases i with
  | nop =>
    rw [exec, execNop_eq] at hexec
    cases hexec
    exact h
  | count => exact h.of_completed he hexec ht (h.count_ok he ht hexec)
  | build => exact h.of_completed he hexec ht (h.build_ok he ht hexec)
  | assign => exact h.of_completed he hexec ht (h.assign_ok he ht hexec)
  | encode => exact h.of_completed he hexec ht (h.encode_ok he ht hexec)
  | pack => exact h.of_completed he hexec ht (h.pack_ok he ht hexec)
  | serialize => exact h.of_completed he hexec ht (h.serialize_ok he ht hexec)
  | parse => exact h.of_completed he hexec ht (h.parse_ok he ht hexec)
  | unpack => exact h.of_completed he hexec ht (h.unpack_ok he ht hexec)
  | decode => exact h.of_completed he hexec ht (h.decode_ok he ht hexec)
  | iclr => exact h.of_completed he hexec ht (iclr_ok he hexec)
  | push b => exact h.of_completed he hexec ht (h.push_ok he ht hexec)
  | compress => exact absurd rfl hcompress
  | decompress => exact absurd rfl hdecompress
  | sreset => exact absurd rfl hs

/-- The three faults of the model's own are out of reach: BUILD finds a key, ASSIGN a tree, and UNPACK a payload. -/
theorem Inv.exec_unit_total : ∃ t, exec i s = .next t := by
  obtain ⟨hcompress, hdecompress⟩ := hi
  by_cases hs : i = .sreset
  · subst hs
    exact ⟨softReset s, rfl⟩
  by_cases he : s.err = .none
  swap
  · exact ⟨s, exec_faulted he hs⟩
  by_cases hphase : ∃ p, neededPhase i = some p ∧ s.phase ≠ p
  · obtain ⟨p, hneed, hp⟩ := hphase
    exact ⟨_, exec_badPhase hneed he hp⟩
  push Not at hphase
  cases i with
  | nop => exact ⟨s, execNop_eq s⟩
  | count => exact ⟨_, execCount_eq he⟩
  | build =>
    have hp : s.phase = .counted := hphase _ rfl
    by_cases hn : s.nsym = 0
    · exact ⟨_, buildRejectsTheEmptyMap.1 s he hp hn⟩
    · obtain ⟨nodes, root, hbuild, -⟩ := buildMakesTheGreedyTree s h hp hn
      exact ⟨_, hbuild⟩
  | assign =>
    obtain ⟨code, hassign, -⟩ := h.exec_assign (hphase _ rfl)
    exact ⟨_, hassign⟩
  | encode =>
    rw [exec, execEncode_eq he (hphase _ rfl)]
    split <;> exact ⟨_, rfl⟩
  | pack => exact ⟨_, execPack_eq he (hphase _ rfl)⟩
  | serialize =>
    rw [exec, execSerialize_eq he (hphase _ rfl)]
    split <;> exact ⟨_, rfl⟩
  | parse =>
    rw [exec, execParse_eq he]
    split <;> exact ⟨_, rfl⟩
  | unpack =>
    have hp : s.phase = .parsed := hphase _ rfl
    obtain ⟨-, -, -, hpos, -⟩ := h.parsed (by simp [hp])
    have hpad := s.pad.isLt
    exact ⟨_, (execUnpack_eq he hp).trans (if_pos (by omega))⟩
  | decode =>
    rw [exec, execDecode_eq he (hphase _ rfl)]
    split <;> exact ⟨_, rfl⟩
  | iclr => exact ⟨_, execIclr_eq he⟩
  | push b =>
    rw [exec, execPush_eq he]
    split <;> exact ⟨_, rfl⟩
  | compress => exact absurd rfl hcompress
  | decompress => exact absurd rfl hdecompress
  | sreset => exact absurd rfl hs

end units

/-- The stages of a composite, each from the invariants the one before it left. -/
theorem Inv.stages_safe {is : List Instr} (hi : ∀ i ∈ is, IsUnitCommand i) {s : State} (h : Inv s) :
    ∃ t, stages is s = .next t ∧ Inv t := by
  induction is generalizing s with
  | nil => exact ⟨s, rfl, h⟩
  | cons i is ih =>
    have hunit := hi i List.mem_cons_self
    obtain ⟨t, hexec⟩ := h.exec_unit_total hunit
    have ht := h.of_exec_unit hunit hexec
    rw [stages, hexec]
    by_cases he : t.err = .none
    · rw [thenStage_ok he]
      exact ih (fun j hj => hi j (List.mem_cons_of_mem i hj)) ht
    · exact ⟨t, thenStage_stop he, ht⟩

theorem Inv.exec_safe {s : State} (h : Inv s) (i : Instr) : ∃ t, exec i s = .next t ∧ Inv t := by
  by_cases hcompress : i = .compress
  · rw [hcompress, exec_compress_eq_stages]
    exact h.stages_safe (by simp [compressStages, IsUnitCommand])
  by_cases hdecompress : i = .decompress
  · rw [hdecompress, exec_decompress_eq_stages]
    exact h.stages_safe (by simp [decompressStages, IsUnitCommand])
  obtain ⟨t, hexec⟩ := h.exec_unit_total ⟨hcompress, hdecompress⟩
  exact ⟨t, hexec, h.of_exec_unit ⟨hcompress, hdecompress⟩ hexec⟩

/-! One step from the invariants -/

theorem Inv.writeCmd_safe {s : State} (h : Inv s) (w : Word) : ∃ t, writeCmd w s = .next t ∧ Inv t := by
  rcases writeCmd_cases (w := w) (s := s) _ rfl with ⟨-, hw⟩ | ⟨-, hw, -⟩ | ⟨i, -, hw⟩
  · exact ⟨s, hw, h⟩
  · exact ⟨_, hw, h.of_fail (e := illegalCommand w) (by simp [illegalCommand])⟩
  · rw [hw]
    exact h.exec_safe i

theorem Inv.takeInput_safe {s : State} (h : Inv s) (input : HostInput) : ∃ t, takeInput input s = .next t ∧ Inv t := by
  cases input with
  | rst => exact ⟨_, rfl, (resetWith_inv h.config).of_port s.port none⟩
  | transaction tr =>
    obtain ⟨write, space, index, wdata⟩ := tr
    cases write with
    | false => exact ⟨_, rfl, h.of_port s.port _⟩
    | true =>
      by_cases hcmd : space = 0 ∧ index = 1
      · obtain ⟨rfl, rfl⟩ := hcmd
        rw [takeInput, transact_write_cmd]
        exact (h.of_port s.port none).writeCmd_safe wdata
      · exact ⟨_, transact_write_elsewhere hcmd wdata s, h.of_port s.port none⟩

theorem Inv.step_safe {s : State} (h : Inv s) : ∃ t, step s = .next t ∧ Inv t := by
  cases hp : s.port with
  | nil => exact ⟨s, step_of_port_nil hp, h⟩
  | cons input rest =>
    rw [step_of_port_cons hp]
    exact (h.of_port rest s.rdata).takeInput_safe input

/-! The obligations -/

/-- Settles O58: the reset state of the reference configuration is one of the reset states. -/
theorem invariantsHoldAtReset : Obligations.InvariantsHoldAtReset :=
  ⟨resetWith_inv (by decide), fun _ => resetWith_inv⟩

/-- Settles O59: the state a step answers is the one `Inv.step_safe` speaks of. -/
theorem invariantsKeptByEveryStep : Obligations.InvariantsKeptByEveryStep := by
  intro s t h hstep
  obtain ⟨u, hu, hinv⟩ := h.step_safe
  cases hu.symm.trans hstep
  exact hinv

end Sys2Proof.Machine
end

section
/-! PROOFS. The phase machine (70_reset_and_hazards.md R276), and that every command is total in the states that meet the
invariants (60_exceptions.md R249). -/

namespace Sys2Proof.Machine

/-! The states in which the model stops (log 8) -/

/-- Without a key there is no leaf, and LIVE has no member for ROOT. -/
theorem buildTree_of_no_key {freq : SymMap Word} (h : ∀ b, freqAt freq b = 0) : buildTree freq = none := by
  have hleaves : leafNodes freq = [] := by simp [leafNodes, h]
  rw [buildTree, hleaves]
  rfl

/-- A ROOT beyond the arena stops the traversal at once. -/
theorem assignCodes_of_no_root {nodes : List Node} {root : Nat} (h : nodes[root]? = none) (code : SymMap BitString) :
    assignCodes nodes root code = .error (.fault .brokenTree) := by
  rw [assignCodes, h]
  cases nodes.length with
  | zero => rfl
  | succ fuel => rw [visit, h]

/-! The obligations -/

/-- Settles O57, by `Inv.step_safe` and `Inv.exec_safe`; the three faults by the check of the command that stops. -/
theorem stopsOnlyOutsideTheInvariants : Obligations.StopsOnlyOutsideTheInvariants := by
  refine ⟨fun s h => ?_, fun i s h => ?_, fun s he hp hn hkey => ?_, fun s he hp hroot => ?_, fun s he hp hpbuf hpad => ?_⟩
  · obtain ⟨t, ht, -⟩ := h.step_safe
    exact ⟨t, ht⟩
  · obtain ⟨t, ht, -⟩ := h.exec_safe i
    exact ⟨t, ht⟩
  · rw [exec, execBuild_eq he hp, if_neg hn, buildTree_of_no_key hkey]
  · rw [exec, execAssign_eq he hp, assignCodes_of_no_root hroot]
  · have hpos : s.pad.toNat ≠ 0 := fun hz => hpad (BitVec.eq_of_toNat_eq hz)
    rw [exec, execUnpack_eq he hp, hpbuf, if_neg (by simpa using hpos)]

/-- Settles O53: commands by `exec_badPhase`, `exec_next` and `exec_faulted`, illegal words by `writeCmd_of_illegal`. -/
theorem phaseMachine : Obligations.PhaseMachine := by
  refine ⟨fun i s t he h => ⟨fun p hneed hp => ?_, fun hphase => ?_⟩, fun w s t he hill h => ?_,
    fun i s t he h => ⟨?_, fun hi => ?_⟩, fun w s t he hill h => ?_⟩
  · cases (exec_badPhase hneed he hp).symm.trans h
    exact ⟨rfl, rfl⟩
  · rcases exec_next he h with ⟨p, hneed, hp, -⟩ | ⟨-, ⟨hmay, e, rfl, hne, hcode, -⟩ | hok⟩
    · exact absurd (hphase p hneed) hp
    · exact .inr ⟨hmay, hne, hcode, rfl⟩
    · exact .inl hok
  · rw [transact_write_cmd, writeCmd_of_illegal hill, if_pos (by exact he)] at h
    cases h
    rfl
  · rintro rfl
    cases h
    rfl
  · rw [exec_faulted he hi] at h
    cases h
    rfl
  · rw [transact_write_cmd, writeCmd_of_illegal hill, if_neg (by exact he)] at h
    cases h
    rfl

end Sys2Proof.Machine
end
